-- ==== Sys2Proof/Word.lean ====
section
/-! DEFINITION. The plain value types of the framer (spec R4 to R6): bytes and 16-bit words, and the
names of the four byte-addressed spaces and of the two units. -/

namespace Sys2Proof

/-- A `Byte`, an unsigned number in 0..255 (R5). -/
abbrev Byte := BitVec 8

/-- A `U16`, an unsigned number in 0..65535 (R5). -/
abbrev U16 := BitVec 16

/-- The four byte-addressed spaces the block reaches (R19, R31). -/
inductive Space where
  /-- read by PAR: the buffer handed to decode -/
  | RXBUF
  /-- written by PAR: the decoded extended payload -/
  | POUT
  /-- read by SER: the extended payload to encode -/
  | PIN
  /-- written by SER: the encoded frame -/
  | TXBUF
  deriving DecidableEq, Repr

/-- The two units of the block (R1). -/
inductive UnitName where
  /-- the serializer -/
  | SER
  /-- the parser -/
  | PAR
  deriving DecidableEq, Repr

end Sys2Proof
end

