-- ==== Sys2Proof/Config.lean ====
section
/-! DEFINITION. What is fixed for one instance of the framer (R8, R9), and the free values: constants
with no body, so that no proof can lean on a value the spec leaves open. -/

namespace Sys2Proof.Config

/-- `HDR_LEN`: bytes in the header, and in a short frame (R8). -/
def hdrLen : Nat := 6

/-- `LEN_MAX`: the largest extended payload length (R8). -/
def lenMax : Nat := 65535

/-- `FRAME_MAX`: the largest frame (R8). -/
def frameMax : Nat := 65541

/-- `PLEN_W`: the width of the descriptor's `d_plen`, 32 for this hardware (R9). -/
def plenW : Nat := 32

/-- `AVAIL_W`: the width of `p_avail`, 32 for this hardware (R9). -/
def availW : Nat := 32

/-- The low seven bits of `DEFAULT_DEST`, an OPEN parameter of the instance (R9, R78): a free constant. -/
opaque defaultDest7 : BitVec 7

/-- `DEFAULT_DEST`: any byte whose bit 7 is 0 (R9, R78). -/
def defaultDest : Byte := defaultDest7.setWidth 8

/-- Bit 7 of `DEFAULT_DEST`, which "must be 0" (R9, R78, R172). -/
def defaultDestFlag : Bool := false

/-- `DEFAULT_SRC`, an OPEN parameter of the instance (R9, R78): a free constant. -/
opaque defaultSrc : Byte

/-- What a byte of a buffer holds that nothing has written: a free value for each space and offset
(R21: the contents are "not part of the block"; notes/assumptions/5.md). -/
opaque bufferByte : Space → Nat → Byte

/-- Free values: the `n`th value of `w` bits that the named unit draws where the spec leaves a value
open (notes/assumptions/3.md, notes/assumptions/6.md). -/
opaque freeBits (u : UnitName) (w n : Nat) : BitVec w

end Sys2Proof.Config
end

