-- ==== Sys2Proof/Syntax.lean ====
section
/-! DEFINITION. The value types of the transaction level (R11 to R14), the descriptors of the port
level (R67, R69), the values the host can present (the `format` column of R64), and `Instr`: one
constructor per row of the opcode table. -/

namespace Sys2Proof

/-- What a caller hands to CONSTRUCT; possibly invalid (R11). -/
structure RawRequest where
  opcode  : Int
  dest    : Option Int
  src     : Option Int
  param1  : Option Int
  param2  : Option Int
  payload : Option (List Int)
  deriving DecidableEq, Repr

/-- The two cases of a message's body (R12). -/
inductive Body where
  | inlineParams (param1 param2 : Byte)
  | extended (bytes : List Byte)
  deriving DecidableEq, Repr

/-- "The decoded/pre-encode representation" (R12). -/
structure LogicalMessage where
  opcode : U16
  dest   : Byte
  src    : Byte
  body   : Body
  deriving DecidableEq, Repr

/-- What UNPACK and UNPACKH return on success (R13). -/
inductive DecodeResult where
  | short (msg : LogicalMessage) (consumed : Nat)
  | longFull (msg : LogicalMessage) (consumed : Nat)
  | longHeader (opcode : U16) (destRaw src : Byte) (declaredLen : U16) (consumed : Nat)
  deriving DecidableEq, Repr

/-- The outcome of an operation (R14). -/
inductive Status where
  | OK
  | MalformedHeader
  | TruncatedPayload
  | InvalidConstruction
  | PayloadTooLarge
  | DestFlagViolation
  deriving DecidableEq, Repr

/-- The result kind of PAR's response (R70). -/
inductive Kind where
  | NONE
  | SHORT
  | LONG_FULL
  | LONG_HDR
  deriving DecidableEq, Repr

/-- The fields of SER's descriptor besides the presence flags that select the path (R67). -/
structure SerFields where
  d_opcode   : U16
  d_has_dest : Bool
  d_dest     : Byte
  d_has_src  : Bool
  d_src      : Byte
  d_p1       : Byte
  d_p2       : Byte
  /-- `PLEN_W` bits, a natural number here (decision D14) -/
  d_plen     : Nat
  deriving DecidableEq, Repr

/-- SER's descriptor, sampled at `s_start` (R67). -/
structure SerDesc where
  d_has_pld : Bool
  d_has_p1  : Bool
  d_has_p2  : Bool
  fields    : SerFields
  deriving DecidableEq, Repr

/-- PAR's descriptor, sampled at `p_start` (R69). -/
structure ParDesc where
  p_hdronly_in : Bool
  /-- `AVAIL_W` bits, a natural number here (decision D14) -/
  p_avail_in   : Nat
  deriving DecidableEq, Repr

/-- The fields of a short frame's header (R51, format SHORT): `long` = 0. -/
structure ShortHdr where
  opcode : U16
  param1 : Byte
  param2 : Byte
  /-- `destination[6:0]` -/
  dest   : BitVec 7
  source : Byte
  deriving DecidableEq, Repr

/-- The fields of a long frame's header (R51, format LONG): `long` = 1. -/
structure LongHdr where
  opcode : U16
  length : U16
  /-- `destination[6:0]` -/
  dest   : BitVec 7
  source : Byte
  deriving DecidableEq, Repr

/-- What is presented to the block or to the codec from outside, before it is decoded: one
constructor per kind of value that a `format` of the opcode table tests (R64). -/
inductive Presented where
  /-- `HDR48`: the bytes of one wire frame, from its first byte -/
  | frame (bytes : List Byte)
  /-- `PSEL49` and `AVAIL`: a decode request, the mode flag and the input buffer -/
  | parse (headerOnly : Bool) (buf : List Byte)
  /-- `SSEL3`: a serializer request, its descriptor and the payload bytes it declares -/
  | serialize (d : SerDesc) (payload : List Byte)
  /-- `REQ` -/
  | request (r : RawRequest)
  /-- `MSG, MSG` -/
  | messages (m1 m2 : LogicalMessage)
  /-- control input `s_start` = 1 with SER's descriptor inputs -/
  | sStart (d : SerDesc)
  /-- control input `p_start` = 1 with PAR's descriptor inputs -/
  | pStart (d : ParDesc)
  /-- control input `rst` = 1 -/
  | rst
  /-- a selector value that belongs to no format of the table -/
  | noFormat (nbits w : Nat)
  deriving DecidableEq, Repr

/-- The operations and controls of the block: one constructor per row of the opcode table (R2). -/
inductive Instr where
  /-- FRAME.SHORT (R51): a short wire frame -/
  | frameShort (h : ShortHdr)
  /-- FRAME.LONG (R51): a long wire frame, header and payload -/
  | frameLong (h : LongHdr) (payload : List Byte)
  /-- UNPACK.SHORT (R103): full decode of a buffer whose header is short; `rest` follows the header -/
  | unpackShort (h : ShortHdr) (rest : List Byte)
  /-- UNPACK.LONG (R104) -/
  | unpackLong (h : LongHdr) (rest : List Byte)
  /-- UNPACKH.SHORT (R106) -/
  | unpackhShort (h : ShortHdr) (rest : List Byte)
  /-- UNPACKH.LONG (R107) -/
  | unpackhLong (h : LongHdr) (rest : List Byte)
  /-- UNPACK.MALFORMED (R100): decode, in either mode, of fewer than six bytes -/
  | unpackMalformed (headerOnly : Bool) (buf : List Byte)
  /-- PACK.INLINE (R86), selector `S` = 0,p1,p2 (R61) -/
  | packInline (hasP1 hasP2 : Bool) (f : SerFields)
  /-- PACK.EXT (R87), selector `S` = 1,0,0 -/
  | packExt (f : SerFields) (payload : List Byte)
  /-- CONSTRUCT.CONFLICT.P1 (R76), selector `S` = 1,1,any -/
  | constructConflictP1 (hasP2 : Bool) (f : SerFields) (payload : List Byte)
  /-- CONSTRUCT.CONFLICT.P2 (R76), selector `S` = 1,any,1 -/
  | constructConflictP2 (hasP1 : Bool) (f : SerFields) (payload : List Byte)
  /-- CONSTRUCT (R75), at the transaction level -/
  | construct (r : RawRequest)
  /-- MSGEQ (R120), at the transaction level -/
  | msgeq (m1 m2 : LogicalMessage)
  /-- START.SER (R131, R94) -/
  | startSer (d : SerDesc)
  /-- START.PAR (R131, R111) -/
  | startPar (d : ParDesc)
  /-- RESET (R170) -/
  | reset
  deriving DecidableEq, Repr

end Sys2Proof
end

