-- ==== Sys2Proof/Machine/Operands.lean ====
section
/-! DEFINITION. Field assembly and operand forms: the 16-bit fields and their bytes (R55, R56), the
destination byte (R57), the header bytes of both formats (R51), the header word and the selectors
(R52, R60, R61), and the fields a serializer descriptor puts in force (R78, R79, R94). -/

namespace Sys2Proof

/-- `lo8(v)`, the low byte (R7). -/
def lo8 (v : U16) : Byte := v.extractLsb' 0 8

/-- `hi8(v)`, the high byte (R7). -/
def hi8 (v : U16) : Byte := v.extractLsb' 8 8

/-- `le16(a, b)`: the word whose low byte is `a` and high byte is `b` (R7, R55, R56). -/
def le16 (a b : Byte) : U16 := b ++ a

/-- The discriminator `long`: bit 7 of the destination byte (R54, R102). -/
def long (b4 : Byte) : Bool := b4.getLsbD 7

/-- `dest | 0x80`: the destination byte of a long frame (R57). -/
def setLong (d : Byte) : Byte := d ||| 0x80#8

/-- `b4 & 0x7F`: the destination a full decode of a long frame returns (R57, decision D7). -/
def clearLong (d : Byte) : Byte := d &&& 0x7F#8

/-- The six bytes of a short frame (R51, format SHORT). -/
def ShortHdr.bytes (h : ShortHdr) : List Byte :=
  [lo8 h.opcode, hi8 h.opcode, h.param1, h.param2, 0#1 ++ h.dest, h.source]

/-- The six header bytes of a long frame (R51, format LONG). -/
def LongHdr.bytes (h : LongHdr) : List Byte :=
  [lo8 h.opcode, hi8 h.opcode, lo8 h.length, hi8 h.length, 1#1 ++ h.dest, h.source]

/-- The header word `H`: the six header bytes read little-endian (R52). -/
def headerWord (b0 b1 b2 b3 b4 b5 : Byte) : BitVec 48 := b5 ++ (b4 ++ (b3 ++ (b2 ++ (b1 ++ b0))))

/-- The parser selector `P`: bit 48 is `headerOnly`, bits 47:0 are `H` (R60). -/
def parserSelector (headerOnly : Bool) (H : BitVec 48) : BitVec 49 := BitVec.ofBool headerOnly ++ H

/-- The serializer selector `S`: `d_has_pld`, `d_has_p1`, `d_has_p2` from bit 2 down (R61). -/
def serializerSelector (d : SerDesc) : BitVec 3 :=
  BitVec.ofBool d.d_has_pld ++ (BitVec.ofBool d.d_has_p1 ++ BitVec.ofBool d.d_has_p2)

/-- The fields of `H` for a short frame (R52). -/
def ShortHdr.ofHeaderWord (H : BitVec 48) : ShortHdr where
  opcode := H.extractLsb' 0 16
  param1 := H.extractLsb' 16 8
  param2 := H.extractLsb' 24 8
  dest := H.extractLsb' 32 7
  source := H.extractLsb' 40 8

/-- The fields of `H` for a long frame (R52). -/
def LongHdr.ofHeaderWord (H : BitVec 48) : LongHdr where
  opcode := H.extractLsb' 0 16
  length := H.extractLsb' 16 16
  dest := H.extractLsb' 32 7
  source := H.extractLsb' 40 8

/-- The length of the frame whose header has these bytes 2, 3 and 4 (R58). -/
def frameLength (b2 b3 b4 : Byte) : Nat :=
  if long b4 then Config.hdrLen + (le16 b2 b3).toNat else Config.hdrLen

/-- The destination in force: `d_dest`, or `DEFAULT_DEST` when the caller supplies none (R78, R94). -/
def SerFields.destInForce (f : SerFields) : Byte :=
  if f.d_has_dest then f.d_dest else Config.defaultDest

/-- The source in force: `d_src`, or `DEFAULT_SRC` (R78, R94). -/
def SerFields.srcInForce (f : SerFields) : Byte :=
  if f.d_has_src then f.d_src else Config.defaultSrc

/-- Bit 7 of the destination in force: `DEFAULT_DEST` has it 0 (R78, R151). -/
def SerFields.destFlag (f : SerFields) : Bool :=
  if f.d_has_dest then long f.d_dest else Config.defaultDestFlag

/-- The first parameter in force: a parameter not supplied is 0 (R79, R94). -/
def SerDesc.param1InForce (d : SerDesc) : Byte := if d.d_has_p1 then d.fields.d_p1 else 0

/-- The second parameter in force (R79, R94). -/
def SerDesc.param2InForce (d : SerDesc) : Byte := if d.d_has_p2 then d.fields.d_p2 else 0

/-- `d_plen[15:0]`, what `s_n` latches (R94). -/
def SerFields.plenLow (f : SerFields) : U16 := BitVec.ofNat 16 f.d_plen

/-- The header SER computes for an Extended body (R94). -/
def SerFields.extHeader (f : SerFields) : Vector Byte 6 :=
  #v[lo8 f.d_opcode, hi8 f.d_opcode, lo8 f.plenLow, hi8 f.plenLow, setLong f.destInForce, f.srcInForce]

/-- The header SER computes for an Inline body (R94). -/
def SerDesc.inlineHeader (d : SerDesc) : Vector Byte 6 :=
  #v[lo8 d.fields.d_opcode, hi8 d.fields.d_opcode, d.param1InForce, d.param2InForce,
    d.fields.destInForce, d.fields.srcInForce]

/-- The descriptor of PACK.INLINE (R61). -/
def SerFields.inlineDesc (f : SerFields) (hasP1 hasP2 : Bool) : SerDesc := ⟨false, hasP1, hasP2, f⟩

/-- The descriptor of the rows with a payload present (R61). -/
def SerFields.payloadDesc (f : SerFields) (hasP1 hasP2 : Bool) : SerDesc := ⟨true, hasP1, hasP2, f⟩

/-- The 3-bit code of a status (R14). -/
def Status.code : Status → BitVec 3
  | .OK => 0
  | .MalformedHeader => 1
  | .TruncatedPayload => 2
  | .InvalidConstruction => 3
  | .PayloadTooLarge => 4
  | .DestFlagViolation => 5

/-- The 2-bit code of a result kind (R18, R70). -/
def Kind.code : Kind → BitVec 2
  | .NONE => 0
  | .SHORT => 1
  | .LONG_FULL => 2
  | .LONG_HDR => 3

end Sys2Proof
end

