-- ==== Sys2Proof/WellFormed.lean ====
section
/-! DEFINITION. Which instructions can be presented: declared lengths are the lengths of the bytes
present (R179), and fit their fields (R9). -/

namespace Sys2Proof

/-- An input buffer whose length fits `AVAIL_W` bits (R69). -/
def bufferFits (n : Nat) : Bool := decide (n < 2 ^ Config.availW)

/-- A declared payload length that fits `PLEN_W` bits (R67). -/
def plenFits (n : Nat) : Bool := decide (n < 2 ^ Config.plenW)

/-- A payload whose length is the declared one, which fits its field (R67, R179). -/
def payloadDeclared (f : SerFields) (payload : List Byte) : Bool :=
  payload.length == f.d_plen && plenFits f.d_plen

/-- The instructions that have an encoding: what `Presented` values decode to (R64, R67, R69, R179).
For CONSTRUCT.CONFLICT.P2 the selector value `S` = 1,1,1 is left to CONSTRUCT.CONFLICT.P1, which
the two rows share it with (R64, notes/assumptions/9.md). -/
def Instr.wellFormed : Instr → Bool
  | .frameShort _ => true
  | .frameLong h payload => payload.length == h.length.toNat
  | .unpackShort _ rest => bufferFits (Config.hdrLen + rest.length)
  | .unpackLong _ rest => bufferFits (Config.hdrLen + rest.length)
  | .unpackhShort _ rest => bufferFits (Config.hdrLen + rest.length)
  | .unpackhLong _ rest => bufferFits (Config.hdrLen + rest.length)
  | .unpackMalformed _ buf => decide (buf.length < Config.hdrLen)
  | .packInline _ _ f => plenFits f.d_plen
  | .packExt f payload => payloadDeclared f payload
  | .constructConflictP1 _ f payload => payloadDeclared f payload
  | .constructConflictP2 hasP1 f payload => !hasP1 && payloadDeclared f payload
  | .construct _ => true
  | .msgeq _ _ => true
  | .startSer d => plenFits d.fields.d_plen
  | .startPar d => bufferFits d.p_avail_in
  | .reset => true

end Sys2Proof
end

