-- ==== Sys2Proof/Decode.lean ====
section
/-! DEFINITION. The dispatch table (R54, R60, R61, R64) as rows of mask and match, the decoder from
presented values to instructions, total and rejecting by name, and the encoder after it. -/

namespace Sys2Proof

/-- A row of the opcode table: a value `v` is selected when `v & mask` is the pattern (R64). -/
structure Row (w : Nat) where
  mnemonic : String
  mask     : BitVec w
  pattern  : BitVec w
  deriving DecidableEq, Repr

/-- The row selects the value (R64). -/
def Row.selects {w : Nat} (r : Row w) (v : BitVec w) : Bool := v &&& r.mask == r.pattern

/-- Format `HDR48` (R54). -/
def rowFrameShort : Row 48 := ⟨"FRAME.SHORT", 0x008000000000, 0x000000000000⟩
def rowFrameLong : Row 48 := ⟨"FRAME.LONG", 0x008000000000, 0x008000000000⟩

/-- Format `PSEL49` (R60). -/
def rowUnpackShort : Row 49 := ⟨"UNPACK.SHORT", 0x1008000000000, 0x0000000000000⟩
def rowUnpackLong : Row 49 := ⟨"UNPACK.LONG", 0x1008000000000, 0x0008000000000⟩
def rowUnpackhShort : Row 49 := ⟨"UNPACKH.SHORT", 0x1008000000000, 0x1000000000000⟩
def rowUnpackhLong : Row 49 := ⟨"UNPACKH.LONG", 0x1008000000000, 0x1008000000000⟩

/-- Format `SSEL3` (R61). -/
def rowPackInline : Row 3 := ⟨"PACK.INLINE", 4, 0⟩
def rowPackExt : Row 3 := ⟨"PACK.EXT", 7, 4⟩
def rowConflictP1 : Row 3 := ⟨"CONSTRUCT.CONFLICT.P1", 6, 6⟩
def rowConflictP2 : Row 3 := ⟨"CONSTRUCT.CONFLICT.P2", 5, 5⟩

/-- Why a presented value is no instruction. None of these can be presented to the hardware: the
spec gives the host no such move (R179) or no such wires (R67, R69). -/
inductive DecodeError where
  /-- fewer than six bytes are no frame (R50) -/
  | headerIncomplete
  /-- the bytes after the header are not as many as the frame's length says (R50, R58) -/
  | frameLengthMismatch
  /-- the declared payload length is not the number of bytes present, or bytes are present with no
  payload declared (R179, decision D34) -/
  | lengthNotTruthful
  /-- the length needs more than `PLEN_W` or `AVAIL_W` bits (R67, R69) -/
  | lengthTooWide
  /-- the value belongs to no format of the table (R64) -/
  | unknownFormat
  deriving DecidableEq, Repr

/-- Decoding of a wire frame by its header word (R52, R54; lengths by R50, R58). -/
def decodeFrame : List Byte → Except DecodeError Instr
  | b0 :: b1 :: b2 :: b3 :: b4 :: b5 :: payload =>
    let H := headerWord b0 b1 b2 b3 b4 b5
    if rowFrameShort.selects H then
      if payload.length == 0 then .ok (.frameShort (.ofHeaderWord H)) else .error .frameLengthMismatch
    else if rowFrameLong.selects H then
      let h := LongHdr.ofHeaderWord H
      if payload.length == h.length.toNat then .ok (.frameLong h payload) else .error .frameLengthMismatch
    else .error .unknownFormat
  | _ => .error .headerIncomplete

/-- Decoding of a decode request: the `AVAIL` row before any `PSEL49` row (R60, R64, R100). -/
def decodeParse (headerOnly : Bool) : List Byte → Except DecodeError Instr
  | b0 :: b1 :: b2 :: b3 :: b4 :: b5 :: rest =>
    let H := headerWord b0 b1 b2 b3 b4 b5
    let P := parserSelector headerOnly H
    if bufferFits (Config.hdrLen + rest.length) then
      if rowUnpackShort.selects P then .ok (.unpackShort (.ofHeaderWord H) rest)
      else if rowUnpackLong.selects P then .ok (.unpackLong (.ofHeaderWord H) rest)
      else if rowUnpackhShort.selects P then .ok (.unpackhShort (.ofHeaderWord H) rest)
      else if rowUnpackhLong.selects P then .ok (.unpackhLong (.ofHeaderWord H) rest)
      else .error .unknownFormat
    else .error .lengthTooWide
  | buf => .ok (.unpackMalformed headerOnly buf)

/-- Decoding of a serializer request by its selector (R61); the declared length is the number of
payload bytes present (R179). -/
def decodeSerialize (d : SerDesc) (payload : List Byte) : Except DecodeError Instr :=
  let S := serializerSelector d
  if !plenFits d.fields.d_plen then .error .lengthTooWide
  else if rowPackInline.selects S then
    if payload.length == 0 then .ok (.packInline d.d_has_p1 d.d_has_p2 d.fields) else .error .lengthNotTruthful
  else if payload.length == d.fields.d_plen then
    if rowPackExt.selects S then .ok (.packExt d.fields payload)
    else if rowConflictP1.selects S then .ok (.constructConflictP1 d.d_has_p2 d.fields payload)
    else if rowConflictP2.selects S then .ok (.constructConflictP2 d.d_has_p1 d.fields payload)
    else .error .unknownFormat
  else .error .lengthNotTruthful

/-- The decoder: total on everything that can be presented (R64). -/
def decode : Presented → Except DecodeError Instr
  | .frame bytes => decodeFrame bytes
  | .parse headerOnly buf => decodeParse headerOnly buf
  | .serialize d payload => decodeSerialize d payload
  | .request r => .ok (.construct r)
  | .messages m1 m2 => .ok (.msgeq m1 m2)
  | .sStart d => if plenFits d.fields.d_plen then .ok (.startSer d) else .error .lengthTooWide
  | .pStart d => if bufferFits d.p_avail_in then .ok (.startPar d) else .error .lengthTooWide
  | .rst => .ok .reset
  | .noFormat _ _ => .error .unknownFormat

/-- The encoder: what is presented for an instruction (R51, R60, R61, R67, R69). -/
def encode : Instr → Presented
  | .frameShort h => .frame h.bytes
  | .frameLong h payload => .frame (h.bytes ++ payload)
  | .unpackShort h rest => .parse false (h.bytes ++ rest)
  | .unpackLong h rest => .parse false (h.bytes ++ rest)
  | .unpackhShort h rest => .parse true (h.bytes ++ rest)
  | .unpackhLong h rest => .parse true (h.bytes ++ rest)
  | .unpackMalformed headerOnly buf => .parse headerOnly buf
  | .packInline hasP1 hasP2 f => .serialize (f.inlineDesc hasP1 hasP2) []
  | .packExt f payload => .serialize (f.payloadDesc false false) payload
  | .constructConflictP1 hasP2 f payload => .serialize (f.payloadDesc true hasP2) payload
  | .constructConflictP2 hasP1 f payload => .serialize (f.payloadDesc hasP1 true) payload
  | .construct r => .request r
  | .msgeq m1 m2 => .messages m1 m2
  | .startSer d => .sStart d
  | .startPar d => .pStart d
  | .reset => .rst

/-- The serializer fields whose bits are all 0. -/
def SerFields.zero : SerFields := ⟨0, false, 0, false, 0, 0, 0, 0⟩

/-- Byte `k` of a number, least significant first (R5, R52). -/
def byteOf (w k : Nat) : Byte := BitVec.ofNat 8 (w / 256 ^ k)

/-- The six header bytes of a number laid out little-endian from offset 0 (R52). -/
def headerBytesOf (w : Nat) : List Byte :=
  [byteOf w 0, byteOf w 1, byteOf w 2, byteOf w 3, byteOf w 4, byteOf w 5]

/-- The frame of a header word: its six bytes, and for a word that selects FRAME.LONG a payload of
zero bytes, as many as the word declares (R51, R54). -/
def frameOfHeaderWord (w : Nat) : List Byte :=
  let H : BitVec 48 := BitVec.ofNat 48 w
  headerBytesOf w ++ List.replicate (if rowFrameLong.selects H then (LongHdr.ofHeaderWord H).length.toNat else 0) 0

/-- The value presented by a selector value of the opcode table, everything it does not hold being 0:
the fields of a descriptor and the payload of a frame. The table gives `S` 3 bits, `H` 48 and `P` 49
(R64), so the number of bits tells the format; a row with no bits at all stands for an input of no
bytes (notes/assumptions/10.md). -/
def presentedOfTableWord (nbits w : Nat) : Presented :=
  if nbits = 0 then .parse false []
  else if nbits ≤ 32 then
    if w < 8 then .serialize ⟨w.testBit 2, w.testBit 1, w.testBit 0, .zero⟩ [] else .noFormat nbits w
  else if nbits ≤ 48 then
    if w < 2 ^ 48 then .frame (frameOfHeaderWord w) else .noFormat nbits w
  else if w < 2 ^ 49 then .parse (w.testBit 48) (headerBytesOf w)
  else .noFormat nbits w

/-- The instruction the decoder reads from a word of the opcode table. -/
def decodeTableWord (nbits w : Nat) : Option Instr := (decode (presentedOfTableWord nbits w)).toOption

end Sys2Proof
end

