-- ==== Sys2Proof/Machine/State.lean ====
section
/-! DEFINITION. The state of the block and its environment as plain data: the registers of the two
units (R16 to R18, R20, R21), the four buffers (R31), what the last call at the transaction level
returned, and the moves that are still to come; why a step can stop; and the state after reset. -/

namespace Sys2Proof.Machine

/-- A byte-addressed space: the offsets that hold a byte, strictly rising. An offset with no entry
holds no value that anything has written. -/
abbrev Memory := List Host.Cell

/-- The canonical form: offsets strictly rising. An unlisted offset reads as "no value", which no
entry equals. -/
abbrev Memory.wf (m : Memory) : Prop := m.Pairwise (fun a b => a.1 < b.1)

/-- The states of SER (R16). -/
inductive SState where
  | S_IDLE
  | S_HDR
  | S_BODY
  | S_DONE
  deriving DecidableEq, Repr

/-- The states of PAR (R16). -/
inductive PState where
  | P_IDLE
  | P_HDR
  | P_BODY
  | P_DONE
  deriving DecidableEq, Repr

/-- The serializer: its registers and the two buffers it reaches. -/
structure Ser where
  s_state  : SState
  /-- offset in TXBUF of the next byte SER writes -/
  s_cnt    : BitVec 17
  /-- the latched message has an Extended body -/
  s_ext    : Bool
  /-- the number of payload bytes, 0 for Inline -/
  s_n      : U16
  /-- the six computed header bytes -/
  s_h      : Vector Byte 6
  /-- the latched copy of the descriptor (R20) -/
  s_desc   : SerDesc
  s_status : Status
  s_txlen  : BitVec 17
  PIN      : Memory
  TXBUF    : Memory
  /-- the model's own: the host has written PIN during this operation (93 U4) -/
  s_torn   : Bool
  /-- the model's own: a reset has abandoned an operation, so TXBUF is undefined to the host (R171) -/
  s_undef  : Bool
  /-- the model's own: how many free values SER has drawn -/
  s_draws  : Nat
  deriving DecidableEq, Repr

/-- The parser: its registers and the two buffers it reaches. -/
structure Par where
  p_state    : PState
  /-- offset in RXBUF of the next byte PAR reads -/
  p_cnt      : BitVec 17
  /-- the latched mode flag `headerOnly` -/
  p_hdronly  : Bool
  /-- the latched number of bytes in RXBUF, `AVAIL_W` bits (a natural number, decision D14) -/
  p_avail    : Nat
  /-- the six header holding registers -/
  p_hdr      : Vector Byte 6
  p_status   : Status
  p_kind     : Kind
  p_consumed : BitVec 17
  RXBUF      : Memory
  POUT       : Memory
  /-- the model's own: the host has written RXBUF during this operation (93 U4) -/
  p_torn     : Bool
  /-- the model's own: a reset has abandoned an operation, so POUT is undefined to the host (R171) -/
  p_undef    : Bool
  /-- the model's own: how many free values PAR has drawn -/
  p_draws    : Nat
  deriving DecidableEq, Repr

/-- What the last call at the transaction level returned to its caller. The units hold nothing of it
("State written: none; the result is a new value", R75, R120). -/
inductive Returned where
  | nothing
  | message (m : LogicalMessage)
  | truth (b : Bool)
  | error (e : Status)
  deriving DecidableEq, Repr

/-- One move of an agent (R130): which agent moves next, and with what, is plain data. -/
inductive Turn where
  /-- the host presents an operation or a control -/
  | present (w : Presented)
  /-- the host writes bytes to RXBUF from an offset upward (R30) -/
  | fillRx (offset : Nat) (bytes : List Byte)
  /-- the host writes bytes to PIN from an offset upward (R30) -/
  | fillPin (offset : Nat) (bytes : List Byte)
  /-- SER takes its step, if it has one -/
  | ser
  /-- PAR takes its step, if it has one -/
  | par
  deriving DecidableEq, Repr

/-- The whole state. SER and PAR "share no register and no buffer" (R38). -/
structure State where
  ser    : Ser
  par    : Par
  ret    : Returned
  /-- the moves still to come, the next one first -/
  inputs : List Turn
  deriving DecidableEq, Repr

/-- Faults. There is none: the spec has no trap, no hang and no stuck outcome; an error is a status
code of a completed operation (R141, R150). Nothing raises one. Safe. -/
inductive Fault where
  deriving DecidableEq, Repr

/-- Refusals. -/
inductive Refusal where
  /-- Raised by an arm of `exec` for an instruction without a meaning: no arm does. Safe. -/
  | notModelled (mnemonic : String)
  /-- Raised by `step` alone, when a start declares more input bytes than the host has placed: "the
  host is given no such move" (R179, decision D34, 93 U15). Safe. -/
  | untruthfulLength
  /-- Raised by `step` alone, when what the host presents is no instruction: the spec gives the host
  no such move, or the wires to present it (R67, R69, R179, R64). Safe. -/
  | undecodable (e : DecodeError)
  deriving DecidableEq, Repr

/-- SER after reset (R21). The holding registers, which R21 leaves unspecified, hold 0
(notes/assumptions/1.md). -/
def Ser.reset : Ser where
  s_state := .S_IDLE
  s_cnt := 0
  s_ext := false
  s_n := 0
  s_h := Vector.replicate 6 0
  s_desc := ⟨false, false, false, .zero⟩
  s_status := .OK
  s_txlen := 0
  PIN := []
  TXBUF := []
  s_torn := false
  s_undef := false
  s_draws := 0

/-- PAR after reset (R21); the holding registers as for SER (notes/assumptions/1.md). -/
def Par.reset : Par where
  p_state := .P_IDLE
  p_cnt := 0
  p_hdronly := false
  p_avail := 0
  p_hdr := Vector.replicate 6 0
  p_status := .OK
  p_kind := .NONE
  p_consumed := 0
  RXBUF := []
  POUT := []
  p_torn := false
  p_undef := false
  p_draws := 0

/-- The machine right after reset (R21): both units idle, buffers that nothing has written, no move
to come. -/
def State.reset : State := ⟨Ser.reset, Par.reset, .nothing, []⟩

end Sys2Proof.Machine
end

