-- ==== Sys2Proof/Machine/Flags.lean ====
section
/-! DEFINITION. The single-bit values of the block (R17): `busy` and `done` of each unit and the
discriminator of the header PAR holds. -/

namespace Sys2Proof.Machine

/-- `s_busy`: `s_state` is S_HDR or S_BODY (R17). -/
def Ser.s_busy (u : Ser) : Bool := u.s_state == .S_HDR || u.s_state == .S_BODY

/-- `s_done`: `s_state` is S_DONE (R17). -/
def Ser.s_done (u : Ser) : Bool := u.s_state == .S_DONE

/-- `p_busy`: `p_state` is P_HDR or P_BODY (R17). -/
def Par.p_busy (u : Par) : Bool := u.p_state == .P_HDR || u.p_state == .P_BODY

/-- `p_done`: `p_state` is P_DONE (R17). -/
def Par.p_done (u : Par) : Bool := u.p_state == .P_DONE

/-- `long`: bit 7 of `p_hdr[4]` (R17). -/
def Par.long (u : Par) : Bool := Sys2Proof.long u.p_hdr[4]

/-- The declared length `L` of the header PAR holds (R135). -/
def Par.L (u : Par) : U16 := le16 u.p_hdr[2] u.p_hdr[3]

end Sys2Proof.Machine
end

