-- ==== Sys2Proof/Machine/Ops.lean ====
section
/-! DEFINITION. The shared operations: reading and writing a buffer, the host's writes to the input
buffers, what PAR and SER read on their ports, ending an operation with an error or a result (the
analogue of taking an exception, R150; there is no return from one, R156), and the reset step. -/

namespace Sys2Proof.Machine

/-- The byte at an offset, if anything has written one. -/
def Memory.read : Memory → Nat → Option Byte
  | [], _ => none
  | (a, v) :: m, k => if a = k then some v else Memory.read m k

/-- One byte written, in canonical form (`MemWrite(addr, 1, v)`, R7). -/
def Memory.write : Memory → Nat → Byte → Memory
  | [], k, b => [(k, b)]
  | (a, v) :: m, k, b =>
    if k < a then (k, b) :: (a, v) :: m
    else if k = a then (k, b) :: m
    else (a, v) :: Memory.write m k b

/-- Bytes written in ascending offset from `k` upward. -/
def Memory.writeList : Memory → Nat → List Byte → Memory
  | m, _, [] => m
  | m, k, b :: bs => Memory.writeList (Memory.write m k b) (k + 1) bs

/-- The byte a port sees at an offset: what was written there, or the free value that an unwritten
offset holds (notes/assumptions/5.md). -/
def Memory.byte (sp : Space) (m : Memory) (k : Nat) : Byte := (Memory.read m k).getD (Config.bufferByte sp k)

/-- The `n` bytes at offsets `k`, `k + 1`, ... -/
def Memory.bytes (sp : Space) (m : Memory) : Nat → Nat → List Byte
  | _, 0 => []
  | k, n + 1 => Memory.byte sp m k :: Memory.bytes sp m (k + 1) n

/-- The end of the unbroken run of written offsets that starts at `n`. -/
def Memory.placedFrom : Memory → Nat → Nat
  | [], n => n
  | (a, _) :: m, n => if a = n then Memory.placedFrom m (n + 1) else n

/-- The number of bytes placed in an input buffer from offset 0 upward, without a gap (R179,
notes/assumptions/21.md). -/
def Memory.placed (m : Memory) : Nat := Memory.placedFrom m 0

/-- The host writes RXBUF. While PAR is busy this breaks R43, and every byte PAR reads afterwards in
that operation is any value (93 U4). -/
def Par.hostFill (u : Par) (k : Nat) (bs : List Byte) : Par :=
  { u with RXBUF := Memory.writeList u.RXBUF k bs, p_torn := u.p_torn || (u.p_busy && !bs.isEmpty) }

/-- The host writes PIN; the breach as for RXBUF (R43, 93 U4). -/
def Ser.hostFill (u : Ser) (k : Nat) (bs : List Byte) : Ser :=
  { u with PIN := Memory.writeList u.PIN k bs, s_torn := u.s_torn || (u.s_busy && !bs.isEmpty) }

/-- `MemRead(RXBUF+k, 1)` as PAR sees it (R31, 93 U4). -/
def Par.rxData (u : Par) (k : Nat) : Byte :=
  if u.p_torn then Config.freeBits .PAR 8 u.p_draws else Memory.byte .RXBUF u.RXBUF k

/-- `MemRead(PIN+k, 1)` as SER sees it (R31, 93 U4). -/
def Ser.pinData (u : Ser) (k : Nat) : Byte :=
  if u.s_torn then Config.freeBits .SER 8 u.s_draws else Memory.byte .PIN u.PIN k

/-- PAR has read a byte: a free one is used up. -/
def Par.drawn (u : Par) : Nat := if u.p_torn then u.p_draws + 1 else u.p_draws

/-- SER has read a byte of PIN: a free one is used up. -/
def Ser.drawn (u : Ser) : Nat := if u.s_torn then u.s_draws + 1 else u.s_draws

/-- `raise e` in SER: DONE with the code of `e` and `s_txlen` = 0, "nothing is saved and nothing is
changed" besides (R150). -/
def Ser.raise (u : Ser) (e : Status) : Ser := { u with s_status := e, s_txlen := 0, s_state := .S_DONE }

/-- `raise e` in PAR: DONE with the code of `e`, `p_kind` = 0 and `p_consumed` = 0 (R150). -/
def Par.raise (u : Par) (e : Status) : Par :=
  { u with p_status := e, p_kind := .NONE, p_consumed := 0, p_state := .P_DONE }

/-- SER ends with a frame of `n` bytes in TXBUF (R95, R96). -/
def Ser.finish (u : Ser) (n : BitVec 17) : Ser := { u with s_status := .OK, s_txlen := n, s_state := .S_DONE }

/-- PAR ends with a result of kind `k` that used `n` bytes (R113, R114). -/
def Par.finish (u : Par) (k : Kind) (n : BitVec 17) : Par :=
  { u with p_status := .OK, p_kind := k, p_consumed := n, p_state := .P_DONE }

/-- A free bit. -/
def freeFlag (u : UnitName) (n : Nat) : Bool := Config.freeBits u 1 n == 1#1

/-- A descriptor of free values, drawn from `n` upward. -/
def freeDesc (n : Nat) : SerDesc where
  d_has_pld := freeFlag .SER n
  d_has_p1 := freeFlag .SER (n + 1)
  d_has_p2 := freeFlag .SER (n + 2)
  fields :=
    { d_opcode := Config.freeBits .SER 16 (n + 3)
      d_has_dest := freeFlag .SER (n + 4)
      d_dest := Config.freeBits .SER 8 (n + 5)
      d_has_src := freeFlag .SER (n + 6)
      d_src := Config.freeBits .SER 8 (n + 7)
      d_p1 := Config.freeBits .SER 8 (n + 8)
      d_p2 := Config.freeBits .SER 8 (n + 9)
      d_plen := (Config.freeBits .SER Config.plenW (n + 10)).toNat }

/-- Six bytes of free values, drawn from `n` upward. -/
def freeHeader (u : UnitName) (n : Nat) : Vector Byte 6 :=
  #v[Config.freeBits u 8 n, Config.freeBits u 8 (n + 1), Config.freeBits u 8 (n + 2),
    Config.freeBits u 8 (n + 3), Config.freeBits u 8 (n + 4), Config.freeBits u 8 (n + 5)]

/-- The reset step of SER (R170): idle, counter, status and `s_txlen` 0, every holding register
unspecified, the buffers untouched; an operation in flight is abandoned (R171). -/
def Ser.resetStep (u : Ser) : Ser :=
  { u with
    s_state := .S_IDLE, s_cnt := 0, s_status := .OK, s_txlen := 0
    s_h := freeHeader .SER u.s_draws
    s_n := Config.freeBits .SER 16 (u.s_draws + 6)
    s_ext := freeFlag .SER (u.s_draws + 7)
    s_desc := freeDesc (u.s_draws + 8)
    s_torn := false, s_undef := u.s_undef || u.s_busy, s_draws := u.s_draws + 19 }

/-- The reset step of PAR (R170, R171). -/
def Par.resetStep (u : Par) : Par :=
  { u with
    p_state := .P_IDLE, p_cnt := 0, p_status := .OK, p_kind := .NONE, p_consumed := 0
    p_hdr := freeHeader .PAR u.p_draws
    p_hdronly := freeFlag .PAR (u.p_draws + 6)
    p_avail := (Config.freeBits .PAR Config.availW (u.p_draws + 7)).toNat
    p_torn := false, p_undef := u.p_undef || u.p_busy, p_draws := u.p_draws + 8 }

end Sys2Proof.Machine
end

