-- ==== Sys2Proof/Machine/Ser.lean ====
section
/-! DEFINITION. The serializer unit: its start step (R94), header step (R95) and body step (R96), a
whole operation from `start` to `done`, and the accesses its steps make on their ports (R31, R36). -/

namespace Sys2Proof.Machine

/-- The start step of SER (R94). A start presented to a busy unit is ignored (R132). -/
def Ser.start (d : SerDesc) (u : Ser) : Ser :=
  if u.s_busy then u
  else
    let v := { u with s_desc := d, s_torn := false }
    if d.d_has_pld && (d.d_has_p1 || d.d_has_p2) then v.raise .InvalidConstruction
    else if d.d_has_pld then
      if Config.lenMax < d.fields.d_plen then v.raise .PayloadTooLarge
      else { v with s_ext := true, s_n := d.fields.plenLow, s_h := d.fields.extHeader, s_cnt := 0, s_state := .S_HDR }
    else if d.fields.destFlag then v.raise .DestFlagViolation
    else { v with s_ext := false, s_n := 0, s_h := d.inlineHeader, s_cnt := 0, s_state := .S_HDR }

/-- The frame length `6 + s_n`, in 17 bits (R59). -/
def Ser.frameLen (u : Ser) : BitVec 17 := 6 + u.s_n.setWidth 17

/-- The header step of SER (R95). -/
def Ser.headerStep (u : Ser) (h : u.s_cnt.toNat < 6) : Ser :=
  let n := u.s_cnt + 1
  let v := { u with TXBUF := Memory.write u.TXBUF u.s_cnt.toNat u.s_h[u.s_cnt.toNat], s_cnt := n }
  if n = 6 then
    if u.s_ext && 0 < u.s_n then { v with s_state := .S_BODY } else v.finish 6
  else v

/-- The body step of SER (R96). -/
def Ser.bodyStep (u : Ser) : Ser :=
  let n := u.s_cnt + 1
  let v := { u with
    TXBUF := Memory.write u.TXBUF u.s_cnt.toNat (u.pinData (u.s_cnt - 6).toNat)
    s_cnt := n, s_draws := u.drawn }
  if n = u.frameLen then v.finish u.frameLen else v

/-- One step of SER: the rows of R134 for the busy states. In a state no row covers, SER has no
step (unreachable from reset, notes/assumptions/8.md). -/
def Ser.tick (u : Ser) : Ser :=
  match u.s_state with
  | .S_HDR => if h : u.s_cnt.toNat < 6 then u.headerStep h else u
  | .S_BODY => if 6 ≤ u.s_cnt.toNat ∧ u.s_cnt < u.frameLen then u.bodyStep else u
  | .S_IDLE => u
  | .S_DONE => u

/-- At most `n` steps of SER, ending when it is not busy. -/
def Ser.run : Nat → Ser → Ser
  | 0, u => u
  | n + 1, u => if u.s_busy then Ser.run n u.tick else u

/-- A whole SER operation: the host puts the payload in PIN and starts SER, which runs to `done`
(R134, R136). A busy SER ignores it all (R132). -/
def Ser.operation (d : SerDesc) (payload : List Byte) (u : Ser) : Ser :=
  if u.s_busy then u
  else
    let v := ({ u with PIN := Memory.writeList u.PIN 0 payload }).start d
    v.run (Config.hdrLen + v.s_n.toNat)

/-- One access of the block to a buffer (R31). -/
inductive Access where
  | readRx (k : Nat)
  | writePo (k : Nat) (b : Byte)
  | readPin (k : Nat)
  | writeTx (k : Nat) (b : Byte)
  deriving DecidableEq, Repr

/-- What SER's ports do in its next step, in order (R36, R95, R96). -/
def Ser.accesses (u : Ser) : List Access :=
  match u.s_state with
  | .S_HDR => if h : u.s_cnt.toNat < 6 then [.writeTx u.s_cnt.toNat u.s_h[u.s_cnt.toNat]] else []
  | .S_BODY =>
    if 6 ≤ u.s_cnt.toNat ∧ u.s_cnt < u.frameLen then
      [.readPin (u.s_cnt - 6).toNat, .writeTx u.s_cnt.toNat (u.pinData (u.s_cnt - 6).toNat)]
    else []
  | .S_IDLE => []
  | .S_DONE => []

/-- The accesses of at most `n` steps of SER, in order. -/
def Ser.runAccesses : Nat → Ser → List Access
  | 0, _ => []
  | n + 1, u => if u.s_busy then u.accesses ++ Ser.runAccesses n u.tick else []

end Sys2Proof.Machine
end

