-- ==== Sys2Proof/Machine/Par.lean ====
section
/-! DEFINITION. The parser unit: its start step (R111), header step (R112), dispatch (R113) and body
step (R114), a whole operation from `start` to `done`, and the accesses its steps make (R31, R36). -/

namespace Sys2Proof.Machine

/-- The start step of PAR (R111). A start presented to a busy unit is ignored (R132). -/
def Par.start (d : ParDesc) (u : Par) : Par :=
  if u.p_busy then u
  else
    let v := { u with p_hdronly := d.p_hdronly_in, p_avail := d.p_avail_in, p_torn := false }
    if d.p_avail_in < Config.hdrLen then v.raise .MalformedHeader
    else { v with p_cnt := 0, p_state := .P_HDR }

/-- The frame length `6 + L`, in 17 bits (R59). -/
def Par.frameLen (u : Par) : BitVec 17 := 6 + u.L.setWidth 17

/-- The dispatch, with the six header bytes held (R113). -/
def Par.dispatch (u : Par) : Par :=
  if !u.long then u.finish .SHORT 6
  else if u.p_hdronly then u.finish .LONG_HDR 6
  else if u.p_avail < Config.hdrLen + u.L.toNat then u.raise .TruncatedPayload
  else if u.L = 0 then u.finish .LONG_FULL 6
  else { u with p_state := .P_BODY }

/-- The header step of PAR (R112). -/
def Par.headerStep (u : Par) (h : u.p_cnt.toNat < 6) : Par :=
  let n := u.p_cnt + 1
  let v := { u with p_hdr := u.p_hdr.set u.p_cnt.toNat (u.rxData u.p_cnt.toNat), p_cnt := n, p_draws := u.drawn }
  if n = 6 then v.dispatch else v

/-- The body step of PAR (R114). -/
def Par.bodyStep (u : Par) : Par :=
  let n := u.p_cnt + 1
  let v := { u with
    POUT := Memory.write u.POUT (u.p_cnt - 6).toNat (u.rxData u.p_cnt.toNat)
    p_cnt := n, p_draws := u.drawn }
  if n = u.frameLen then v.finish .LONG_FULL u.frameLen else v

/-- One step of PAR: the rows of R135 for the busy states. In a state no row covers, PAR has no
step (unreachable from reset, notes/assumptions/8.md). -/
def Par.tick (u : Par) : Par :=
  match u.p_state with
  | .P_HDR => if h : u.p_cnt.toNat < 6 then u.headerStep h else u
  | .P_BODY => if 6 ≤ u.p_cnt.toNat ∧ u.p_cnt < u.frameLen then u.bodyStep else u
  | .P_IDLE => u
  | .P_DONE => u

/-- At most `n` steps of PAR, ending when it is not busy. -/
def Par.run : Nat → Par → Par
  | 0, u => u
  | n + 1, u => if u.p_busy then Par.run n u.tick else u

/-- A whole PAR operation: the host hands the buffer to PAR in RXBUF with its length and starts PAR,
which runs to `done` (R135, R136). A busy PAR ignores it all (R132). -/
def Par.operation (headerOnly : Bool) (buf : List Byte) (u : Par) : Par :=
  if u.p_busy then u
  else
    let v := Par.start ⟨headerOnly, buf.length⟩ { u with RXBUF := Memory.writeList u.RXBUF 0 buf }
    let w := v.run Config.hdrLen
    w.run w.L.toNat

/-- What PAR's ports do in its next step, in order (R36, R112, R114). -/
def Par.accesses (u : Par) : List Access :=
  match u.p_state with
  | .P_HDR => if u.p_cnt.toNat < 6 then [.readRx u.p_cnt.toNat] else []
  | .P_BODY =>
    if 6 ≤ u.p_cnt.toNat ∧ u.p_cnt < u.frameLen then
      [.readRx u.p_cnt.toNat, .writePo (u.p_cnt - 6).toNat (u.rxData u.p_cnt.toNat)]
    else []
  | .P_IDLE => []
  | .P_DONE => []

/-- The accesses of at most `n` steps of PAR, in order. -/
def Par.runAccesses : Nat → Par → List Access
  | 0, _ => []
  | n + 1, u => if u.p_busy then u.accesses ++ Par.runAccesses n u.tick else []

end Sys2Proof.Machine
end

