-- ==== Sys2Proof/Machine/Transaction.lean ====
section
/-! DEFINITION. The transaction level (R3): `construct` (R75), `pack` (R85), `unpack` (R100) and
`msgeq` (R120) as total functions from values to a result or an error, and the host-side
pseudo-operations (R72, R82). -/

namespace Sys2Proof.Machine

/-- A value in the 8-bit range (R77). -/
def inByte (v : Int) : Bool := decide (0 ≤ v) && decide (v ≤ 255)

/-- A value in the 16-bit range (R77). -/
def inU16 (v : Int) : Bool := decide (0 ≤ v) && decide (v ≤ 65535)

/-- A field that is not supplied, or supplied in the 8-bit range (R77). -/
def optInByte : Option Int → Bool
  | none => true
  | some v => inByte v

/-- Both a parameter and a payload are present: the test is on presence, not on values (R76). -/
def conflict (r : RawRequest) : Bool := (r.param1.isSome || r.param2.isSome) && r.payload.isSome

/-- Every value supplied is in range (R77). -/
def inRange (r : RawRequest) : Bool :=
  inU16 r.opcode && optInByte r.param1 && optInByte r.param2 && optInByte r.dest && optInByte r.src &&
    (match r.payload with
     | none => true
     | some l => l.all inByte)

/-- A value known to be in range, as a byte. -/
def byteOfInt (v : Int) : Byte := BitVec.ofInt 8 v

/-- A supplied byte, or the default (R78, R79). -/
def byteOr (v : Option Int) (dflt : Byte) : Byte :=
  match v with
  | none => dflt
  | some x => byteOfInt x

/-- The body: Extended exactly when a payload is present (R80). -/
def bodyOf (r : RawRequest) : Body :=
  match r.payload with
  | some l => .extended (l.map byteOfInt)
  | none => .inlineParams (byteOr r.param1 0) (byteOr r.param2 0)

/-- The message of a request that is not refused (R75 steps 3 and 4). -/
def messageOf (r : RawRequest) : LogicalMessage where
  opcode := BitVec.ofInt 16 r.opcode
  dest := byteOr r.dest Config.defaultDest
  src := byteOr r.src Config.defaultSrc
  body := bodyOf r

/-- CONSTRUCT (R75). -/
def construct (r : RawRequest) : Except Status LogicalMessage :=
  if conflict r then .error .InvalidConstruction
  else if !inRange r then .error .InvalidConstruction
  else .ok (messageOf r)

/-- PACK on the Inline path (R86, R89). -/
def packInline (m : LogicalMessage) (p1 p2 : Byte) : Except Status (List Byte) :=
  if long m.dest then .error .DestFlagViolation
  else .ok [lo8 m.opcode, hi8 m.opcode, p1, p2, m.dest, m.src]

/-- PACK on the Extended path (R87, R88). -/
def packExt (m : LogicalMessage) (bytes : List Byte) : Except Status (List Byte) :=
  if Config.lenMax < bytes.length then .error .PayloadTooLarge
  else
    let n : U16 := BitVec.ofNat 16 bytes.length
    .ok ([lo8 m.opcode, hi8 m.opcode, lo8 n, hi8 n, setLong m.dest, m.src] ++ bytes)

/-- PACK (R85). -/
def pack (m : LogicalMessage) : Except Status (List Byte) :=
  match m.body with
  | .inlineParams p1 p2 => packInline m p1 p2
  | .extended bytes => packExt m bytes

/-- UNPACK, and UNPACKH when `headerOnly` (R100). -/
def unpack (buf : List Byte) (headerOnly : Bool) : Except Status DecodeResult :=
  match buf with
  | b0 :: b1 :: b2 :: b3 :: b4 :: b5 :: rest =>
    let L := (le16 b2 b3).toNat
    if !long b4 then .ok (.short ⟨le16 b0 b1, b4, b5, .inlineParams b2 b3⟩ 6)
    else if headerOnly then .ok (.longHeader (le16 b0 b1) b4 b5 (le16 b2 b3) 6)
    else if rest.length < L then .error .TruncatedPayload
    else .ok (.longFull ⟨le16 b0 b1, clearLong b4, b5, .extended (rest.take L)⟩ (6 + L))
  | _ => .error .MalformedHeader

/-- The number of input bytes a decode used (R109, R13). -/
def consumedOf : DecodeResult → Nat
  | .short _ c => c
  | .longFull _ c => c
  | .longHeader _ _ _ _ c => c

/-- MSGEQ: equality by re-encoding; an operand that PACK refuses ends it, the first one before the
second (R120, R121). -/
def messagesEqual (m1 m2 : LogicalMessage) : Except Status Bool :=
  match pack m1 with
  | .error e => .error e
  | .ok f1 =>
    match pack m2 with
    | .error e => .error e
    | .ok f2 => .ok (f1 == f2)

/-- The request a SER descriptor stands for, with `pin` the bytes at `PIN+0` upward (R81). -/
def requestOf (d : SerDesc) (pin : List Byte) : RawRequest where
  opcode := d.fields.d_opcode.toNat
  dest := if d.fields.d_has_dest then some d.fields.d_dest.toNat else none
  src := if d.fields.d_has_src then some d.fields.d_src.toNat else none
  param1 := if d.d_has_p1 then some d.fields.d_p1.toNat else none
  param2 := if d.d_has_p2 then some d.fields.d_p2.toNat else none
  payload := if d.d_has_pld then some (pin.map fun b => (b.toNat : Int)) else none

/-- The descriptor that stands for a message: every field supplied (R81, R127). -/
def messageDesc (m : LogicalMessage) : SerDesc :=
  match m.body with
  | .inlineParams p1 p2 => ⟨false, true, true, ⟨m.opcode, true, m.dest, true, m.src, p1, p2, 0⟩⟩
  | .extended bytes => ⟨true, false, false, ⟨m.opcode, true, m.dest, true, m.src, 0, 0, bytes.length⟩⟩

/-- The payload bytes a message carries to PIN. -/
def messagePayload (m : LogicalMessage) : List Byte :=
  match m.body with
  | .inlineParams _ _ => []
  | .extended bytes => bytes

/-- `STR2BYTES`, the host's conversion of a text payload (R82). -/
def str2bytes (s : String) : List Int := s.toList.map fun c => (c.toNat : Int)

/-- `SEND`: CONSTRUCT, then PACK of its result (R72); what one SER operation does (R134). -/
def send (r : RawRequest) : Except Status (List Byte) :=
  match construct r with
  | .error e => .error e
  | .ok m => pack m

/-- `RECV`: UNPACKH on the first 6 bytes, and for a long header UNPACK on the first `6 + L` (R72, R178). -/
def recv (stream : List Byte) : Except Status DecodeResult :=
  match unpack (stream.take 6) true with
  | .ok (.longHeader _ _ _ len _) => unpack (stream.take (6 + len.toNat)) false
  | r => r

end Sys2Proof.Machine
end

