-- ==== Sys2Proof/Machine/Response.lean ====
section
/-! DEFINITION. What the host reads: the response of each unit (R20, R68, R70) and the bytes of the
output buffers. A field or byte that the spec leaves unspecified to the host has no value here
(R20, R176, decision D21). -/

namespace Sys2Proof.Machine

/-- PAR's response holds a result: `p_done` = 1 and `p_status` = 0 (R176). -/
def Par.hasResult (u : Par) : Bool := u.p_done && u.p_status == .OK

/-- `p_opcode` (R20). -/
def Par.p_opcode (u : Par) : Option U16 :=
  if u.hasResult && u.p_kind != .NONE then some (le16 u.p_hdr[0] u.p_hdr[1]) else none

/-- `p_param1` (R20). -/
def Par.p_param1 (u : Par) : Option Byte := if u.hasResult && u.p_kind == .SHORT then some u.p_hdr[2] else none

/-- `p_param2` (R20). -/
def Par.p_param2 (u : Par) : Option Byte := if u.hasResult && u.p_kind == .SHORT then some u.p_hdr[3] else none

/-- `p_len` (R20). -/
def Par.p_len (u : Par) : Option U16 :=
  if u.hasResult && (u.p_kind == .LONG_FULL || u.p_kind == .LONG_HDR) then some u.L else none

/-- `p_dest` (R20, decision D7). -/
def Par.p_dest (u : Par) : Option Byte :=
  if u.hasResult then
    match u.p_kind with
    | .NONE => none
    | .SHORT => some u.p_hdr[4]
    | .LONG_FULL => some (clearLong u.p_hdr[4])
    | .LONG_HDR => some u.p_hdr[4]
  else none

/-- `p_src` (R20). -/
def Par.p_src (u : Par) : Option Byte := if u.hasResult && u.p_kind != .NONE then some u.p_hdr[5] else none

/-- PAR's response as the transaction level gives it, while `p_done` = 1 (R70). -/
def Par.response (u : Par) : Option (Except Status DecodeResult) :=
  if !u.p_done then none
  else if u.p_status != .OK then some (.error u.p_status)
  else
    match u.p_kind with
    | .NONE => none
    | .SHORT =>
      some (.ok (.short ⟨le16 u.p_hdr[0] u.p_hdr[1], u.p_hdr[4], u.p_hdr[5],
        .inlineParams u.p_hdr[2] u.p_hdr[3]⟩ u.p_consumed.toNat))
    | .LONG_FULL =>
      some (.ok (.longFull ⟨le16 u.p_hdr[0] u.p_hdr[1], clearLong u.p_hdr[4], u.p_hdr[5],
        .extended (Memory.bytes .POUT u.POUT 0 u.L.toNat)⟩ u.p_consumed.toNat))
    | .LONG_HDR =>
      some (.ok (.longHeader (le16 u.p_hdr[0] u.p_hdr[1]) u.p_hdr[4] u.p_hdr[5] u.L u.p_consumed.toNat))

/-- SER's response, while `s_done` = 1: its error, or the frame in TXBUF (R68). -/
def Ser.response (u : Ser) : Option (Except Status (List Byte)) :=
  if !u.s_done then none
  else if u.s_status != .OK then some (.error u.s_status)
  else some (.ok (Memory.bytes .TXBUF u.TXBUF 0 u.s_txlen.toNat))

/-- The byte of TXBUF the host may rely on at an offset: none while SER runs (R43, R173); the frame
of a successful operation (R176); beyond it the old data (R97), unless a reset has abandoned an
operation (R171, 93 U11). -/
def Ser.hostTx (u : Ser) (k : Nat) : Option Byte :=
  if u.s_busy then none
  else if u.s_undef && !(u.s_done && u.s_status == .OK && decide (k < u.s_txlen.toNat)) then none
  else Memory.read u.TXBUF k

/-- The byte of POUT the host may rely on at an offset (R43, R115, R171, R176, 93 U11). -/
def Par.hostPo (u : Par) (k : Nat) : Option Byte :=
  if u.p_busy then none
  else if u.p_undef && !(u.hasResult && u.p_kind == .LONG_FULL && decide (k < u.L.toNat)) then none
  else Memory.read u.POUT k

end Sys2Proof.Machine
end

