-- ==== Sys2Proof/Machine/Control.lean ====
section
/-! DEFINITION. The controls of the block (R139): the two start inputs (R131) and reset (R170). -/

namespace Sys2Proof.Machine

/-- START.SER: SER's start step, or nothing when SER is busy (R131, R94, R132). -/
def execStartSer (d : SerDesc) (s : State) : Host.Outcome State Fault Refusal :=
  .next { s with ser := s.ser.start d }

/-- START.PAR: PAR's start step, or nothing when PAR is busy (R131, R111, R132). -/
def execStartPar (d : ParDesc) (s : State) : Host.Outcome State Fault Refusal :=
  .next { s with par := s.par.start d }

/-- RESET: the reset step of both units; the buffers' contents and the host's own values stay
(R170, R171, R21). -/
def execReset (s : State) : Host.Outcome State Fault Refusal :=
  .next { s with ser := s.ser.resetStep, par := s.par.resetStep }

end Sys2Proof.Machine
end

