-- ==== Sys2Proof/Machine/Frame.lean ====
section
/-! DEFINITION. The rows of format HDR48: a wire frame arrives. The host's transport "fills RXBUF from
offset 0 upward in order of arrival" (R30, R130, decision D26), with the frame's bytes by R51. -/

namespace Sys2Proof.Machine

/-- FRAME.SHORT: the six bytes of a short frame arrive in RXBUF (R51, R35). -/
def execFrameShort (h : ShortHdr) (s : State) : Host.Outcome State Fault Refusal :=
  .next { s with par := s.par.hostFill 0 h.bytes }

/-- FRAME.LONG: the header and the payload bytes of a long frame arrive in RXBUF (R51, R35). -/
def execFrameLong (h : LongHdr) (payload : List Byte) (s : State) : Host.Outcome State Fault Refusal :=
  .next { s with par := s.par.hostFill 0 (h.bytes ++ payload) }

end Sys2Proof.Machine
end

