-- ==== Sys2Proof/Machine/Message.lean ====
section
/-! DEFINITION. The operations that exist at the transaction level only: CONSTRUCT as a call of its
own, and MSGEQ. They touch no unit and no buffer (R34); their caller gets the result. -/

namespace Sys2Proof.Machine

/-- What the caller of CONSTRUCT gets (R75). -/
def returnMessage : Except Status LogicalMessage → Returned
  | .ok m => .message m
  | .error e => .error e

/-- What the caller of MSGEQ gets (R120). -/
def returnTruth : Except Status Bool → Returned
  | .ok b => .truth b
  | .error e => .error e

/-- CONSTRUCT (R75). -/
def execConstruct (r : RawRequest) (s : State) : Host.Outcome State Fault Refusal :=
  .next { s with ret := returnMessage (Sys2Proof.Machine.construct r) }

/-- MSGEQ (R120, R121). -/
def execMsgeq (m1 m2 : LogicalMessage) (s : State) : Host.Outcome State Fault Refusal :=
  .next { s with ret := returnTruth (messagesEqual m1 m2) }

end Sys2Proof.Machine
end

