-- ==== Sys2Proof/Machine/Pack.lean ====
section
/-! DEFINITION. The serializer operations, each one SER operation from `start` to `done`: CONSTRUCT on
the descriptor, then PACK of its result (R81, R94, R134, R138). -/

namespace Sys2Proof.Machine

/-- One SER operation on a descriptor and the payload the host puts in PIN; PAR, its buffers and the
caller's last result stay. -/
def encodeOperation (d : SerDesc) (payload : List Byte) (s : State) : Host.Outcome State Fault Refusal :=
  .next { s with ser := s.ser.operation d payload }

/-- PACK.INLINE (R86, R89). -/
def execPackInline (hasP1 hasP2 : Bool) (f : SerFields) (s : State) : Host.Outcome State Fault Refusal :=
  encodeOperation (f.inlineDesc hasP1 hasP2) [] s

/-- PACK.EXT (R87, R88). -/
def execPackExt (f : SerFields) (payload : List Byte) (s : State) : Host.Outcome State Fault Refusal :=
  encodeOperation (f.payloadDesc false false) payload s

/-- CONSTRUCT.CONFLICT.P1: a payload and `param1` are both present, so the operation ends in
`InvalidConstruction` (R76, R81). -/
def execConstructConflictP1 (hasP2 : Bool) (f : SerFields) (payload : List Byte) (s : State) :
    Host.Outcome State Fault Refusal :=
  encodeOperation (f.payloadDesc true hasP2) payload s

/-- CONSTRUCT.CONFLICT.P2: a payload and `param2` are both present (R76, R81). -/
def execConstructConflictP2 (hasP1 : Bool) (f : SerFields) (payload : List Byte) (s : State) :
    Host.Outcome State Fault Refusal :=
  encodeOperation (f.payloadDesc hasP1 true) payload s

end Sys2Proof.Machine
end

