-- ==== Sys2Proof/Machine/Unpack.lean ====
section
/-! DEFINITION. The decode operations, each one PAR operation on the buffer handed to it, from `start`
to `done` (R100 to R108, R135, R138). -/

namespace Sys2Proof.Machine

/-- One PAR operation on a buffer; SER, its buffers and the caller's last result stay. -/
def decodeOperation (headerOnly : Bool) (buf : List Byte) (s : State) : Host.Outcome State Fault Refusal :=
  .next { s with par := s.par.operation headerOnly buf }

/-- UNPACK.SHORT (R103). -/
def execUnpackShort (h : ShortHdr) (rest : List Byte) (s : State) : Host.Outcome State Fault Refusal :=
  decodeOperation false (h.bytes ++ rest) s

/-- UNPACK.LONG (R104, R108). -/
def execUnpackLong (h : LongHdr) (rest : List Byte) (s : State) : Host.Outcome State Fault Refusal :=
  decodeOperation false (h.bytes ++ rest) s

/-- UNPACKH.SHORT (R106). -/
def execUnpackhShort (h : ShortHdr) (rest : List Byte) (s : State) : Host.Outcome State Fault Refusal :=
  decodeOperation true (h.bytes ++ rest) s

/-- UNPACKH.LONG (R107). -/
def execUnpackhLong (h : LongHdr) (rest : List Byte) (s : State) : Host.Outcome State Fault Refusal :=
  decodeOperation true (h.bytes ++ rest) s

/-- UNPACK.MALFORMED: decode of fewer than six bytes ends in `MalformedHeader` in either mode (R100, R146). -/
def execUnpackMalformed (headerOnly : Bool) (buf : List Byte) (s : State) : Host.Outcome State Fault Refusal :=
  decodeOperation headerOnly buf s

end Sys2Proof.Machine
end

