-- ==== Sys2Proof/Machine/Dispatch.lean ====
section
/-! DEFINITION. One arm per instruction: its meaning. -/

namespace Sys2Proof.Machine

def exec (i : Instr) (s : State) : Host.Outcome State Fault Refusal :=
  match i with
  | .frameShort h => Sys2Proof.Machine.execFrameShort h s
  | .frameLong h payload => Sys2Proof.Machine.execFrameLong h payload s
  | .unpackShort h rest => Sys2Proof.Machine.execUnpackShort h rest s
  | .unpackLong h rest => Sys2Proof.Machine.execUnpackLong h rest s
  | .unpackhShort h rest => Sys2Proof.Machine.execUnpackhShort h rest s
  | .unpackhLong h rest => Sys2Proof.Machine.execUnpackhLong h rest s
  | .unpackMalformed headerOnly buf => Sys2Proof.Machine.execUnpackMalformed headerOnly buf s
  | .packInline hasP1 hasP2 f => Sys2Proof.Machine.execPackInline hasP1 hasP2 f s
  | .packExt f payload => Sys2Proof.Machine.execPackExt f payload s
  | .constructConflictP1 hasP2 f payload => Sys2Proof.Machine.execConstructConflictP1 hasP2 f payload s
  | .constructConflictP2 hasP1 f payload => Sys2Proof.Machine.execConstructConflictP2 hasP1 f payload s
  | .construct r => Sys2Proof.Machine.execConstruct r s
  | .msgeq m1 m2 => Sys2Proof.Machine.execMsgeq m1 m2 s
  | .startSer d => Sys2Proof.Machine.execStartSer d s
  | .startPar d => Sys2Proof.Machine.execStartPar d s
  | .reset => Sys2Proof.Machine.execReset s

end Sys2Proof.Machine
end

