-- ==== Sys2Proof/Machine/Turns.lean ====
section
/-! DEFINITION. The moves of the three agents (R130): a unit's step, the clock on which both busy units
step, the host's writes to the input buffers, and fetching what the host presents. -/

namespace Sys2Proof.Machine

/-- SER takes its step (R134). -/
def State.serTurn (s : State) : State := { s with ser := s.ser.tick }

/-- PAR takes its step (R135). -/
def State.parTurn (s : State) : State := { s with par := s.par.tick }

/-- With no move to come, every busy unit takes its step: a busy unit is eventually stepped (R136). -/
def State.clock (s : State) : State := { s with ser := s.ser.tick, par := s.par.tick }

/-- The lengths an instruction declares are truthful (R179): a start that its unit takes declares no
more bytes than the host has placed. A busy unit does not look at its descriptor (R131). The other
rows carry their bytes, which the decoder has held against the declared length. -/
def lengthTruthful (i : Instr) (s : State) : Bool :=
  match i with
  | .startSer d => s.ser.s_busy || !d.d_has_pld || decide (d.fields.d_plen ≤ s.ser.PIN.placed)
  | .startPar d => s.par.p_busy || decide (d.p_avail_in ≤ s.par.RXBUF.placed)
  | .frameShort _ => true
  | .frameLong _ _ => true
  | .unpackShort _ _ => true
  | .unpackLong _ _ => true
  | .unpackhShort _ _ => true
  | .unpackhLong _ _ => true
  | .unpackMalformed _ _ => true
  | .packInline _ _ _ => true
  | .packExt _ _ => true
  | .constructConflictP1 _ _ _ => true
  | .constructConflictP2 _ _ _ => true
  | .construct _ => true
  | .msgeq _ _ => true
  | .reset => true

/-- What is presented is decoded and run (R64, R131), unless it declares a length that is not
truthful (R179). -/
def present (w : Presented) (s : State) : Host.Outcome State Fault Refusal :=
  match decode w with
  | .ok i => if lengthTruthful i s then exec i s else .refused .untruthfulLength
  | .error e => .refused (.undecodable e)

/-- One move of an agent (R130). -/
def turn (t : Turn) (s : State) : Host.Outcome State Fault Refusal :=
  match t with
  | .present w => present w s
  | .fillRx k bs => .next { s with par := s.par.hostFill k bs }
  | .fillPin k bs => .next { s with ser := s.ser.hostFill k bs }
  | .ser => .next s.serTurn
  | .par => .next s.parTurn

/-- The first of the moves to come, and the state from which it is made; with none to come, the
clock (R130, R136). -/
def stepTurn (s : State) : Host.Outcome State Fault Refusal :=
  match s.inputs with
  | [] => .next s.clock
  | t :: rest => turn t { s with inputs := rest }

/-- The word of the opcode table presented as the next move. -/
def State.presentNext (s : State) (nbits w : Nat) : State :=
  { s with inputs := .present (presentedOfTableWord nbits w) :: s.inputs }

end Sys2Proof.Machine
end

