-- ==== Sys2Proof/Machine/Step.lean ====
section
/-! DEFINITION. One step of the machine, and where the next instruction is placed. -/

namespace Sys2Proof.Machine

/-- One step: the next move of an agent (R130). -/
def step (s : State) : Host.Outcome State Fault Refusal := stepTurn s

/-- The state in which the very next step runs the instruction of a word of the opcode table. -/
def State.withFetchWord (s : State) (nbits w : Nat) : State := s.presentNext nbits w

end Sys2Proof.Machine
end

