-- ==== Sys2Proof/Safety.lean ====
section
/-! DEFINITION. What a legal state is (an invariant of every step), when a run is over (R141), and the
vocabulary that claims about runs use. -/

namespace Sys2Proof.Machine

/-- SER holds a frame that it is writing, or has written without error. -/
def Ser.live (u : Ser) : Bool := u.s_busy || (u.s_done && u.s_status == .OK)

/-- The legal states of SER. -/
structure Ser.Inv (u : Ser) : Prop where
  pin_wf : Memory.wf u.PIN
  txbuf_wf : Memory.wf u.TXBUF
  /-- "A counter never wraps" (R16) -/
  cnt_le : u.s_cnt.toNat ≤ Config.frameMax
  /-- the rows of R134 for S_HDR -/
  header : u.s_state = .S_HDR → u.s_cnt.toNat < 6
  /-- the rows of R134 for S_BODY -/
  body : u.s_state = .S_BODY → u.s_ext = true ∧ 0 < u.s_n.toNat ∧ 6 ≤ u.s_cnt.toNat ∧ u.s_cnt.toNat < 6 + u.s_n.toNat
  /-- `s_n` is 0 for Inline (R18) -/
  inline_n : u.live = true → u.s_ext = false → u.s_n = 0
  /-- the header's flag is the body's variant (R57) -/
  flag : u.live = true → long u.s_h[4] = u.s_ext
  /-- the legal values of `s_status` (R18) -/
  status : u.s_status = .OK ∨ u.s_status = .InvalidConstruction ∨ u.s_status = .PayloadTooLarge ∨
    u.s_status = .DestFlagViolation
  /-- `s_txlen` is 0 on error (R18) -/
  failed : u.s_status ≠ .OK → u.s_txlen = 0
  /-- `s_txlen` is the frame's length on success (R18, R97) -/
  succeeded : u.s_state = .S_DONE → u.s_status = .OK → u.s_txlen.toNat = 6 + u.s_n.toNat ∧ u.s_cnt = u.s_txlen
  /-- the header bytes passed so far stand in TXBUF (R95) -/
  header_written : u.live = true → ∀ k (h : k < 6), k < u.s_cnt.toNat → Memory.read u.TXBUF k = some u.s_h[k]
  /-- every offset passed so far has been written (R36) -/
  written : u.live = true → ∀ k, k < u.s_cnt.toNat → (Memory.read u.TXBUF k).isSome = true
  /-- the host has written every payload byte of the operation (R179) -/
  placed : u.s_busy = true → ∀ k, k < u.s_n.toNat → (Memory.read u.PIN k).isSome = true

/-- The legal states of PAR. -/
structure Par.Inv (u : Par) : Prop where
  rxbuf_wf : Memory.wf u.RXBUF
  pout_wf : Memory.wf u.POUT
  /-- "A counter never wraps" (R16) -/
  cnt_le : u.p_cnt.toNat ≤ Config.frameMax
  /-- `p_avail` has `AVAIL_W` bits (R18) -/
  avail_lt : u.p_avail < 2 ^ Config.availW
  /-- the rows of R135 for P_HDR -/
  header : u.p_state = .P_HDR → u.p_cnt.toNat < 6 ∧ 6 ≤ u.p_avail
  /-- the rows of R135 for P_BODY -/
  body : u.p_state = .P_BODY → u.long = true ∧ u.p_hdronly = false ∧ 0 < u.L.toNat ∧ 6 + u.L.toNat ≤ u.p_avail ∧
    6 ≤ u.p_cnt.toNat ∧ u.p_cnt.toNat < 6 + u.L.toNat
  /-- the legal values of `p_status` (R18) -/
  status : u.p_status = .OK ∨ u.p_status = .MalformedHeader ∨ u.p_status = .TruncatedPayload
  /-- `p_kind` and `p_consumed` are 0 on error (R18, R150) -/
  failed : u.p_status ≠ .OK → u.p_kind = .NONE ∧ u.p_consumed = 0
  /-- a successful operation has a result (R70) -/
  succeeded : u.p_state = .P_DONE → u.p_status = .OK → u.p_kind ≠ .NONE
  /-- kind SHORT (R113) -/
  short : u.p_state = .P_DONE → u.p_kind = .SHORT → u.long = false ∧ u.p_consumed = 6
  /-- kind LONG_HDR (R113) -/
  long_hdr : u.p_state = .P_DONE → u.p_kind = .LONG_HDR → u.long = true ∧ u.p_hdronly = true ∧ u.p_consumed = 6
  /-- kind LONG_FULL (R113, R114) -/
  long_full : u.p_state = .P_DONE → u.p_kind = .LONG_FULL → u.long = true ∧ u.p_hdronly = false ∧
    u.p_consumed.toNat = 6 + u.L.toNat ∧ 6 + u.L.toNat ≤ u.p_avail ∧
    ∀ k, k < u.L.toNat → (Memory.read u.POUT k).isSome = true
  /-- every payload byte passed so far stands in POUT (R114) -/
  written : u.p_state = .P_BODY → ∀ k, k + 6 < u.p_cnt.toNat → (Memory.read u.POUT k).isSome = true
  /-- the host has written every byte that the operation was told of (R179) -/
  placed : u.p_busy = true → ∀ k, k < u.p_avail → (Memory.read u.RXBUF k).isSome = true

/-- The legal states of the machine. -/
structure State.Inv (s : State) : Prop where
  ser : s.ser.Inv
  par : s.par.Inv

/-- A move that the spec gives the host in a state: what it presents decodes, and declares no length
that is not truthful there (R64, R179). -/
def Turn.legal (t : Turn) (s : State) : Bool :=
  match t with
  | .present w =>
    match decode w with
    | .ok i => lengthTruthful i s
    | .error _ => false
  | .fillRx _ _ => true
  | .fillPin _ _ => true
  | .ser => true
  | .par => true

/-- The next move, if there is one, is one that the spec gives the host. -/
def State.nextLegal (s : State) : Bool :=
  match s.inputs with
  | [] => true
  | t :: rest => t.legal { s with inputs := rest }

/-- The moves are steps of the units alone, in any interleaving (R38). -/
def unitTurns (ts : List Turn) : Bool := ts.all fun t => t == .ser || t == .par

/-- The instruction presents a start to SER (R131). -/
def startsSer : Instr → Bool
  | .frameShort _ => false
  | .frameLong _ _ => false
  | .unpackShort _ _ => false
  | .unpackLong _ _ => false
  | .unpackhShort _ _ => false
  | .unpackhLong _ _ => false
  | .unpackMalformed _ _ => false
  | .packInline _ _ _ => true
  | .packExt _ _ => true
  | .constructConflictP1 _ _ _ => true
  | .constructConflictP2 _ _ _ => true
  | .construct _ => false
  | .msgeq _ _ => false
  | .startSer _ => true
  | .startPar _ => false
  | .reset => false

/-- The instruction presents a start to PAR (R131). -/
def startsPar : Instr → Bool
  | .frameShort _ => false
  | .frameLong _ _ => false
  | .unpackShort _ _ => true
  | .unpackLong _ _ => true
  | .unpackhShort _ _ => true
  | .unpackhLong _ _ => true
  | .unpackMalformed _ _ => true
  | .packInline _ _ _ => false
  | .packExt _ _ => false
  | .constructConflictP1 _ _ _ => false
  | .constructConflictP2 _ _ _ => false
  | .construct _ => false
  | .msgeq _ _ => false
  | .startSer _ => false
  | .startPar _ => true
  | .reset => false

/-- The move presents a start to SER or to PAR (R131). -/
def Turn.presentsStart : Turn → Bool
  | .present w =>
    match decode w with
    | .ok i => startsSer i || startsPar i
    | .error _ => false
  | .fillRx _ _ => false
  | .fillPin _ _ => false
  | .ser => false
  | .par => false

/-- The run is over: both units are not busy and no move to come presents a further start (R141). -/
def State.over (s : State) : Bool :=
  !s.ser.s_busy && !s.par.p_busy && !s.inputs.any Turn.presentsStart

end Sys2Proof.Machine
end

