-- ==== Sys2Proof/Certificates/Slice0/Obligations.lean ====
section
/-! DEFINITION. What is to be proved of the model: the rules of the spec as statements about it. -/

open Sys2Proof Sys2Proof.Machine

/-! ## Reset -/

/-- What R21's table gives a value for, in the state after reset. (That no buffer byte is written and
no move is to come is the model's form of "not part of the block", notes/assumptions/5.md.) -/
def Obligations.ResetStateHasTheValuesOfTheTable : Prop :=
  State.reset.ser.s_state = .S_IDLE ∧ State.reset.par.p_state = .P_IDLE ∧
  State.reset.ser.s_cnt = 0 ∧ State.reset.par.p_cnt = 0 ∧
  State.reset.ser.s_status = .OK ∧ State.reset.par.p_status = .OK ∧
  State.reset.par.p_kind = .NONE ∧ State.reset.ser.s_txlen = 0 ∧ State.reset.par.p_consumed = 0 ∧
  State.reset.ser.s_busy = false ∧ State.reset.ser.s_done = false ∧
  State.reset.par.p_busy = false ∧ State.reset.par.p_done = false

/-- R170, R171: the reset step completes from every state, with the values of R21, both `busy` and both
`done` 0, and every buffer as it was. Nothing is said of the holding registers, which become
unspecified. -/
def Obligations.ResetStepIdlesBothUnits : Prop :=
  ∀ s : State, ∃ t, exec .reset s = .next t ∧
    t.ser.s_state = .S_IDLE ∧ t.par.p_state = .P_IDLE ∧ t.ser.s_cnt = 0 ∧ t.par.p_cnt = 0 ∧
    t.ser.s_status = .OK ∧ t.par.p_status = .OK ∧ t.par.p_kind = .NONE ∧
    t.ser.s_txlen = 0 ∧ t.par.p_consumed = 0 ∧
    t.ser.s_busy = false ∧ t.ser.s_done = false ∧ t.par.p_busy = false ∧ t.par.p_done = false ∧
    t.ser.PIN = s.ser.PIN ∧ t.ser.TXBUF = s.ser.TXBUF ∧ t.par.RXBUF = s.par.RXBUF ∧ t.par.POUT = s.par.POUT ∧
    t.ret = s.ret ∧ t.inputs = s.inputs

/-- R171: a reset while a unit is busy abandons its operation: no response is produced, the output
buffer holds what was written so far, and the host may rely on no byte of it. -/
def Obligations.ResetAbandonsTheOperation : Prop :=
  ∀ s t : State, exec .reset s = .next t →
    (s.ser.s_busy = true → t.ser.s_state = .S_IDLE ∧ t.ser.response = none ∧ (∀ k, Memory.read t.ser.TXBUF k = Memory.read s.ser.TXBUF k) ∧
      ∀ k, t.ser.hostTx k = none) ∧
    (s.par.p_busy = true → t.par.p_state = .P_IDLE ∧ t.par.response = none ∧ (∀ k, Memory.read t.par.POUT k = Memory.read s.par.POUT k) ∧
      ∀ k, t.par.hostPo k = none)

/-! ## Decoding and stepping -/

/-- Decoding what is presented for a well-formed instruction gives the instruction back, with every
operand at every value (R51, R60, R61, R64). -/
def Obligations.DecodeOfEncodeIsTheInstruction : Prop :=
  ∀ i : Instr, i.wellFormed = true → decode (encode i) = .ok i

/-- What decodes gives a well-formed instruction, which encodes back to what was presented. (That
`S` = 0b111, where the two CONSTRUCT.CONFLICT rows of R64 overlap, is CONSTRUCT.CONFLICT.P1's is
notes/assumptions/9.md.) -/
def Obligations.EncodeOfDecodeIsTheWord : Prop :=
  ∀ (w : Presented) (i : Instr), decode w = .ok i → i.wellFormed = true ∧ encode i = w

/-- R64: within one format the rows are disjoint, except that the two CONSTRUCT.CONFLICT rows overlap at
`S = 0b111`. Every value of each format is selected by some row. -/
def Obligations.RowsOfOneFormatAreDisjoint : Prop :=
  (∀ H : BitVec 48, (rowFrameShort.selects H ^^ rowFrameLong.selects H) = true) ∧
  (∀ P : BitVec 49, ([rowUnpackShort, rowUnpackLong, rowUnpackhShort, rowUnpackhLong].filter (·.selects P)).length = 1) ∧
  (∀ S : BitVec 3, ([rowPackInline, rowPackExt, rowConflictP1, rowConflictP2].filter (·.selects S)).length =
    if S = 7 then 2 else 1)

/-- Words written out by hand from the spec's encodings: the examples of R52, the selectors of R60 and
R61. (That a table word stands for a payload of zero bytes is notes/assumptions/10.md.) -/
def Obligations.WordsOfTheSpecDecode : Prop :=
  decode (.frame [0x11, 0x02, 0x01, 0x00, 0x50, 0x01]) = .ok (.frameShort ⟨0x0211, 1, 0, 0x50, 1⟩) ∧
  decode (.frame [0x23, 0x02, 0x05, 0x00, 0xD0, 0x01, 1, 2, 3, 4, 5]) =
    .ok (.frameLong ⟨0x0223, 5, 0x50, 1⟩ [1, 2, 3, 4, 5]) ∧
  decodeTableWord 48 0x015000010211 = some (.frameShort ⟨0x0211, 1, 0, 0x50, 1⟩) ∧
  decodeTableWord 48 0x01D000050223 = some (.frameLong ⟨0x0223, 5, 0x50, 1⟩ [0, 0, 0, 0, 0]) ∧
  decodeTableWord 56 0x015000010211 = some (.unpackShort ⟨0x0211, 1, 0, 0x50, 1⟩ []) ∧
  decodeTableWord 56 0x01D000050223 = some (.unpackLong ⟨0x0223, 5, 0x50, 1⟩ []) ∧
  decodeTableWord 56 0x1015000010211 = some (.unpackhShort ⟨0x0211, 1, 0, 0x50, 1⟩ []) ∧
  decodeTableWord 56 0x1508100040006 = some (.unpackhLong ⟨0x0006, 4, 0x01, 0x50⟩ []) ∧
  decode (.parse true [1, 2, 3, 4, 5]) = .ok (.unpackMalformed true [1, 2, 3, 4, 5]) ∧
  decodeTableWord 8 3 = some (.packInline true true .zero) ∧
  decodeTableWord 8 4 = some (.packExt .zero []) ∧
  decodeTableWord 8 6 = some (.constructConflictP1 false .zero []) ∧
  decodeTableWord 8 5 = some (.constructConflictP2 false .zero [])

/-- A step runs the instruction that the next move presents, from the state with that move taken away.
What is no instruction is refused by name, and so is a start that a unit would take and that declares more
input bytes than the host has placed from offset 0 (R179). (The refusals are the model's choice,
notes/assumptions/20.md and 21.md; the queue of moves is notes/assumptions/11.md.) -/
def Obligations.StepRunsThePresentedInstruction : Prop :=
  ∀ (s : State) (w : Presented) (rest : List Turn), s.inputs = .present w :: rest →
    (∀ i, decode w = .ok i → lengthTruthful i s = true → step s = exec i { s with inputs := rest }) ∧
    (∀ i, decode w = .ok i → lengthTruthful i s = false → step s = .refused .untruthfulLength) ∧
    (∀ d, Memory.wf s.ser.PIN → (lengthTruthful (.startSer d) s = false ↔
      s.ser.s_busy = false ∧ d.d_has_pld = true ∧ ∃ k, k < d.fields.d_plen ∧ Memory.read s.ser.PIN k = none)) ∧
    (∀ d, Memory.wf s.par.RXBUF → (lengthTruthful (.startPar d) s = false ↔
      s.par.p_busy = false ∧ ∃ k, k < d.p_avail_in ∧ Memory.read s.par.RXBUF k = none)) ∧
    (∀ i, (∀ d, i ≠ .startSer d) → (∀ d, i ≠ .startPar d) → lengthTruthful i s = true) ∧
    (∀ e, decode w = .error e → step s = .refused (.undecodable e))

/-- R130: the other moves. A unit's turn is a step of that unit and of nothing else; the host's writes
reach the input buffers (and no other byte), and while the reading unit is busy they are a breach, which
is marked (93 U4, notes/assumptions/6.md); with no move to come both units step (the queue of moves is
notes/assumptions/11.md). -/
def Obligations.StepTakesTheNextMove : Prop :=
  ∀ (s : State) (rest : List Turn),
    (s.inputs = .ser :: rest → step s = .next { s with ser := s.ser.tick, inputs := rest }) ∧
    (s.inputs = .par :: rest → step s = .next { s with par := s.par.tick, inputs := rest }) ∧
    (s.inputs = [] → step s = .next { s with ser := s.ser.tick, par := s.par.tick }) ∧
    (∀ k bs, s.inputs = .fillRx k bs :: rest → ∃ t, step s = .next t ∧
      t = { s with inputs := rest, par := { s.par with RXBUF := t.par.RXBUF, p_torn := s.par.p_torn || (s.par.p_busy && !bs.isEmpty) } } ∧
      ∀ j, Memory.read t.par.RXBUF j = if k ≤ j ∧ j < k + bs.length then bs[j - k]? else Memory.read s.par.RXBUF j) ∧
    (∀ k bs, s.inputs = .fillPin k bs :: rest → ∃ t, step s = .next t ∧
      t = { s with inputs := rest, ser := { s.ser with PIN := t.ser.PIN, s_torn := s.ser.s_torn || (s.ser.s_busy && !bs.isEmpty) } } ∧
      ∀ j, Memory.read t.ser.PIN j = if k ≤ j ∧ j < k + bs.length then bs[j - k]? else Memory.read s.ser.PIN j)

/-! ## The invariant -/

/-- The state after reset is legal. -/
def Obligations.ResetStateIsLegal : Prop := State.reset.Inv

/-- Every step of a legal state leads to a legal state. -/
def Obligations.EveryStepKeepsStatesLegal : Prop :=
  ∀ s t : State, s.Inv → step s = .next t → t.Inv

/-- A step stops exactly at a move the spec does not give the host, and a run in which every move is one
the spec gives the host never stops (R141: no hang and no stuck state). -/
def Obligations.LegalRunsNeverStop : Prop :=
  (∀ s : State, s.nextLegal = true ↔ ∃ t, step s = .next t) ∧
  ∀ (n : Nat) (s : State),
    (∀ (m : Nat) (t : State), m < n → Sys2Proof.core.run m s = .next t → t.nextLegal = true) →
    ∃ t, Sys2Proof.core.run n s = .next t

/-- R136: with no further move to come, both units end: from every legal state the run is over within
65541 steps. (That a step with no move to come steps both units is notes/assumptions/11.md.) -/
def Obligations.QuietRunsAreOverWithinTheLongestFrame : Prop :=
  ∀ s : State, s.Inv → s.inputs = [] → ∃ t : State, Sys2Proof.core.run 65541 s = .next t ∧ t.over = true

/-- R136: a step of a busy unit counts one byte, the counter stays within the frame, and the unit ends with
its frame: SER and a PAR that copies a payload at its last byte, PAR's header phase at byte 6. -/
def Obligations.BusyStepsCountOneByte : Prop :=
  ∀ s : State, s.Inv →
    (s.ser.s_busy = true → s.ser.tick.s_cnt.toNat = s.ser.s_cnt.toNat + 1 ∧
      s.ser.tick.s_cnt.toNat ≤ 6 + s.ser.s_n.toNat ∧
      (s.ser.tick.s_busy = false ↔ s.ser.tick.s_cnt.toNat = 6 + s.ser.s_n.toNat)) ∧
    (s.par.p_busy = true → s.par.tick.p_cnt.toNat = s.par.p_cnt.toNat + 1 ∧
      (s.par.tick.p_busy = false → s.par.tick.p_done = true) ∧
      (s.par.p_state = .P_HDR → s.par.tick.p_cnt.toNat ≤ 6 ∧
        (s.par.tick.p_state ≠ .P_HDR ↔ s.par.tick.p_cnt.toNat = 6)) ∧
      (s.par.p_state = .P_BODY → s.par.tick.p_cnt.toNat ≤ 6 + s.par.L.toNat ∧
        (s.par.tick.p_busy = false ↔ s.par.tick.p_cnt.toNat = 6 + s.par.L.toNat)))

/-- R38: in any interleaving of their steps, each unit ends up as if its own steps had been taken
alone. -/
def Obligations.UnitsStepIndependently : Prop :=
  ∀ (s : State) (ts : List Turn), unitTurns ts = true → s.inputs = ts →
    Sys2Proof.core.run ts.length s =
      .next { s with ser := Ser.tick^[ts.count .ser] s.ser, par := Par.tick^[ts.count .par] s.par, inputs := [] }

/-- R133: a unit in DONE keeps its response through every step but one that presents a start to it or a
reset. -/
def Obligations.ResponseIsHeldUntilTheNextStart : Prop :=
  ∀ s t : State, step s = .next t →
    (s.ser.s_done = true →
      (∀ w rest i, s.inputs = .present w :: rest → decode w = .ok i → startsSer i = false ∧ i ≠ .reset) →
      t.ser.s_done = true ∧ t.ser.response = s.ser.response ∧ t.ser = { s.ser with PIN := t.ser.PIN }) ∧
    (s.par.p_done = true →
      (∀ w rest i, s.inputs = .present w :: rest → decode w = .ok i → startsPar i = false ∧ i ≠ .reset) →
      t.par.p_done = true ∧ t.par.response = s.par.response ∧ t.par = { s.par with RXBUF := t.par.RXBUF })

/-- R132: what presents a start to a busy unit "starts nothing, changes nothing". (That a PACK, UNPACK or
CONFLICT row presented to a busy unit leaves PIN or RXBUF unwritten too is notes/assumptions/7.md.) -/
def Obligations.StartToABusyUnitIsIgnored : Prop :=
  ∀ (i : Instr) (s : State),
    (startsSer i = true → s.ser.s_busy = true → exec i s = .next s) ∧
    (startsPar i = true → s.par.p_busy = true → exec i s = .next s)

/-! ## CONSTRUCT -/

/-- R76: any parameter together with any payload is refused, whatever their values. -/
def Obligations.ConstructRefusesAParameterWithAPayload : Prop :=
  ∀ (r : RawRequest) (s : State), (r.param1 ≠ none ∨ r.param2 ≠ none) → r.payload ≠ none →
    exec (.construct r) s = .next { s with ret := .error .InvalidConstruction }

/-- R77: a value out of its range is refused, never reduced. -/
def Obligations.ConstructRefusesValuesOutOfRange : Prop :=
  ∀ (r : RawRequest) (s : State),
    (¬ (0 ≤ r.opcode ∧ r.opcode ≤ 65535) ∨
      (∃ v, (r.param1 = some v ∨ r.param2 = some v ∨ r.dest = some v ∨ r.src = some v) ∧ ¬ (0 ≤ v ∧ v ≤ 255)) ∨
      (∃ l, r.payload = some l ∧ ∃ e ∈ l, ¬ (0 ≤ e ∧ e ≤ 255))) →
    exec (.construct r) s = .next { s with ret := .error .InvalidConstruction }

/-- R75, R78, R79, R80, R83: every other request is accepted, and the message has the values supplied,
the defaults, zero for a parameter left out, and an Extended body exactly when a payload is present. -/
def Obligations.ConstructBuildsTheMessage : Prop :=
  ∀ (r : RawRequest) (s : State),
    ¬ ((r.param1 ≠ none ∨ r.param2 ≠ none) ∧ r.payload ≠ none) →
    0 ≤ r.opcode → r.opcode ≤ 65535 →
    (∀ v, (r.param1 = some v ∨ r.param2 = some v ∨ r.dest = some v ∨ r.src = some v) → 0 ≤ v ∧ v ≤ 255) →
    (∀ l, r.payload = some l → ∀ e ∈ l, 0 ≤ e ∧ e ≤ 255) →
    ∃ m : LogicalMessage, exec (.construct r) s = .next { s with ret := .message m } ∧
      (m.opcode.toNat : Int) = r.opcode ∧
      (match r.dest with
        | some v => (m.dest.toNat : Int) = v
        | none => m.dest = Config.defaultDest) ∧
      (match r.src with
        | some v => (m.src.toNat : Int) = v
        | none => m.src = Config.defaultSrc) ∧
      (match m.body with
        | .extended bytes => r.payload = some (bytes.map fun b => (b.toNat : Int))
        | .inlineParams p1 p2 => r.payload = none ∧ (p1.toNat : Int) = r.param1.getD 0 ∧ (p2.toNat : Int) = r.param2.getD 0)

/-! ## PACK, UNPACK and MSGEQ at the transaction level -/

/-- R55, R56, R57: field assembly and its inverse. -/
def Obligations.FieldAssemblyIsInvertible : Prop :=
  (∀ a b : Byte, (le16 a b).toNat = a.toNat + 256 * b.toNat ∧ lo8 (le16 a b) = a ∧ hi8 (le16 a b) = b) ∧
  (∀ v : U16, le16 (lo8 v) (hi8 v) = v ∧ (lo8 v).toNat = v.toNat % 256 ∧ (hi8 v).toNat = v.toNat / 256) ∧
  (∀ d : Byte, clearLong (setLong d) = clearLong d ∧ setLong (setLong d) = setLong d ∧ long (setLong d) = true)

/-- R86, R89: PACK of an Inline message. -/
def Obligations.PackOfAnInlineMessage : Prop :=
  ∀ (m : LogicalMessage) (p1 p2 : Byte), m.body = .inlineParams p1 p2 →
    (m.dest.getLsbD 7 = true → pack m = .error .DestFlagViolation) ∧
    (m.dest.getLsbD 7 = false → pack m = .ok [lo8 m.opcode, hi8 m.opcode, p1, p2, m.dest, m.src])

/-- R87, R88: PACK of an Extended message. -/
def Obligations.PackOfAnExtendedMessage : Prop :=
  ∀ (m : LogicalMessage) (bytes : List Byte), m.body = .extended bytes →
    (65535 < bytes.length → pack m = .error .PayloadTooLarge) ∧
    (bytes.length ≤ 65535 → ∃ lo hi : Byte, lo.toNat + 256 * hi.toNat = bytes.length ∧
      pack m = .ok ([lo8 m.opcode, hi8 m.opcode, lo, hi, m.dest ||| 0x80, m.src] ++ bytes))

/-- R92, R93: bit 7 of an Extended message's destination makes no difference to its frame; an empty
Extended body and two zero parameters give different frames. -/
def Obligations.FrameFlagTellsTheBodiesApart : Prop :=
  ∀ (op : U16) (d src : Byte) (bytes : List Byte),
    pack ⟨op, d ||| 0x80, src, .extended bytes⟩ = pack ⟨op, d, src, .extended bytes⟩ ∧
    pack ⟨op, d, src, .extended []⟩ ≠ pack ⟨op, d, src, .inlineParams 0 0⟩

/-- R100, R146: fewer than six bytes are refused in either mode. -/
def Obligations.UnpackRefusesFewerThanSixBytes : Prop :=
  ∀ (buf : List Byte) (headerOnly : Bool), unpack buf headerOnly = .error .MalformedHeader ↔ buf.length < 6

/-- R62, R108, R116: every header is legal; with six bytes the one failure is a long frame that is cut
short, and only in a full decode. -/
def Obligations.TruncationIsTheOnlyOtherFailure : Prop :=
  ∀ (b0 b1 b2 b3 b4 b5 : Byte) (rest : List Byte) (headerOnly : Bool) (e : Status),
    unpack (b0 :: b1 :: b2 :: b3 :: b4 :: b5 :: rest) headerOnly = .error e ↔
      (e = .TruncatedPayload ∧ headerOnly = false ∧ b4.getLsbD 7 = true ∧ rest.length < b2.toNat + 256 * b3.toNat)

/-- R123: PACK then UNPACK. -/
def Obligations.UnpackOfPackGivesTheMessageBack : Prop :=
  ∀ (m : LogicalMessage) (f t : List Byte), pack m = .ok f →
    match m.body with
    | .inlineParams _ _ =>
      unpack (f ++ t) false = .ok (.short m 6) ∧ unpack (f ++ t) true = .ok (.short m 6) ∧ messagesEqual m m = .ok true
    | .extended bytes =>
      (∃ n : U16, n.toNat = bytes.length ∧ unpack (f ++ t) true = .ok (.longHeader m.opcode (m.dest ||| 0x80) m.src n 6)) ∧
      unpack (f ++ t) false = .ok (.longFull { m with dest := m.dest &&& 0x7F } (6 + bytes.length)) ∧
      messagesEqual { m with dest := m.dest &&& 0x7F } m = .ok true ∧
      (m.dest.getLsbD 7 = false → { m with dest := m.dest &&& 0x7F } = m)

/-- R124: UNPACK then PACK. -/
def Obligations.PackOfUnpackGivesTheBytesBack : Prop :=
  ∀ (buf : List Byte) (m : LogicalMessage) (c : Nat),
    (unpack buf false = .ok (.short m c) ∨ unpack buf false = .ok (.longFull m c)) → pack m = .ok (buf.take c)

/-- R178, R72: decoding the header first and then the whole frame gives what decoding the whole gives. -/
def Obligations.HeaderFirstThenWholeFrame : Prop := ∀ stream : List Byte, recv stream = unpack stream false

/-- R58: the length that six bytes tell is what a full decode consumes, and a full decode succeeds exactly
when that many bytes are there. -/
def Obligations.FrameLengthIsWhatDecodeConsumes : Prop :=
  ∀ (b0 b1 b2 b3 b4 b5 : Byte) (rest : List Byte),
    let buf := b0 :: b1 :: b2 :: b3 :: b4 :: b5 :: rest
    (∀ r, unpack buf false = .ok r → consumedOf r = frameLength b2 b3 b4) ∧
    (frameLength b2 b3 b4 ≤ buf.length ↔ ∃ r, unpack buf false = .ok r)

/-- R126: MSGEQ is an equivalence relation on the messages PACK accepts. -/
def Obligations.MsgeqIsAnEquivalence : Prop :=
  ∀ (m1 m2 m3 : LogicalMessage) (f1 f2 f3 : List Byte), pack m1 = .ok f1 → pack m2 = .ok f2 → pack m3 = .ok f3 →
    messagesEqual m1 m1 = .ok true ∧
    (messagesEqual m1 m2 = .ok true → messagesEqual m2 m1 = .ok true) ∧
    (messagesEqual m1 m2 = .ok true → messagesEqual m2 m3 = .ok true → messagesEqual m1 m3 = .ok true)

/-- R120, R121: MSGEQ compares the frames, and ends with the first operand's error, then the second's. -/
def Obligations.MsgeqComparesFrames : Prop :=
  ∀ (m1 m2 : LogicalMessage) (s : State),
    (∀ e, pack m1 = .error e → exec (.msgeq m1 m2) s = .next { s with ret := .error e }) ∧
    (∀ f1 e, pack m1 = .ok f1 → pack m2 = .error e → exec (.msgeq m1 m2) s = .next { s with ret := .error e }) ∧
    (∀ f1 f2, pack m1 = .ok f1 → pack m2 = .ok f2 →
      exec (.msgeq m1 m2) s = .next { s with ret := .truth (decide (f1 = f2)) })

/-- R125: when two messages that PACK accepts are equal; and a parameter left out makes the same message as
one that is zero. -/
def Obligations.MsgeqIsFieldEqualityUpToTheFlag : Prop :=
  (∀ (m1 m2 : LogicalMessage) (f1 f2 : List Byte), pack m1 = .ok f1 → pack m2 = .ok f2 →
    (messagesEqual m1 m2 = .ok true ↔
      m1.opcode = m2.opcode ∧ m1.src = m2.src ∧
      match m1.body, m2.body with
      | .inlineParams a b, .inlineParams c d => m1.dest = m2.dest ∧ a = c ∧ b = d
      | .extended x, .extended y => m1.dest &&& 0x7F = m2.dest &&& 0x7F ∧ x = y
      | .inlineParams _ _, .extended _ => False
      | .extended _, .inlineParams _ _ => False)) ∧
  (∀ r : RawRequest, r.payload = none →
    Machine.construct { r with param1 := some (r.param1.getD 0), param2 := some (r.param2.getD 0) } =
      Machine.construct r)

/-- R127: MSGEQ by two runs of SER, one after the other, and a comparison of the two frames. -/
def Obligations.MsgeqByTwoSerializerRuns : Prop :=
  ∀ (u : Ser) (m1 m2 : LogicalMessage), u.s_busy = false →
    let v := u.operation (messageDesc m1) (messagePayload m1)
    let w := v.operation (messageDesc m2) (messagePayload m2)
    messagesEqual m1 m2 =
      match v.response, w.response with
      | some (.error e), _ => .error e
      | some (.ok _), some (.error e) => .error e
      | some (.ok f1), some (.ok f2) => .ok (f1 == f2)
      | none, _ => .error .OK
      | some (.ok _), none => .error .OK

/-! ## The serializer -/

/-- R94 (with R153, R154): the start step of SER. A check that fails ends the operation there with its
code, in the order of the rule, and nothing else changes but the descriptor and the mark of a breach
(that a refused start latches the one and lowers the other is notes/assumptions/14.md); else the header of
the frame is latched. -/
def Obligations.SerStartStep : Prop :=
  ∀ (d : SerDesc) (s : State), s.ser.s_busy = false →
    let refused (e : Status) : State :=
      { s with ser := { s.ser with
          s_desc := d, s_torn := false, s_status := e, s_txlen := 0, s_state := .S_DONE } }
    let dest : Byte := if d.fields.d_has_dest then d.fields.d_dest else Config.defaultDest
    let src : Byte := if d.fields.d_has_src then d.fields.d_src else Config.defaultSrc
    (d.d_has_pld = true → (d.d_has_p1 = true ∨ d.d_has_p2 = true) →
      exec (.startSer d) s = .next (refused .InvalidConstruction)) ∧
    (d.d_has_pld = true → d.d_has_p1 = false → d.d_has_p2 = false → 65535 < d.fields.d_plen →
      exec (.startSer d) s = .next (refused .PayloadTooLarge)) ∧
    (d.d_has_pld = false → dest.getLsbD 7 = true → exec (.startSer d) s = .next (refused .DestFlagViolation)) ∧
    (d.d_has_pld = false → dest.getLsbD 7 = false →
      exec (.startSer d) s = .next { s with ser := { s.ser with
        s_desc := d, s_torn := false, s_ext := false, s_n := 0, s_cnt := 0, s_state := .S_HDR
        s_h := #v[lo8 d.fields.d_opcode, hi8 d.fields.d_opcode, if d.d_has_p1 then d.fields.d_p1 else 0,
          if d.d_has_p2 then d.fields.d_p2 else 0, dest, src] } }) ∧
    (d.d_has_pld = true → d.d_has_p1 = false → d.d_has_p2 = false → ∀ n : U16, n.toNat = d.fields.d_plen →
      exec (.startSer d) s = .next { s with ser := { s.ser with
        s_desc := d, s_torn := false, s_ext := true, s_n := n, s_cnt := 0, s_state := .S_HDR
        s_h := #v[lo8 d.fields.d_opcode, hi8 d.fields.d_opcode, lo8 n, hi8 n, dest ||| 0x80, src] } })

/-- R95: the header step of SER, as a step of the machine. -/
def Obligations.SerHeaderStepWritesOneByte : Prop :=
  ∀ (s : State) (rest : List Turn) (h : s.ser.s_cnt.toNat < 6), s.inputs = .ser :: rest → s.ser.s_state = .S_HDR →
    ∃ t, step s = .next t ∧
      (∀ k, Memory.read t.ser.TXBUF k =
        if k = s.ser.s_cnt.toNat then some s.ser.s_h[s.ser.s_cnt.toNat] else Memory.read s.ser.TXBUF k) ∧
      t = { s with inputs := rest, ser := { s.ser with
        TXBUF := t.ser.TXBUF, s_cnt := t.ser.s_cnt, s_state := t.ser.s_state
        s_status := t.ser.s_status, s_txlen := t.ser.s_txlen } } ∧
      t.ser.s_cnt.toNat = s.ser.s_cnt.toNat + 1 ∧
      (t.ser.s_cnt.toNat < 6 →
        t.ser.s_state = .S_HDR ∧ t.ser.s_status = s.ser.s_status ∧ t.ser.s_txlen = s.ser.s_txlen) ∧
      (t.ser.s_cnt.toNat = 6 → s.ser.s_ext = true ∧ 0 < s.ser.s_n.toNat →
        t.ser.s_state = .S_BODY ∧ t.ser.s_status = s.ser.s_status ∧ t.ser.s_txlen = s.ser.s_txlen) ∧
      (t.ser.s_cnt.toNat = 6 → ¬ (s.ser.s_ext = true ∧ 0 < s.ser.s_n.toNat) →
        t.ser.s_state = .S_DONE ∧ t.ser.s_status = .OK ∧ t.ser.s_txlen = 6)

/-- R96: the body step of SER, as a step of the machine. -/
def Obligations.SerBodyStepCopiesOneByte : Prop :=
  ∀ (s : State) (rest : List Turn), s.inputs = .ser :: rest → s.ser.s_state = .S_BODY → s.ser.s_torn = false →
    6 ≤ s.ser.s_cnt.toNat → s.ser.s_cnt.toNat < 6 + s.ser.s_n.toNat →
    ∃ t, step s = .next t ∧
      (∀ k, Memory.read t.ser.TXBUF k =
        if k = s.ser.s_cnt.toNat then some (Memory.byte .PIN s.ser.PIN (s.ser.s_cnt.toNat - 6))
        else Memory.read s.ser.TXBUF k) ∧
      t = { s with inputs := rest, ser := { s.ser with
        TXBUF := t.ser.TXBUF, s_cnt := t.ser.s_cnt, s_state := t.ser.s_state
        s_status := t.ser.s_status, s_txlen := t.ser.s_txlen } } ∧
      t.ser.s_cnt.toNat = s.ser.s_cnt.toNat + 1 ∧
      (t.ser.s_cnt.toNat < 6 + s.ser.s_n.toNat →
        t.ser.s_state = .S_BODY ∧ t.ser.s_status = s.ser.s_status ∧ t.ser.s_txlen = s.ser.s_txlen) ∧
      (t.ser.s_cnt.toNat = 6 + s.ser.s_n.toNat →
        t.ser.s_state = .S_DONE ∧ t.ser.s_status = .OK ∧ t.ser.s_txlen.toNat = 6 + s.ser.s_n.toNat)

/-- R86, R94, R97, R176: PACK.INLINE completes with the six bytes of its frame in TXBUF, which the host may
read, and nothing else changed outside SER's own registers. (One exec for the whole operation is
notes/assumptions/7.md; that the host has no byte beyond the frame after an abandoned operation is 4.md.) -/
def Obligations.PackInlineWritesTheShortFrame : Prop :=
  ∀ (hasP1 hasP2 : Bool) (f : SerFields) (s : State), s.ser.s_busy = false → f.destInForce.getLsbD 7 = false →
    ∃ t, exec (.packInline hasP1 hasP2 f) s = .next t ∧
      t = { s with ser := { s.ser with
        TXBUF := t.ser.TXBUF, s_state := .S_DONE, s_cnt := 6, s_ext := false, s_n := 0, s_h := t.ser.s_h
        s_desc := ⟨false, hasP1, hasP2, f⟩, s_status := .OK, s_txlen := 6, s_torn := false } } ∧
      t.ser.s_h.toList = [lo8 f.d_opcode, hi8 f.d_opcode, if hasP1 then f.d_p1 else 0, if hasP2 then f.d_p2 else 0,
        f.destInForce, f.srcInForce] ∧
      (∀ k, Memory.read t.ser.TXBUF k = if k < 6 then t.ser.s_h.toList[k]? else Memory.read s.ser.TXBUF k) ∧
      ∀ k, t.ser.hostTx k =
        if k < 6 then t.ser.s_h.toList[k]? else if s.ser.s_undef then none else Memory.read s.ser.TXBUF k

/-- R89, R94, R151, R154: PACK.INLINE of a message whose destination has bit 7 set is refused and writes
nothing. (That the refused start latches the descriptor and lowers the mark of a breach is
notes/assumptions/14.md.) -/
def Obligations.PackInlineRefusesTheFlag : Prop :=
  ∀ (hasP1 hasP2 : Bool) (f : SerFields) (s : State), s.ser.s_busy = false → f.destInForce.getLsbD 7 = true →
    exec (.packInline hasP1 hasP2 f) s = .next { s with ser := { s.ser with
      s_desc := ⟨false, hasP1, hasP2, f⟩, s_torn := false, s_status := .DestFlagViolation, s_txlen := 0
      s_state := .S_DONE } }

/-- R87, R94, R97, R176: PACK.EXT completes with the header and the payload in TXBUF, which the host may read.
(One exec filling PIN and taking all the steps is notes/assumptions/7.md; the host's view beyond the frame
after an abandoned operation is 4.md.) -/
def Obligations.PackExtWritesTheLongFrame : Prop :=
  ∀ (f : SerFields) (payload : List Byte) (s : State), s.ser.s_busy = false → payload.length = f.d_plen →
    f.d_plen ≤ 65535 →
    ∃ t, exec (.packExt f payload) s = .next t ∧
      t = { s with ser := { s.ser with
        TXBUF := t.ser.TXBUF, PIN := t.ser.PIN, s_state := .S_DONE, s_cnt := t.ser.s_txlen, s_ext := true
        s_n := t.ser.s_n, s_h := t.ser.s_h, s_desc := ⟨true, false, false, f⟩, s_status := .OK
        s_txlen := t.ser.s_txlen, s_torn := false } } ∧
      t.ser.s_n.toNat = payload.length ∧ t.ser.s_txlen.toNat = 6 + payload.length ∧
      t.ser.s_h.toList = [lo8 f.d_opcode, hi8 f.d_opcode, lo8 t.ser.s_n, hi8 t.ser.s_n, f.destInForce ||| 0x80,
        f.srcInForce] ∧
      (∀ k, Memory.read t.ser.TXBUF k =
        if k < 6 + payload.length then (t.ser.s_h.toList ++ payload)[k]? else Memory.read s.ser.TXBUF k) ∧
      (∀ k, t.ser.hostTx k =
        if k < 6 + payload.length then (t.ser.s_h.toList ++ payload)[k]?
        else if s.ser.s_undef then none else Memory.read s.ser.TXBUF k) ∧
      ∀ k, Memory.read t.ser.PIN k = if k < payload.length then payload[k]? else Memory.read s.ser.PIN k

/-- R88, R94, R149, R154: PACK.EXT of a payload that is too long is refused and writes nothing; PIN holds what
the host put there. (That the one exec fills PIN is notes/assumptions/7.md; that the refused start latches
the descriptor and lowers the mark of a breach is 14.md.) -/
def Obligations.PackExtRefusesTooLongAPayload : Prop :=
  ∀ (f : SerFields) (payload : List Byte) (s : State), s.ser.s_busy = false → payload.length = f.d_plen →
    65535 < f.d_plen →
    ∃ t, exec (.packExt f payload) s = .next t ∧
      t = { s with ser := { s.ser with
        PIN := t.ser.PIN, s_desc := ⟨true, false, false, f⟩, s_torn := false, s_status := .PayloadTooLarge
        s_txlen := 0, s_state := .S_DONE } } ∧
      ∀ k, Memory.read t.ser.PIN k = if k < payload.length then payload[k]? else Memory.read s.ser.PIN k

/-- R76, R81, R94, R154: the two CONSTRUCT.CONFLICT rows complete with `InvalidConstruction`, whatever the
other presence flag and the declared length, and write nothing. (That the one exec fills PIN is
notes/assumptions/7.md; that the refused start latches the descriptor and lowers the mark of a breach is
14.md.) -/
def Obligations.ConflictRowsAreRefusedAtStart : Prop :=
  ∀ (other : Bool) (f : SerFields) (payload : List Byte) (s : State), s.ser.s_busy = false →
    (∃ t, exec (.constructConflictP1 other f payload) s = .next t ∧
      t = { s with ser := { s.ser with
        PIN := t.ser.PIN, s_desc := ⟨true, true, other, f⟩, s_torn := false, s_status := .InvalidConstruction
        s_txlen := 0, s_state := .S_DONE } } ∧
      ∀ k, Memory.read t.ser.PIN k = if k < payload.length then payload[k]? else Memory.read s.ser.PIN k) ∧
    (∃ t, exec (.constructConflictP2 other f payload) s = .next t ∧
      t = { s with ser := { s.ser with
        PIN := t.ser.PIN, s_desc := ⟨true, other, true, f⟩, s_torn := false, s_status := .InvalidConstruction
        s_txlen := 0, s_state := .S_DONE } } ∧
      ∀ k, Memory.read t.ser.PIN k = if k < payload.length then payload[k]? else Memory.read s.ser.PIN k)

/-- R138, the serializer: START.SER from any state in which SER is not busy, then any interleaving of unit
steps. When `s_done` is up, the response is what `pack` of `construct` gives for the request the
descriptor stands for (R81), and no other byte of TXBUF is written. -/
def Obligations.SerializerRefinesPackOfConstruct : Prop :=
  ∀ (d : SerDesc) (s t v : State) (ts : List Turn), s.ser.s_busy = false → exec (.startSer d) s = .next t →
    unitTurns ts = true → Sys2Proof.core.run ts.length { t with inputs := ts } = .next v → v.ser.s_done = true →
    match send (requestOf d (Memory.bytes .PIN s.ser.PIN 0 d.fields.d_plen)) with
    | .error e => v.ser.s_status = e ∧ v.ser.s_txlen = 0 ∧ ∀ k, Memory.read v.ser.TXBUF k = Memory.read s.ser.TXBUF k
    | .ok f => v.ser.s_status = .OK ∧ v.ser.s_txlen.toNat = f.length ∧
        ∀ k, Memory.read v.ser.TXBUF k = if k < f.length then f[k]? else Memory.read s.ser.TXBUF k

/-- R97, R136, R182: how many steps of SER follow an accepted start: `6 + N`, and then `s_done` is up. -/
def Obligations.SerializerStepCount : Prop :=
  ∀ (d : SerDesc) (u : Ser) (n : Nat), u.s_busy = false → (u.start d).s_busy = true →
    (Ser.tick^[n] (u.start d)).s_busy = decide (n < 6 + (u.start d).s_n.toNat) ∧
    (Ser.tick^[n] (u.start d)).s_done = decide (6 + (u.start d).s_n.toNat ≤ n)

/-- R34, R36: the accesses of a SER operation, all of them and in order: six header bytes, then for each
payload byte a read of PIN and a write of TXBUF. -/
def Obligations.SerializerAccessesInOrder : Prop :=
  ∀ (d : SerDesc) (u : Ser), u.s_busy = false → (u.start d).s_busy = true →
    let v := u.start d
    v.runAccesses (6 + v.s_n.toNat) =
      (List.range 6).map (fun k => Access.writeTx k (v.s_h.toList.getD k 0)) ++
      (List.range v.s_n.toNat).flatMap (fun j =>
        [Access.readPin j, Access.writeTx (6 + j) (Memory.byte .PIN u.PIN j)])

/-- R10, R158: what a SER operation reports does not depend on anything an earlier operation left. -/
def Obligations.SerializerKeepsNothingBetweenOperations : Prop :=
  ∀ (d : SerDesc) (payload : List Byte) (u v : Ser), u.s_busy = false → v.s_busy = false →
    (d.d_has_pld = true → payload.length = d.fields.d_plen) →
    (u.operation d payload).response = (v.operation d payload).response ∧ (u.operation d payload).response ≠ none

/-! ## The parser -/

/-- R51, R35: a wire frame that arrives stands in RXBUF from offset 0 upward, and nothing else of the
state changes (but the mark of a breach when PAR is busy). -/
def Obligations.ArrivingFramesStandInRxbuf : Prop :=
  ∀ s : State,
    (∀ h : ShortHdr, ∃ t, exec (.frameShort h) s = .next t ∧
      t = { s with par := { s.par with RXBUF := t.par.RXBUF, p_torn := s.par.p_torn || s.par.p_busy } } ∧
      ∀ k, Memory.read t.par.RXBUF k =
        if k < 6 then [lo8 h.opcode, hi8 h.opcode, h.param1, h.param2, 0#1 ++ h.dest, h.source][k]?
        else Memory.read s.par.RXBUF k) ∧
    (∀ (h : LongHdr) (payload : List Byte), ∃ t, exec (.frameLong h payload) s = .next t ∧
      t = { s with par := { s.par with RXBUF := t.par.RXBUF, p_torn := s.par.p_torn || s.par.p_busy } } ∧
      ∀ k, Memory.read t.par.RXBUF k =
        if k < 6 + payload.length then
          ([lo8 h.opcode, hi8 h.opcode, lo8 h.length, hi8 h.length, 1#1 ++ h.dest, h.source] ++ payload)[k]?
        else Memory.read s.par.RXBUF k)

/-- R111, R146, R154: the start step of PAR: with fewer than six bytes declared it ends there, with
nothing read. (That a refused start latches the mode and the length and lowers the mark of a breach is
notes/assumptions/14.md.) -/
def Obligations.ParStartStep : Prop :=
  ∀ (d : ParDesc) (s : State), s.par.p_busy = false →
    (d.p_avail_in < 6 → exec (.startPar d) s = .next { s with par := { s.par with
      p_hdronly := d.p_hdronly_in, p_avail := d.p_avail_in, p_torn := false, p_status := .MalformedHeader
      p_kind := .NONE, p_consumed := 0, p_state := .P_DONE } }) ∧
    (6 ≤ d.p_avail_in → exec (.startPar d) s = .next { s with par := { s.par with
      p_hdronly := d.p_hdronly_in, p_avail := d.p_avail_in, p_torn := false, p_cnt := 0, p_state := .P_HDR } })

/-- R112: the header step of PAR before the last header byte, as a step of the machine. -/
def Obligations.ParHeaderStepReadsOneByte : Prop :=
  ∀ (s : State) (rest : List Turn) (h : s.par.p_cnt.toNat < 5), s.inputs = .par :: rest → s.par.p_state = .P_HDR →
    s.par.p_torn = false →
    step s = .next { s with inputs := rest, par := { s.par with
      p_cnt := s.par.p_cnt + 1
      p_hdr := s.par.p_hdr.set s.par.p_cnt.toNat (Memory.byte .RXBUF s.par.RXBUF s.par.p_cnt.toNat) } }

/-- R113: the step that reads header byte 5, and the dispatch in it. -/
def Obligations.ParDispatchOnTheHeader : Prop :=
  ∀ (s : State) (rest : List Turn), s.inputs = .par :: rest → s.par.p_state = .P_HDR → s.par.p_cnt = 5 →
    s.par.p_torn = false →
    let hdr := s.par.p_hdr.set 5 (Memory.byte .RXBUF s.par.RXBUF 5)
    let L := hdr[2].toNat + 256 * hdr[3].toNat
    let ends (st : PState) (e : Status) (k : Kind) (n : BitVec 17) : Host.Outcome State Fault Refusal :=
      .next { s with inputs := rest, par := { s.par with
        p_hdr := hdr, p_cnt := 6, p_state := st, p_status := e, p_kind := k, p_consumed := n } }
    (hdr[4].getLsbD 7 = false → step s = ends .P_DONE .OK .SHORT 6) ∧
    (hdr[4].getLsbD 7 = true → s.par.p_hdronly = true → step s = ends .P_DONE .OK .LONG_HDR 6) ∧
    (hdr[4].getLsbD 7 = true → s.par.p_hdronly = false → s.par.p_avail < 6 + L →
      step s = ends .P_DONE .TruncatedPayload .NONE 0) ∧
    (hdr[4].getLsbD 7 = true → s.par.p_hdronly = false → 6 + L ≤ s.par.p_avail → L = 0 →
      step s = ends .P_DONE .OK .LONG_FULL 6) ∧
    (hdr[4].getLsbD 7 = true → s.par.p_hdronly = false → 6 + L ≤ s.par.p_avail → 0 < L →
      step s = ends .P_BODY s.par.p_status s.par.p_kind s.par.p_consumed)

/-- R114: the body step of PAR, as a step of the machine. -/
def Obligations.ParBodyStepCopiesOneByte : Prop :=
  ∀ (s : State) (rest : List Turn), s.inputs = .par :: rest → s.par.p_state = .P_BODY → s.par.p_torn = false →
    6 ≤ s.par.p_cnt.toNat → s.par.p_cnt.toNat < 6 + s.par.L.toNat →
    ∃ t, step s = .next t ∧
      (∀ k, Memory.read t.par.POUT k =
        if k = s.par.p_cnt.toNat - 6 then some (Memory.byte .RXBUF s.par.RXBUF s.par.p_cnt.toNat)
        else Memory.read s.par.POUT k) ∧
      t = { s with inputs := rest, par := { s.par with
        POUT := t.par.POUT, p_cnt := t.par.p_cnt, p_state := t.par.p_state
        p_status := t.par.p_status, p_kind := t.par.p_kind, p_consumed := t.par.p_consumed } } ∧
      t.par.p_cnt.toNat = s.par.p_cnt.toNat + 1 ∧
      (t.par.p_cnt.toNat < 6 + s.par.L.toNat → t.par.p_state = .P_BODY ∧ t.par.p_status = s.par.p_status ∧
        t.par.p_kind = s.par.p_kind ∧ t.par.p_consumed = s.par.p_consumed) ∧
      (t.par.p_cnt.toNat = 6 + s.par.L.toNat → t.par.p_state = .P_DONE ∧ t.par.p_status = .OK ∧
        t.par.p_kind = .LONG_FULL ∧ t.par.p_consumed.toNat = 6 + s.par.L.toNat)

/-- R103, R106, R109, R20: UNPACK.SHORT and UNPACKH.SHORT complete with the same short message and its
response fields, and nothing else changes outside PAR's own registers but the bytes the host handed over.
(One exec filling RXBUF and taking all the steps is notes/assumptions/7.md; that a field that is not valid
has no value is 17.md.) -/
def Obligations.UnpackOfAShortFrame : Prop :=
  ∀ (h : ShortHdr) (rest : List Byte) (s : State), s.par.p_busy = false →
    let result (t : State) (headerOnly : Bool) : Prop :=
      t = { s with par := { s.par with
        RXBUF := t.par.RXBUF, p_state := .P_DONE, p_cnt := 6, p_hdronly := headerOnly, p_avail := 6 + rest.length
        p_hdr := t.par.p_hdr, p_status := .OK, p_kind := .SHORT, p_consumed := 6, p_torn := false } } ∧
      t.par.p_hdr.toList = h.bytes ∧
      t.par.response = some (.ok (.short ⟨h.opcode, 0#1 ++ h.dest, h.source, .inlineParams h.param1 h.param2⟩ 6)) ∧
      t.par.p_opcode = some h.opcode ∧ t.par.p_param1 = some h.param1 ∧ t.par.p_param2 = some h.param2 ∧
      t.par.p_len = none ∧ t.par.p_dest = some (0#1 ++ h.dest) ∧ t.par.p_src = some h.source ∧
      ∀ k, Memory.read t.par.RXBUF k =
        if k < 6 + rest.length then (h.bytes ++ rest)[k]? else Memory.read s.par.RXBUF k
    (∃ t, exec (.unpackShort h rest) s = .next t ∧ result t false) ∧
    (∃ t, exec (.unpackhShort h rest) s = .next t ∧ result t true)

/-- R104, R109, R115, R20, R176: UNPACK.LONG with all its payload present completes with the long message and
its response fields, its payload in POUT, which the host may read. (One exec filling RXBUF and taking all
the steps is notes/assumptions/7.md; that a field that is not valid has no value is 17.md; the host's view
beyond the payload after an abandoned operation is 4.md.) -/
def Obligations.UnpackOfALongFrame : Prop :=
  ∀ (h : LongHdr) (rest : List Byte) (s : State), s.par.p_busy = false → h.length.toNat ≤ rest.length →
    ∃ t, exec (.unpackLong h rest) s = .next t ∧
      t = { s with par := { s.par with
        RXBUF := t.par.RXBUF, POUT := t.par.POUT, p_state := .P_DONE, p_cnt := t.par.p_consumed, p_hdronly := false
        p_avail := 6 + rest.length, p_hdr := t.par.p_hdr, p_status := .OK, p_kind := .LONG_FULL
        p_consumed := t.par.p_consumed, p_torn := false } } ∧
      t.par.p_consumed.toNat = 6 + h.length.toNat ∧
      t.par.p_hdr.toList = h.bytes ∧
      t.par.response = some (.ok (.longFull
        ⟨h.opcode, 0#1 ++ h.dest, h.source, .extended (rest.take h.length.toNat)⟩ (6 + h.length.toNat))) ∧
      t.par.p_opcode = some h.opcode ∧ t.par.p_param1 = none ∧ t.par.p_param2 = none ∧
      t.par.p_len = some h.length ∧ t.par.p_dest = some (0#1 ++ h.dest) ∧ t.par.p_src = some h.source ∧
      (∀ k, Memory.read t.par.POUT k = if k < h.length.toNat then rest[k]? else Memory.read s.par.POUT k) ∧
      (∀ k, t.par.hostPo k =
        if k < h.length.toNat then rest[k]? else if s.par.p_undef then none else Memory.read s.par.POUT k) ∧
      ∀ k, Memory.read t.par.RXBUF k =
        if k < 6 + rest.length then (h.bytes ++ rest)[k]? else Memory.read s.par.RXBUF k

/-- R108, R147, R154: UNPACK.LONG with a payload byte missing ends in `TruncatedPayload` and writes nothing.
(One exec filling RXBUF and taking all the steps is notes/assumptions/7.md.) -/
def Obligations.UnpackRefusesATruncatedFrame : Prop :=
  ∀ (h : LongHdr) (rest : List Byte) (s : State), s.par.p_busy = false → rest.length < h.length.toNat →
    ∃ t, exec (.unpackLong h rest) s = .next t ∧
      t = { s with par := { s.par with
        RXBUF := t.par.RXBUF, p_state := .P_DONE, p_cnt := 6, p_hdronly := false, p_avail := 6 + rest.length
        p_hdr := t.par.p_hdr, p_status := .TruncatedPayload, p_kind := .NONE, p_consumed := 0, p_torn := false } } ∧
      t.par.p_hdr.toList = h.bytes ∧
      ∀ k, Memory.read t.par.RXBUF k =
        if k < 6 + rest.length then (h.bytes ++ rest)[k]? else Memory.read s.par.RXBUF k

/-- R107, R20: UNPACKH.LONG completes with the header result and its response fields, however few bytes follow
the header. (One exec filling RXBUF and taking all the steps is notes/assumptions/7.md; that a field that is
not valid has no value is 17.md.) -/
def Obligations.HeaderOnlyOfALongFrame : Prop :=
  ∀ (h : LongHdr) (rest : List Byte) (s : State), s.par.p_busy = false →
    ∃ t, exec (.unpackhLong h rest) s = .next t ∧
      t = { s with par := { s.par with
        RXBUF := t.par.RXBUF, p_state := .P_DONE, p_cnt := 6, p_hdronly := true, p_avail := 6 + rest.length
        p_hdr := t.par.p_hdr, p_status := .OK, p_kind := .LONG_HDR, p_consumed := 6, p_torn := false } } ∧
      t.par.p_hdr.toList = h.bytes ∧
      t.par.response = some (.ok (.longHeader h.opcode (1#1 ++ h.dest) h.source h.length 6)) ∧
      t.par.p_opcode = some h.opcode ∧ t.par.p_param1 = none ∧ t.par.p_param2 = none ∧
      t.par.p_len = some h.length ∧ t.par.p_dest = some (1#1 ++ h.dest) ∧ t.par.p_src = some h.source ∧
      ∀ k, Memory.read t.par.RXBUF k =
        if k < 6 + rest.length then (h.bytes ++ rest)[k]? else Memory.read s.par.RXBUF k

/-- R100, R146: UNPACK.MALFORMED completes with `MalformedHeader` in either mode, with nothing read.
(That the one exec fills RXBUF is notes/assumptions/7.md; that the refused start latches the mode and the
length and lowers the mark of a breach is 14.md.) -/
def Obligations.UnpackOfFewerThanSixBytes : Prop :=
  ∀ (headerOnly : Bool) (buf : List Byte) (s : State), s.par.p_busy = false → buf.length < 6 →
    ∃ t, exec (.unpackMalformed headerOnly buf) s = .next t ∧
      t = { s with par := { s.par with
        RXBUF := t.par.RXBUF, p_state := .P_DONE, p_hdronly := headerOnly, p_avail := buf.length
        p_status := .MalformedHeader, p_kind := .NONE, p_consumed := 0, p_torn := false } } ∧
      ∀ k, Memory.read t.par.RXBUF k = if k < buf.length then buf[k]? else Memory.read s.par.RXBUF k

/-- R138, the parser: START.PAR from any state in which PAR is not busy, then any interleaving of unit
steps. When `p_done` is up, the response is what `unpack` gives for the bytes of RXBUF, and no byte of
POUT is written but the payload's. -/
def Obligations.ParserRefinesUnpack : Prop :=
  ∀ (d : ParDesc) (s t v : State) (ts : List Turn), s.par.p_busy = false → exec (.startPar d) s = .next t →
    unitTurns ts = true → Sys2Proof.core.run ts.length { t with inputs := ts } = .next v → v.par.p_done = true →
    match unpack (Memory.bytes .RXBUF s.par.RXBUF 0 d.p_avail_in) d.p_hdronly_in with
    | .error e => v.par.p_status = e ∧ v.par.p_kind = .NONE ∧ v.par.p_consumed = 0 ∧
        ∀ k, Memory.read v.par.POUT k = Memory.read s.par.POUT k
    | .ok r => v.par.p_status = .OK ∧ v.par.response = some (.ok r) ∧
        ∀ k, Memory.read v.par.POUT k =
          match r with
          | .longFull ⟨_, _, _, .extended bytes⟩ _ => if k < bytes.length then bytes[k]? else Memory.read s.par.POUT k
          | .longFull ⟨_, _, _, .inlineParams _ _⟩ _ => Memory.read s.par.POUT k
          | .short _ _ => Memory.read s.par.POUT k
          | .longHeader _ _ _ _ _ => Memory.read s.par.POUT k

/-- R115, R136, R182: how many steps of PAR follow a start that declares six bytes: six, and `L` more when
a payload is copied; then `p_done` is up. -/
def Obligations.ParserStepCount : Prop :=
  ∀ (d : ParDesc) (u : Par) (n : Nat), u.p_busy = false → 6 ≤ d.p_avail_in →
    let v := Par.tick^[6] (u.start d)
    let steps := if v.p_state = .P_BODY then 6 + v.L.toNat else 6
    (Par.tick^[n] (u.start d)).p_busy = decide (n < steps) ∧ (Par.tick^[n] (u.start d)).p_done = decide (steps ≤ n)

/-- R34, R36: the accesses of a PAR operation, all of them and in order: six reads, and when a payload is
copied, for each byte a read of RXBUF and then a write of POUT. -/
def Obligations.ParserAccessesInOrder : Prop :=
  ∀ (d : ParDesc) (u : Par), u.p_busy = false → 6 ≤ d.p_avail_in →
    let v := Par.tick^[6] (u.start d)
    (u.start d).runAccesses (6 + 65535) =
      (List.range 6).map Access.readRx ++
      (if v.p_state = .P_BODY then
        (List.range v.L.toNat).flatMap (fun j =>
          [Access.readRx (6 + j), Access.writePo j (Memory.byte .RXBUF u.RXBUF (6 + j))])
      else [])

/-- R10, R158, R178: what a PAR operation reports does not depend on anything an earlier operation left. -/
def Obligations.ParserKeepsNothingBetweenOperations : Prop :=
  ∀ (headerOnly : Bool) (buf : List Byte) (u v : Par), u.p_busy = false → v.p_busy = false →
    (u.operation headerOnly buf).response = (v.operation headerOnly buf).response ∧
    (u.operation headerOnly buf).response = some (unpack buf headerOnly)
end

