-- ==== Sys2Proof/Laws/Fields.lean ====
section
/-! SUPPORT. The laws of field assembly (R55 to R57, R59) and of the operand forms. -/

namespace Sys2Proof

theorem le16_toNat (a b : Byte) : (le16 a b).toNat = a.toNat + 256 * b.toNat := by
  have ha := a.isLt
  have := Nat.two_pow_add_eq_or_of_lt ha b.toNat
  rw [le16, BitVec.toNat_append, Nat.shiftLeft_eq, Nat.mul_comm, ← this]
  omega

theorem lo8_toNat (v : U16) : (lo8 v).toNat = v.toNat % 256 := by
  simp [lo8, BitVec.extractLsb'_toNat]

theorem hi8_toNat (v : U16) : (hi8 v).toNat = v.toNat / 256 := by
  have := v.isLt
  simp [hi8, BitVec.extractLsb'_toNat, Nat.shiftRight_eq_div_pow]; omega

@[simp] theorem lo8_le16 (a b : Byte) : lo8 (le16 a b) = a := by
  have := a.isLt
  apply BitVec.eq_of_toNat_eq; rw [lo8_toNat, le16_toNat]; omega

@[simp] theorem hi8_le16 (a b : Byte) : hi8 (le16 a b) = b := by
  have := a.isLt
  apply BitVec.eq_of_toNat_eq; rw [hi8_toNat, le16_toNat]; omega

@[simp] theorem le16_lo8_hi8 (v : U16) : le16 (lo8 v) (hi8 v) = v := by
  apply BitVec.eq_of_toNat_eq; rw [le16_toNat, lo8_toNat, hi8_toNat]; omega

@[simp] theorem long_setLong (d : Byte) : long (setLong d) = true := by
  simp [long, setLong]

@[simp] theorem long_clearLong (d : Byte) : long (clearLong d) = false := by
  simp [long, clearLong]

@[simp] theorem clearLong_setLong (d : Byte) : clearLong (setLong d) = clearLong d := by
  revert d; decide

@[simp] theorem setLong_setLong (d : Byte) : setLong (setLong d) = setLong d := by
  revert d; decide

@[simp] theorem setLong_clearLong (d : Byte) : setLong (clearLong d) = setLong d := by
  revert d; decide

theorem setLong_of_long {d : Byte} (h : long d = true) : setLong d = d := by
  revert d; decide

theorem clearLong_of_not_long {d : Byte} (h : long d = false) : clearLong d = d := by
  revert d; decide

@[simp] theorem long_short_dest (d : BitVec 7) : long (0#1 ++ d : Byte) = false := by
  revert d; decide

@[simp] theorem long_long_dest (d : BitVec 7) : long (1#1 ++ d : Byte) = true := by
  revert d; decide

/-- The flag of the default destination is bit 7 of it (R78). -/
theorem long_defaultDest : long Config.defaultDest = Config.defaultDestFlag := by
  simp [long, Config.defaultDest, Config.defaultDestFlag]

/-- The flag that the serializer tests is bit 7 of the destination in force (R94, R151). -/
theorem SerFields.destFlag_eq (f : SerFields) : f.destFlag = long f.destInForce := by
  simp only [SerFields.destFlag, SerFields.destInForce]
  split
  · rfl
  · exact long_defaultDest.symm

@[simp] theorem ShortHdr.bytes_length (h : ShortHdr) : h.bytes.length = 6 := rfl

@[simp] theorem LongHdr.bytes_length (h : LongHdr) : h.bytes.length = 6 := rfl

end Sys2Proof
end

