-- ==== Sys2Proof/Laws/Decode.lean ====
section
/-! SUPPORT. What the header word and the selectors hold (R52, R60, R61), and which row each selects. -/

namespace Sys2Proof

/-- The header word as a number (R52). -/
theorem headerWord_toNat (b0 b1 b2 b3 b4 b5 : Byte) :
    (headerWord b0 b1 b2 b3 b4 b5).toNat =
      b0.toNat + b1.toNat * 2 ^ 8 + b2.toNat * 2 ^ 16 + b3.toNat * 2 ^ 24 + b4.toNat * 2 ^ 32 + b5.toNat * 2 ^ 40 := by
  have app {n m : Nat} (x : BitVec n) (y : BitVec m) : (x ++ y).toNat = y.toNat + 2 ^ m * x.toNat := by
    rw [BitVec.toNat_append, Nat.shiftLeft_eq, Nat.mul_comm, ← Nat.two_pow_add_eq_or_of_lt y.isLt, Nat.add_comm]
  simp only [headerWord, app]
  omega

/-- Bit 39 of the header word is the discriminator (R52, R54). -/
theorem headerWord_bit39 (b0 b1 b2 b3 b4 b5 : Byte) : (headerWord b0 b1 b2 b3 b4 b5).getLsbD 39 = long b4 := by
  simp only [headerWord, BitVec.getLsbD_append]
  rfl

theorem opcode_of_headerWord (b0 b1 b2 b3 b4 b5 : Byte) :
    (headerWord b0 b1 b2 b3 b4 b5).extractLsb' 0 16 = le16 b0 b1 := by
  have := b0.isLt
  have := b1.isLt
  apply BitVec.eq_of_toNat_eq
  rw [BitVec.extractLsb'_toNat, headerWord_toNat, le16_toNat]
  omega

theorem length_of_headerWord (b0 b1 b2 b3 b4 b5 : Byte) :
    (headerWord b0 b1 b2 b3 b4 b5).extractLsb' 16 16 = le16 b2 b3 := by
  have := b0.isLt
  have := b1.isLt
  have := b2.isLt
  have := b3.isLt
  apply BitVec.eq_of_toNat_eq
  rw [BitVec.extractLsb'_toNat, headerWord_toNat, le16_toNat, Nat.shiftRight_eq_div_pow]
  omega

theorem param1_of_headerWord (b0 b1 b2 b3 b4 b5 : Byte) :
    (headerWord b0 b1 b2 b3 b4 b5).extractLsb' 16 8 = b2 := by
  have := b0.isLt
  have := b1.isLt
  have := b2.isLt
  apply BitVec.eq_of_toNat_eq
  rw [BitVec.extractLsb'_toNat, headerWord_toNat, Nat.shiftRight_eq_div_pow]
  omega

theorem param2_of_headerWord (b0 b1 b2 b3 b4 b5 : Byte) :
    (headerWord b0 b1 b2 b3 b4 b5).extractLsb' 24 8 = b3 := by
  have := b0.isLt
  have := b1.isLt
  have := b2.isLt
  have := b3.isLt
  apply BitVec.eq_of_toNat_eq
  rw [BitVec.extractLsb'_toNat, headerWord_toNat, Nat.shiftRight_eq_div_pow]
  omega

theorem dest_of_headerWord (b0 b1 b2 b3 b4 b5 : Byte) :
    (headerWord b0 b1 b2 b3 b4 b5).extractLsb' 32 7 = b4.setWidth 7 := by
  have := b0.isLt
  have := b1.isLt
  have := b2.isLt
  have := b3.isLt
  have := b4.isLt
  apply BitVec.eq_of_toNat_eq
  rw [BitVec.extractLsb'_toNat, headerWord_toNat, BitVec.toNat_setWidth, Nat.shiftRight_eq_div_pow]
  omega

theorem source_of_headerWord (b0 b1 b2 b3 b4 b5 : Byte) :
    (headerWord b0 b1 b2 b3 b4 b5).extractLsb' 40 8 = b5 := by
  have := b0.isLt
  have := b1.isLt
  have := b2.isLt
  have := b3.isLt
  have := b4.isLt
  have := b5.isLt
  apply BitVec.eq_of_toNat_eq
  rw [BitVec.extractLsb'_toNat, headerWord_toNat, Nat.shiftRight_eq_div_pow]
  omega

/-- The fields of a short frame's header word (R52). -/
theorem ShortHdr.ofHeaderWord_eq (b0 b1 b2 b3 b4 b5 : Byte) :
    ShortHdr.ofHeaderWord (headerWord b0 b1 b2 b3 b4 b5) = ⟨le16 b0 b1, b2, b3, b4.setWidth 7, b5⟩ := by
  simp [ShortHdr.ofHeaderWord, opcode_of_headerWord, param1_of_headerWord, param2_of_headerWord,
    dest_of_headerWord, source_of_headerWord]

/-- The fields of a long frame's header word (R52). -/
theorem LongHdr.ofHeaderWord_eq (b0 b1 b2 b3 b4 b5 : Byte) :
    LongHdr.ofHeaderWord (headerWord b0 b1 b2 b3 b4 b5) = ⟨le16 b0 b1, le16 b2 b3, b4.setWidth 7, b5⟩ := by
  simp [LongHdr.ofHeaderWord, opcode_of_headerWord, length_of_headerWord, dest_of_headerWord, source_of_headerWord]

/-- A value masked with one bit is 0 exactly when the bit is. -/
theorem and_twoPow_eq_zero {w : Nat} (v : BitVec w) (i : Nat) (h : i < w) :
    (v &&& BitVec.twoPow w i == 0#w) = !v.getLsbD i := by
  rw [BitVec.and_twoPow]
  cases v.getLsbD i
  · simp
  · have : BitVec.twoPow w i ≠ 0#w := by
      intro e
      have := congrArg (BitVec.getLsbD · i) e
      simp [h] at this
    simp [this]

theorem and_twoPow_eq_self {w : Nat} (v : BitVec w) (i : Nat) (h : i < w) :
    (v &&& BitVec.twoPow w i == BitVec.twoPow w i) = v.getLsbD i := by
  rw [BitVec.and_twoPow]
  cases v.getLsbD i
  · have : (0#w) ≠ BitVec.twoPow w i := by
      intro e
      have := congrArg (BitVec.getLsbD · i) e
      simp [h] at this
    simpa using this
  · simp

/-- FRAME.SHORT is selected exactly when the discriminator is 0 (R54). -/
theorem rowFrameShort_selects (b0 b1 b2 b3 b4 b5 : Byte) :
    rowFrameShort.selects (headerWord b0 b1 b2 b3 b4 b5) = !long b4 := by
  have := and_twoPow_eq_zero (headerWord b0 b1 b2 b3 b4 b5) 39 (by decide)
  rw [headerWord_bit39] at this
  exact this

/-- FRAME.LONG is selected exactly when the discriminator is 1 (R54). -/
theorem rowFrameLong_selects (b0 b1 b2 b3 b4 b5 : Byte) :
    rowFrameLong.selects (headerWord b0 b1 b2 b3 b4 b5) = long b4 := by
  have := and_twoPow_eq_self (headerWord b0 b1 b2 b3 b4 b5) 39 (by decide)
  rw [headerWord_bit39] at this
  exact this

/-- Bits 48 and 39 of the parser selector decide each row of format PSEL49 (R60). -/
theorem parseRow_selects (r : Row 49) (x y : Bool) (hm : r.mask = 0x1008000000000)
    (hp : r.pattern = (if x then 0x1000000000000 else 0) ||| (if y then 0x0008000000000 else 0))
    (headerOnly : Bool) (H : BitVec 48) :
    r.selects (parserSelector headerOnly H) = (headerOnly == x && H.getLsbD 39 == y) := by
  have key : (parserSelector headerOnly H &&& 0x1008000000000) =
      (if headerOnly then 0x1000000000000 else 0) ||| (if H.getLsbD 39 then 0x0008000000000 else 0) := by
    have e : (0x1008000000000 : BitVec 49) = BitVec.twoPow 49 48 ||| BitVec.twoPow 49 39 := by decide
    rw [e]
    have dist : ∀ a b c : BitVec 49, a &&& (b ||| c) = (a &&& b) ||| (a &&& c) := by
      intro a b c; ext i hi; simp [Bool.and_or_distrib_left]
    rw [dist, BitVec.and_twoPow, BitVec.and_twoPow]
    have h1 : (parserSelector headerOnly H).getLsbD 48 = headerOnly := by
      simp only [parserSelector, BitVec.getLsbD_append]; simp
    have h2 : (parserSelector headerOnly H).getLsbD 39 = H.getLsbD 39 := by
      simp only [parserSelector, BitVec.getLsbD_append]; rfl
    rw [h1, h2]
    cases headerOnly <;> cases H.getLsbD 39 <;> decide
  rw [Row.selects, hm, hp, key]
  cases headerOnly <;> cases H.getLsbD 39 <;> cases x <;> cases y <;> decide

/-- The rows of format PSEL49, by the mode flag and the discriminator (R60). -/
theorem rowUnpackShort_selects (h : Bool) (b0 b1 b2 b3 b4 b5 : Byte) :
    rowUnpackShort.selects (parserSelector h (headerWord b0 b1 b2 b3 b4 b5)) = (!h && !long b4) := by
  rw [parseRow_selects _ false false rfl (by decide), headerWord_bit39]; cases h <;> cases long b4 <;> rfl

theorem rowUnpackLong_selects (h : Bool) (b0 b1 b2 b3 b4 b5 : Byte) :
    rowUnpackLong.selects (parserSelector h (headerWord b0 b1 b2 b3 b4 b5)) = (!h && long b4) := by
  rw [parseRow_selects _ false true rfl (by decide), headerWord_bit39]; cases h <;> cases long b4 <;> rfl

theorem rowUnpackhShort_selects (h : Bool) (b0 b1 b2 b3 b4 b5 : Byte) :
    rowUnpackhShort.selects (parserSelector h (headerWord b0 b1 b2 b3 b4 b5)) = (h && !long b4) := by
  rw [parseRow_selects _ true false rfl (by decide), headerWord_bit39]; cases h <;> cases long b4 <;> rfl

theorem rowUnpackhLong_selects (h : Bool) (b0 b1 b2 b3 b4 b5 : Byte) :
    rowUnpackhLong.selects (parserSelector h (headerWord b0 b1 b2 b3 b4 b5)) = (h && long b4) := by
  rw [parseRow_selects _ true true rfl (by decide), headerWord_bit39]; cases h <;> cases long b4 <;> rfl

/-- The rows of format SSEL3, by the three presence flags (R61). -/
theorem rowPackInline_selects (d : SerDesc) : rowPackInline.selects (serializerSelector d) = !d.d_has_pld := by
  obtain ⟨a, b, c, f⟩ := d
  simp only [serializerSelector]; cases a <;> cases b <;> cases c <;> decide

theorem rowPackExt_selects (d : SerDesc) :
    rowPackExt.selects (serializerSelector d) = (d.d_has_pld && !d.d_has_p1 && !d.d_has_p2) := by
  obtain ⟨a, b, c, f⟩ := d
  simp only [serializerSelector]; cases a <;> cases b <;> cases c <;> decide

theorem rowConflictP1_selects (d : SerDesc) :
    rowConflictP1.selects (serializerSelector d) = (d.d_has_pld && d.d_has_p1) := by
  obtain ⟨a, b, c, f⟩ := d
  simp only [serializerSelector]; cases a <;> cases b <;> cases c <;> decide

theorem rowConflictP2_selects (d : SerDesc) :
    rowConflictP2.selects (serializerSelector d) = (d.d_has_pld && d.d_has_p2) := by
  obtain ⟨a, b, c, f⟩ := d
  simp only [serializerSelector]; cases a <;> cases b <;> cases c <;> decide

/-- The six bytes of a header word are its bytes (R52). -/
theorem headerWord_headerBytesOf (H : BitVec 48) :
    headerWord (byteOf H.toNat 0) (byteOf H.toNat 1) (byteOf H.toNat 2) (byteOf H.toNat 3) (byteOf H.toNat 4)
      (byteOf H.toNat 5) = H := by
  have := H.isLt
  apply BitVec.eq_of_toNat_eq
  simp only [headerWord_toNat, byteOf, BitVec.toNat_ofNat]
  omega

/-- A frame whose payload has the declared length decodes to the row its header word selects (R54, R64). -/
theorem decodeFrame_of_declared (b0 b1 b2 b3 b4 b5 : Byte) (payload : List Byte)
    (h : payload.length = if long b4 then (le16 b2 b3).toNat else 0) :
    decodeFrame (b0 :: b1 :: b2 :: b3 :: b4 :: b5 :: payload) = .ok
      (if long b4 then .frameLong (.ofHeaderWord (headerWord b0 b1 b2 b3 b4 b5)) payload
      else .frameShort (.ofHeaderWord (headerWord b0 b1 b2 b3 b4 b5))) := by
  cases hl : long b4 <;>
    simp_all [decodeFrame, rowFrameShort_selects, rowFrameLong_selects, LongHdr.ofHeaderWord_eq]

/-- Every 48-bit word of the table decodes to the row that selects it, with its fields and, for a long
frame, as many zero bytes as it declares (R62, R64). -/
theorem decodeTableWord_header (H : BitVec 48) :
    decodeTableWord 48 H.toNat = some
      (if rowFrameLong.selects H then
        .frameLong (.ofHeaderWord H) (List.replicate (LongHdr.ofHeaderWord H).length.toNat 0)
      else .frameShort (.ofHeaderWord H)) := by
  have hH := headerWord_headerBytesOf H
  have hs := rowFrameLong_selects (byteOf H.toNat 0) (byteOf H.toNat 1) (byteOf H.toNat 2) (byteOf H.toNat 3)
    (byteOf H.toNat 4) (byteOf H.toNat 5)
  have hl := LongHdr.ofHeaderWord_eq (byteOf H.toNat 0) (byteOf H.toNat 1) (byteOf H.toNat 2) (byteOf H.toNat 3)
    (byteOf H.toNat 4) (byteOf H.toNat 5)
  rw [hH] at hs hl
  have hp : presentedOfTableWord 48 H.toNat = .frame (frameOfHeaderWord H.toNat) := by
    simp [presentedOfTableWord, H.isLt]
  rw [decodeTableWord, hp]
  simp only [decode, frameOfHeaderWord, headerBytesOf, BitVec.ofNat_toNat, BitVec.setWidth_eq, List.cons_append,
    List.nil_append]
  rw [decodeFrame_of_declared _ _ _ _ _ _ _ (by rw [List.length_replicate, hs, hl]), hH, hs]
  cases long (byteOf H.toNat 4) <;> rfl

/-- A destination byte is its flag and its low seven bits (R51). -/
theorem short_dest_of_byte {b : Byte} (h : long b = false) : (0#1 ++ b.setWidth 7 : Byte) = b := by
  revert b; decide

theorem long_dest_of_byte {b : Byte} (h : long b = true) : (1#1 ++ b.setWidth 7 : Byte) = b := by
  revert b; decide

@[simp] theorem setWidth_short_dest (d : BitVec 7) : (0#1 ++ d : Byte).setWidth 7 = d := by
  revert d; decide

@[simp] theorem setWidth_long_dest (d : BitVec 7) : (1#1 ++ d : Byte).setWidth 7 = d := by
  revert d; decide

end Sys2Proof
end

