-- ==== Sys2Proof/Laws/Memory.lean ====
section
/-! SUPPORT. The laws of the buffers: reading after writing, and the canonical form. -/

namespace Sys2Proof.Machine

@[simp] theorem Memory.read_nil (k : Nat) : Memory.read [] k = none := rfl

theorem Memory.read_write_same (m : Memory) (k : Nat) (b : Byte) : Memory.read (Memory.write m k b) k = some b := by
  induction m with
  | nil => simp [Memory.write, Memory.read]
  | cons c m ih =>
    obtain ⟨a, v⟩ := c
    simp only [Memory.write]
    split
    · simp [Memory.read]
    · split
      · simp [Memory.read]
      · rename_i h1 h2
        simp only [Memory.read]
        rw [if_neg (by omega), ih]

theorem Memory.read_write_other (m : Memory) (k j : Nat) (b : Byte) (h : j ≠ k) :
    Memory.read (Memory.write m k b) j = Memory.read m j := by
  induction m with
  | nil => simp [Memory.write, Memory.read]; omega
  | cons c m ih =>
    obtain ⟨a, v⟩ := c
    simp only [Memory.write]
    split
    · rw [Memory.read, if_neg (by omega)]
    · split
      · rename_i h1 h2
        simp only [Memory.read]
        rw [if_neg (by omega), if_neg (by omega)]
      · simp only [Memory.read, ih]

/-- What a write does to every read. -/
theorem Memory.read_write (m : Memory) (k j : Nat) (b : Byte) :
    Memory.read (Memory.write m k b) j = if j = k then some b else Memory.read m j := by
  split
  · next h => rw [h, Memory.read_write_same]
  · next h => exact Memory.read_write_other m k j b h

/-- What writing a list of bytes does to every read. -/
theorem Memory.read_writeList (bs : List Byte) (m : Memory) (k j : Nat) :
    Memory.read (Memory.writeList m k bs) j =
      if k ≤ j ∧ j < k + bs.length then bs[j - k]? else Memory.read m j := by
  induction bs generalizing m k with
  | nil => simp [Memory.writeList]
  | cons b bs ih =>
    rw [Memory.writeList, ih, Memory.read_write]
    simp only [List.length_cons]
    by_cases hj : j = k
    · subst hj
      rw [if_neg (by omega), if_pos rfl, if_pos (by omega)]; simp
    · by_cases h2 : k + 1 ≤ j ∧ j < k + 1 + bs.length
      · rw [if_pos h2, if_pos (by omega)]
        rw [show j - k = (j - (k + 1)) + 1 by omega, List.getElem?_cons_succ]
      · rw [if_neg h2, if_neg hj, if_neg (by omega)]

theorem Memory.mem_write {m : Memory} {k : Nat} {b : Byte} {c : Host.Cell} (h : c ∈ Memory.write m k b) :
    c = (k, b) ∨ c ∈ m := by
  induction m with
  | nil => simpa [Memory.write] using h
  | cons d m ih =>
    obtain ⟨a, v⟩ := d
    simp only [Memory.write] at h
    split at h
    · simpa using h
    · split at h
      · rcases List.mem_cons.1 h with h | h
        · exact .inl h
        · exact .inr (List.mem_cons_of_mem _ h)
      · rcases List.mem_cons.1 h with h | h
        · exact .inr (h ▸ List.mem_cons_self)
        · rcases ih h with h | h
          · exact .inl h
          · exact .inr (List.mem_cons_of_mem _ h)

/-- A write keeps the canonical form. -/
theorem Memory.wf_write {m : Memory} (h : Memory.wf m) (k : Nat) (b : Byte) : Memory.wf (Memory.write m k b) := by
  induction m with
  | nil => simp [Memory.write, Memory.wf]
  | cons c m ih =>
    obtain ⟨a, v⟩ := c
    obtain ⟨h1, h2⟩ := List.pairwise_cons.1 h
    simp only [Memory.write]
    split
    · rename_i hk
      refine List.pairwise_cons.2 ⟨fun c hc => ?_, h⟩
      rcases List.mem_cons.1 hc with rfl | hc
      · exact hk
      · exact Nat.lt_trans hk (h1 c hc)
    · split
      · rename_i _ hk
        exact List.pairwise_cons.2 ⟨fun c hc => hk ▸ h1 c hc, h2⟩
      · refine List.pairwise_cons.2 ⟨fun c hc => ?_, ih h2⟩
        rcases Memory.mem_write hc with rfl | hc
        · simp only; omega
        · exact h1 c hc

/-- Writing a list of bytes keeps the canonical form. -/
theorem Memory.wf_writeList {m : Memory} (h : Memory.wf m) (k : Nat) (bs : List Byte) :
    Memory.wf (Memory.writeList m k bs) := by
  induction bs generalizing m k with
  | nil => exact h
  | cons b bs ih => exact ih (Memory.wf_write h k b) (k + 1)

/-- In canonical form, equal reads are equal memories. -/
theorem Memory.ext_of_wf {m n : Memory} (hm : Memory.wf m) (hn : Memory.wf n)
    (h : ∀ k, Memory.read m k = Memory.read n k) : m = n := by
  induction m generalizing n with
  | nil =>
    cases n with
    | nil => rfl
    | cons c n => obtain ⟨a, v⟩ := c; have := h a; simp [Memory.read] at this
  | cons c m ih =>
    obtain ⟨a, v⟩ := c
    obtain ⟨h1, h2⟩ := List.pairwise_cons.1 hm
    have none_of {l : Memory} {j : Nat} (hl : ∀ d ∈ l, j < d.1) : Memory.read l j = none := by
      induction l with
      | nil => rfl
      | cons d l ihl =>
        obtain ⟨x, y⟩ := d
        have : j < x := hl (x, y) List.mem_cons_self
        rw [Memory.read, if_neg (by omega), ihl fun d hd => hl d (List.mem_cons_of_mem _ hd)]
    cases n with
    | nil => have := h a; simp [Memory.read] at this
    | cons d n =>
      obtain ⟨b, w⟩ := d
      obtain ⟨g1, g2⟩ := List.pairwise_cons.1 hn
      have hab : a = b := by
        rcases Nat.lt_trichotomy a b with hlt | heq | hgt
        · have := h a
          rw [none_of (l := (b, w) :: n)] at this
          · simp [Memory.read] at this
          · intro d hd
            rcases List.mem_cons.1 hd with rfl | hd
            · exact hlt
            · exact Nat.lt_trans hlt (g1 d hd)
        · exact heq
        · have := h b
          rw [none_of (l := (a, v) :: m)] at this
          · simp [Memory.read] at this
          · intro d hd
            rcases List.mem_cons.1 hd with rfl | hd
            · exact hgt
            · exact Nat.lt_trans hgt (h1 d hd)
      subst hab
      have hvw : v = w := by have := h a; simpa [Memory.read] using this
      subst hvw
      refine congrArg _ (ih h2 g2 fun k => ?_)
      by_cases hk : a = k
      · subst hk; rw [none_of h1, none_of g1]
      · have := h k; simpa [Memory.read, hk] using this

/-- The bytes read at `k`, `k + 1`, ...: how many, and each of them. -/
theorem Memory.bytes_length (sp : Space) (m : Memory) (k n : Nat) : (Memory.bytes sp m k n).length = n := by
  induction n generalizing k with
  | zero => rfl
  | succ n ih => simp [Memory.bytes, ih]

theorem Memory.bytes_get (sp : Space) (m : Memory) (k n j : Nat) (h : j < n) :
    (Memory.bytes sp m k n)[j]? = some (Memory.byte sp m (k + j)) := by
  induction n generalizing k j with
  | zero => omega
  | succ n ih =>
    cases j with
    | zero => simp [Memory.bytes]
    | succ j => rw [Memory.bytes, List.getElem?_cons_succ, ih _ _ (by omega)]; congr 2; omega

/-- A list of bytes that a buffer holds from `k` upward is what is read from there. -/
theorem Memory.bytes_eq (sp : Space) (m : Memory) (k : Nat) (bs : List Byte)
    (h : ∀ j, j < bs.length → Memory.read m (k + j) = bs[j]?) : Memory.bytes sp m k bs.length = bs := by
  apply List.ext_getElem?
  intro j
  by_cases hj : j < bs.length
  · rw [Memory.bytes_get _ _ _ _ _ hj, Memory.byte, h j hj]
    simp [List.getElem?_eq_getElem hj]
  · rw [List.getElem?_eq_none (by rw [Memory.bytes_length]; omega), List.getElem?_eq_none (by omega)]

/-- After a list of bytes is written from offset 0, the byte at an offset below its length is the list's. -/
theorem Memory.byte_writeList (sp : Space) (m : Memory) (bs : List Byte) (j : Nat) (h : j < bs.length) :
    Memory.byte sp (Memory.writeList m 0 bs) j = bs[j] := by
  rw [Memory.byte, Memory.read_writeList, if_pos (by omega)]
  simp [List.getElem?_eq_getElem h]

/-- One more byte at the end of a list that is written. -/
theorem Memory.writeList_snoc (m : Memory) (k : Nat) (bs : List Byte) (b : Byte) :
    Memory.writeList m k (bs ++ [b]) = Memory.write (Memory.writeList m k bs) (k + bs.length) b := by
  induction bs generalizing m k with
  | nil => simp [Memory.writeList]
  | cons c bs ih =>
    simp only [List.cons_append, Memory.writeList, ih, List.length_cons]
    congr 1
    omega

/-- The first `n + 1` bytes of a list, written byte by byte. -/
theorem Memory.writeList_take_succ (m : Memory) (k : Nat) (bs : List Byte) (n : Nat) (h : n < bs.length) :
    Memory.writeList m k (bs.take (n + 1)) = Memory.write (Memory.writeList m k (bs.take n)) (k + n) bs[n] := by
  rw [List.take_add_one, List.getElem?_eq_getElem h, Option.toList_some, Memory.writeList_snoc,
    List.length_take_of_le (Nat.le_of_lt h)]

theorem Memory.bytes_getElem (sp : Space) (m : Memory) (k n j : Nat) (h : j < (Memory.bytes sp m k n).length) :
    (Memory.bytes sp m k n)[j] = Memory.byte sp m (k + j) := by
  rw [Memory.bytes_length] at h
  have := Memory.bytes_get sp m k n j h
  rw [List.getElem?_eq_getElem (by rw [Memory.bytes_length]; exact h)] at this
  exact Option.some.inj this

theorem Memory.le_placedFrom (m : Memory) (n : Nat) : n ≤ Memory.placedFrom m n := by
  induction m generalizing n with
  | nil => exact Nat.le_refl n
  | cons c m ih =>
    rw [Memory.placedFrom]
    split
    · exact Nat.le_of_succ_le (ih (n + 1))
    · exact Nat.le_refl n

theorem Memory.read_of_placedFrom {m : Memory} {n k : Nat} (h1 : n ≤ k) (h2 : k < Memory.placedFrom m n) :
    (Memory.read m k).isSome = true := by
  induction m generalizing n with
  | nil => exact absurd h2 (Nat.not_lt.2 h1)
  | cons c m ih =>
    obtain ⟨a, v⟩ := c
    simp only [Memory.placedFrom] at h2
    rw [Memory.read]
    split
    · rfl
    · next hak =>
      split at h2
      · exact ih (n := n + 1) (by omega) h2
      · omega

/-- A byte that is read stands in the list. -/
theorem Memory.mem_of_read {m : Memory} {k : Nat} {b : Byte} (h : Memory.read m k = some b) : (k, b) ∈ m := by
  induction m with
  | nil => cases h
  | cons c m ih =>
    obtain ⟨a, v⟩ := c
    rw [Memory.read] at h
    split at h
    · next e => cases h; subst e; exact List.mem_cons_self
    · exact List.mem_cons_of_mem _ (ih h)

theorem Memory.placedFrom_of_read {m : Memory} (hw : Memory.wf m) {n j : Nat}
    (h : ∀ k, n ≤ k → k < j → (Memory.read m k).isSome = true) (hl : ∀ c ∈ m, n ≤ c.1) (hj : n ≤ j) :
    j ≤ Memory.placedFrom m n := by
  induction m generalizing n with
  | nil =>
    refine Nat.not_lt.1 fun hlt => ?_
    have := h n (Nat.le_refl n) hlt
    cases this
  | cons c m ih =>
    obtain ⟨a, v⟩ := c
    have hr : ∀ {k}, k ≠ a → Memory.read ((a, v) :: m) k = Memory.read m k := fun hk => by
      rw [Memory.read, if_neg (Ne.symm hk)]
    have hgt : ∀ c ∈ m, a < c.1 := fun c hc => List.rel_of_pairwise_cons hw hc
    rw [Memory.placedFrom]
    rcases Nat.eq_or_lt_of_le hj with rfl | hlt
    · split
      · exact Nat.le_of_succ_le (Memory.le_placedFrom m (n + 1))
      · exact Nat.le_refl n
    · have han : a = n := by
        by_contra hne
        have ha := hl (a, v) List.mem_cons_self
        have hs := h n (Nat.le_refl n) hlt
        rw [hr (Ne.symm hne)] at hs
        obtain ⟨b, hb⟩ := Option.isSome_iff_exists.1 hs
        have hm := Memory.mem_of_read hb
        have := hgt _ hm
        simp only at this ha
        omega
      subst han
      rw [if_pos rfl]
      refine ih (List.Pairwise.of_cons hw) (fun k hk hkj => ?_) (fun c hc => hgt c hc) hlt
      rw [← hr (by omega)]
      exact h k (by omega) hkj

/-- The placed bytes are the longest run from offset 0 in which every byte has been written (R179). -/
theorem Memory.le_placed_iff {m : Memory} (hw : Memory.wf m) (n : Nat) :
    n ≤ m.placed ↔ ∀ k, k < n → (Memory.read m k).isSome = true :=
  ⟨fun h _ hk => Memory.read_of_placedFrom (Nat.zero_le _) (Nat.lt_of_lt_of_le hk h),
    fun h => Memory.placedFrom_of_read hw (fun k _ hk => h k hk) (fun _ _ => Nat.zero_le _) (Nat.zero_le n)⟩

/-- A byte that is written stays written. -/
theorem Memory.isSome_writeList {m : Memory} {j : Nat} (h : (Memory.read m j).isSome = true) (k : Nat) (bs : List Byte) :
    (Memory.read (Memory.writeList m k bs) j).isSome = true := by
  rw [Memory.read_writeList]
  split
  · next hj => rw [List.getElem?_eq_getElem (by omega)]; rfl
  · exact h

/-- What the host has just placed from offset 0 is written. -/
theorem Memory.isSome_writeList_zero (m : Memory) (bs : List Byte) {j : Nat} (h : j < bs.length) :
    (Memory.read (Memory.writeList m 0 bs) j).isSome = true := by
  rw [Memory.read_writeList, if_pos (by omega), List.getElem?_eq_getElem (by omega)]
  rfl

end Sys2Proof.Machine
end

