-- ==== Sys2Proof/Laws/State.lean ====
section
/-! SUPPORT. One lemma per field per update of the state, each true by definition. -/

namespace Sys2Proof.Machine

@[simp] theorem Ser.raise_s_state (u : Ser) (e : Status) : (u.raise e).s_state = .S_DONE := rfl
@[simp] theorem Ser.raise_s_cnt (u : Ser) (e : Status) : (u.raise e).s_cnt = u.s_cnt := rfl
@[simp] theorem Ser.raise_s_ext (u : Ser) (e : Status) : (u.raise e).s_ext = u.s_ext := rfl
@[simp] theorem Ser.raise_s_n (u : Ser) (e : Status) : (u.raise e).s_n = u.s_n := rfl
@[simp] theorem Ser.raise_s_h (u : Ser) (e : Status) : (u.raise e).s_h = u.s_h := rfl
@[simp] theorem Ser.raise_s_desc (u : Ser) (e : Status) : (u.raise e).s_desc = u.s_desc := rfl
@[simp] theorem Ser.raise_s_status (u : Ser) (e : Status) : (u.raise e).s_status = e := rfl
@[simp] theorem Ser.raise_s_txlen (u : Ser) (e : Status) : (u.raise e).s_txlen = 0 := rfl
@[simp] theorem Ser.raise_PIN (u : Ser) (e : Status) : (u.raise e).PIN = u.PIN := rfl
@[simp] theorem Ser.raise_TXBUF (u : Ser) (e : Status) : (u.raise e).TXBUF = u.TXBUF := rfl
@[simp] theorem Ser.raise_s_torn (u : Ser) (e : Status) : (u.raise e).s_torn = u.s_torn := rfl
@[simp] theorem Ser.raise_s_undef (u : Ser) (e : Status) : (u.raise e).s_undef = u.s_undef := rfl
@[simp] theorem Ser.raise_s_draws (u : Ser) (e : Status) : (u.raise e).s_draws = u.s_draws := rfl

@[simp] theorem Ser.finish_s_state (u : Ser) (n : BitVec 17) : (u.finish n).s_state = .S_DONE := rfl
@[simp] theorem Ser.finish_s_cnt (u : Ser) (n : BitVec 17) : (u.finish n).s_cnt = u.s_cnt := rfl
@[simp] theorem Ser.finish_s_ext (u : Ser) (n : BitVec 17) : (u.finish n).s_ext = u.s_ext := rfl
@[simp] theorem Ser.finish_s_n (u : Ser) (n : BitVec 17) : (u.finish n).s_n = u.s_n := rfl
@[simp] theorem Ser.finish_s_h (u : Ser) (n : BitVec 17) : (u.finish n).s_h = u.s_h := rfl
@[simp] theorem Ser.finish_s_desc (u : Ser) (n : BitVec 17) : (u.finish n).s_desc = u.s_desc := rfl
@[simp] theorem Ser.finish_s_status (u : Ser) (n : BitVec 17) : (u.finish n).s_status = .OK := rfl
@[simp] theorem Ser.finish_s_txlen (u : Ser) (n : BitVec 17) : (u.finish n).s_txlen = n := rfl
@[simp] theorem Ser.finish_PIN (u : Ser) (n : BitVec 17) : (u.finish n).PIN = u.PIN := rfl
@[simp] theorem Ser.finish_TXBUF (u : Ser) (n : BitVec 17) : (u.finish n).TXBUF = u.TXBUF := rfl
@[simp] theorem Ser.finish_s_torn (u : Ser) (n : BitVec 17) : (u.finish n).s_torn = u.s_torn := rfl
@[simp] theorem Ser.finish_s_undef (u : Ser) (n : BitVec 17) : (u.finish n).s_undef = u.s_undef := rfl
@[simp] theorem Ser.finish_s_draws (u : Ser) (n : BitVec 17) : (u.finish n).s_draws = u.s_draws := rfl

@[simp] theorem Ser.hostFill_s_state (u : Ser) (k : Nat) (bs : List Byte) : (u.hostFill k bs).s_state = u.s_state := rfl
@[simp] theorem Ser.hostFill_s_cnt (u : Ser) (k : Nat) (bs : List Byte) : (u.hostFill k bs).s_cnt = u.s_cnt := rfl
@[simp] theorem Ser.hostFill_s_ext (u : Ser) (k : Nat) (bs : List Byte) : (u.hostFill k bs).s_ext = u.s_ext := rfl
@[simp] theorem Ser.hostFill_s_n (u : Ser) (k : Nat) (bs : List Byte) : (u.hostFill k bs).s_n = u.s_n := rfl
@[simp] theorem Ser.hostFill_s_h (u : Ser) (k : Nat) (bs : List Byte) : (u.hostFill k bs).s_h = u.s_h := rfl
@[simp] theorem Ser.hostFill_s_desc (u : Ser) (k : Nat) (bs : List Byte) : (u.hostFill k bs).s_desc = u.s_desc := rfl
@[simp] theorem Ser.hostFill_s_status (u : Ser) (k : Nat) (bs : List Byte) : (u.hostFill k bs).s_status = u.s_status := rfl
@[simp] theorem Ser.hostFill_s_txlen (u : Ser) (k : Nat) (bs : List Byte) : (u.hostFill k bs).s_txlen = u.s_txlen := rfl
@[simp] theorem Ser.hostFill_PIN (u : Ser) (k : Nat) (bs : List Byte) : (u.hostFill k bs).PIN = Memory.writeList u.PIN k bs := rfl
@[simp] theorem Ser.hostFill_TXBUF (u : Ser) (k : Nat) (bs : List Byte) : (u.hostFill k bs).TXBUF = u.TXBUF := rfl
@[simp] theorem Ser.hostFill_s_torn (u : Ser) (k : Nat) (bs : List Byte) : (u.hostFill k bs).s_torn = (u.s_torn || (u.s_busy && !bs.isEmpty)) := rfl
@[simp] theorem Ser.hostFill_s_undef (u : Ser) (k : Nat) (bs : List Byte) : (u.hostFill k bs).s_undef = u.s_undef := rfl
@[simp] theorem Ser.hostFill_s_draws (u : Ser) (k : Nat) (bs : List Byte) : (u.hostFill k bs).s_draws = u.s_draws := rfl

@[simp] theorem Ser.resetStep_s_state (u : Ser) : (u.resetStep).s_state = .S_IDLE := rfl
@[simp] theorem Ser.resetStep_s_cnt (u : Ser) : (u.resetStep).s_cnt = 0 := rfl
@[simp] theorem Ser.resetStep_s_ext (u : Ser) : (u.resetStep).s_ext = freeFlag .SER (u.s_draws + 7) := rfl
@[simp] theorem Ser.resetStep_s_n (u : Ser) : (u.resetStep).s_n = Config.freeBits .SER 16 (u.s_draws + 6) := rfl
@[simp] theorem Ser.resetStep_s_h (u : Ser) : (u.resetStep).s_h = freeHeader .SER u.s_draws := rfl
@[simp] theorem Ser.resetStep_s_desc (u : Ser) : (u.resetStep).s_desc = freeDesc (u.s_draws + 8) := rfl
@[simp] theorem Ser.resetStep_s_status (u : Ser) : (u.resetStep).s_status = .OK := rfl
@[simp] theorem Ser.resetStep_s_txlen (u : Ser) : (u.resetStep).s_txlen = 0 := rfl
@[simp] theorem Ser.resetStep_PIN (u : Ser) : (u.resetStep).PIN = u.PIN := rfl
@[simp] theorem Ser.resetStep_TXBUF (u : Ser) : (u.resetStep).TXBUF = u.TXBUF := rfl
@[simp] theorem Ser.resetStep_s_torn (u : Ser) : (u.resetStep).s_torn = false := rfl
@[simp] theorem Ser.resetStep_s_undef (u : Ser) : (u.resetStep).s_undef = (u.s_undef || u.s_busy) := rfl
@[simp] theorem Ser.resetStep_s_draws (u : Ser) : (u.resetStep).s_draws = u.s_draws + 19 := rfl

@[simp] theorem Par.raise_p_state (u : Par) (e : Status) : (u.raise e).p_state = .P_DONE := rfl
@[simp] theorem Par.raise_p_cnt (u : Par) (e : Status) : (u.raise e).p_cnt = u.p_cnt := rfl
@[simp] theorem Par.raise_p_hdronly (u : Par) (e : Status) : (u.raise e).p_hdronly = u.p_hdronly := rfl
@[simp] theorem Par.raise_p_avail (u : Par) (e : Status) : (u.raise e).p_avail = u.p_avail := rfl
@[simp] theorem Par.raise_p_hdr (u : Par) (e : Status) : (u.raise e).p_hdr = u.p_hdr := rfl
@[simp] theorem Par.raise_p_status (u : Par) (e : Status) : (u.raise e).p_status = e := rfl
@[simp] theorem Par.raise_p_kind (u : Par) (e : Status) : (u.raise e).p_kind = .NONE := rfl
@[simp] theorem Par.raise_p_consumed (u : Par) (e : Status) : (u.raise e).p_consumed = 0 := rfl
@[simp] theorem Par.raise_RXBUF (u : Par) (e : Status) : (u.raise e).RXBUF = u.RXBUF := rfl
@[simp] theorem Par.raise_POUT (u : Par) (e : Status) : (u.raise e).POUT = u.POUT := rfl
@[simp] theorem Par.raise_p_torn (u : Par) (e : Status) : (u.raise e).p_torn = u.p_torn := rfl
@[simp] theorem Par.raise_p_undef (u : Par) (e : Status) : (u.raise e).p_undef = u.p_undef := rfl
@[simp] theorem Par.raise_p_draws (u : Par) (e : Status) : (u.raise e).p_draws = u.p_draws := rfl

@[simp] theorem Par.finish_p_state (u : Par) (k : Kind) (n : BitVec 17) : (u.finish k n).p_state = .P_DONE := rfl
@[simp] theorem Par.finish_p_cnt (u : Par) (k : Kind) (n : BitVec 17) : (u.finish k n).p_cnt = u.p_cnt := rfl
@[simp] theorem Par.finish_p_hdronly (u : Par) (k : Kind) (n : BitVec 17) : (u.finish k n).p_hdronly = u.p_hdronly := rfl
@[simp] theorem Par.finish_p_avail (u : Par) (k : Kind) (n : BitVec 17) : (u.finish k n).p_avail = u.p_avail := rfl
@[simp] theorem Par.finish_p_hdr (u : Par) (k : Kind) (n : BitVec 17) : (u.finish k n).p_hdr = u.p_hdr := rfl
@[simp] theorem Par.finish_p_status (u : Par) (k : Kind) (n : BitVec 17) : (u.finish k n).p_status = .OK := rfl
@[simp] theorem Par.finish_p_kind (u : Par) (k : Kind) (n : BitVec 17) : (u.finish k n).p_kind = k := rfl
@[simp] theorem Par.finish_p_consumed (u : Par) (k : Kind) (n : BitVec 17) : (u.finish k n).p_consumed = n := rfl
@[simp] theorem Par.finish_RXBUF (u : Par) (k : Kind) (n : BitVec 17) : (u.finish k n).RXBUF = u.RXBUF := rfl
@[simp] theorem Par.finish_POUT (u : Par) (k : Kind) (n : BitVec 17) : (u.finish k n).POUT = u.POUT := rfl
@[simp] theorem Par.finish_p_torn (u : Par) (k : Kind) (n : BitVec 17) : (u.finish k n).p_torn = u.p_torn := rfl
@[simp] theorem Par.finish_p_undef (u : Par) (k : Kind) (n : BitVec 17) : (u.finish k n).p_undef = u.p_undef := rfl
@[simp] theorem Par.finish_p_draws (u : Par) (k : Kind) (n : BitVec 17) : (u.finish k n).p_draws = u.p_draws := rfl

@[simp] theorem Par.hostFill_p_state (u : Par) (k : Nat) (bs : List Byte) : (u.hostFill k bs).p_state = u.p_state := rfl
@[simp] theorem Par.hostFill_p_cnt (u : Par) (k : Nat) (bs : List Byte) : (u.hostFill k bs).p_cnt = u.p_cnt := rfl
@[simp] theorem Par.hostFill_p_hdronly (u : Par) (k : Nat) (bs : List Byte) : (u.hostFill k bs).p_hdronly = u.p_hdronly := rfl
@[simp] theorem Par.hostFill_p_avail (u : Par) (k : Nat) (bs : List Byte) : (u.hostFill k bs).p_avail = u.p_avail := rfl
@[simp] theorem Par.hostFill_p_hdr (u : Par) (k : Nat) (bs : List Byte) : (u.hostFill k bs).p_hdr = u.p_hdr := rfl
@[simp] theorem Par.hostFill_p_status (u : Par) (k : Nat) (bs : List Byte) : (u.hostFill k bs).p_status = u.p_status := rfl
@[simp] theorem Par.hostFill_p_kind (u : Par) (k : Nat) (bs : List Byte) : (u.hostFill k bs).p_kind = u.p_kind := rfl
@[simp] theorem Par.hostFill_p_consumed (u : Par) (k : Nat) (bs : List Byte) : (u.hostFill k bs).p_consumed = u.p_consumed := rfl
@[simp] theorem Par.hostFill_RXBUF (u : Par) (k : Nat) (bs : List Byte) : (u.hostFill k bs).RXBUF = Memory.writeList u.RXBUF k bs := rfl
@[simp] theorem Par.hostFill_POUT (u : Par) (k : Nat) (bs : List Byte) : (u.hostFill k bs).POUT = u.POUT := rfl
@[simp] theorem Par.hostFill_p_torn (u : Par) (k : Nat) (bs : List Byte) : (u.hostFill k bs).p_torn = (u.p_torn || (u.p_busy && !bs.isEmpty)) := rfl
@[simp] theorem Par.hostFill_p_undef (u : Par) (k : Nat) (bs : List Byte) : (u.hostFill k bs).p_undef = u.p_undef := rfl
@[simp] theorem Par.hostFill_p_draws (u : Par) (k : Nat) (bs : List Byte) : (u.hostFill k bs).p_draws = u.p_draws := rfl

@[simp] theorem Par.resetStep_p_state (u : Par) : (u.resetStep).p_state = .P_IDLE := rfl
@[simp] theorem Par.resetStep_p_cnt (u : Par) : (u.resetStep).p_cnt = 0 := rfl
@[simp] theorem Par.resetStep_p_hdronly (u : Par) : (u.resetStep).p_hdronly = freeFlag .PAR (u.p_draws + 6) := rfl
@[simp] theorem Par.resetStep_p_avail (u : Par) : (u.resetStep).p_avail = (Config.freeBits .PAR Config.availW (u.p_draws + 7)).toNat := rfl
@[simp] theorem Par.resetStep_p_hdr (u : Par) : (u.resetStep).p_hdr = freeHeader .PAR u.p_draws := rfl
@[simp] theorem Par.resetStep_p_status (u : Par) : (u.resetStep).p_status = .OK := rfl
@[simp] theorem Par.resetStep_p_kind (u : Par) : (u.resetStep).p_kind = .NONE := rfl
@[simp] theorem Par.resetStep_p_consumed (u : Par) : (u.resetStep).p_consumed = 0 := rfl
@[simp] theorem Par.resetStep_RXBUF (u : Par) : (u.resetStep).RXBUF = u.RXBUF := rfl
@[simp] theorem Par.resetStep_POUT (u : Par) : (u.resetStep).POUT = u.POUT := rfl
@[simp] theorem Par.resetStep_p_torn (u : Par) : (u.resetStep).p_torn = false := rfl
@[simp] theorem Par.resetStep_p_undef (u : Par) : (u.resetStep).p_undef = (u.p_undef || u.p_busy) := rfl
@[simp] theorem Par.resetStep_p_draws (u : Par) : (u.resetStep).p_draws = u.p_draws + 8 := rfl

@[simp] theorem State.serTurn_ser (u : State) : (u.serTurn).ser = u.ser.tick := rfl
@[simp] theorem State.serTurn_par (u : State) : (u.serTurn).par = u.par := rfl
@[simp] theorem State.serTurn_ret (u : State) : (u.serTurn).ret = u.ret := rfl
@[simp] theorem State.serTurn_inputs (u : State) : (u.serTurn).inputs = u.inputs := rfl

@[simp] theorem State.parTurn_ser (u : State) : (u.parTurn).ser = u.ser := rfl
@[simp] theorem State.parTurn_par (u : State) : (u.parTurn).par = u.par.tick := rfl
@[simp] theorem State.parTurn_ret (u : State) : (u.parTurn).ret = u.ret := rfl
@[simp] theorem State.parTurn_inputs (u : State) : (u.parTurn).inputs = u.inputs := rfl

@[simp] theorem State.clock_ser (u : State) : (u.clock).ser = u.ser.tick := rfl
@[simp] theorem State.clock_par (u : State) : (u.clock).par = u.par.tick := rfl
@[simp] theorem State.clock_ret (u : State) : (u.clock).ret = u.ret := rfl
@[simp] theorem State.clock_inputs (u : State) : (u.clock).inputs = u.inputs := rfl

@[simp] theorem State.withFetchWord_ser (u : State) (nbits w : Nat) : (u.withFetchWord nbits w).ser = u.ser := rfl
@[simp] theorem State.withFetchWord_par (u : State) (nbits w : Nat) : (u.withFetchWord nbits w).par = u.par := rfl
@[simp] theorem State.withFetchWord_ret (u : State) (nbits w : Nat) : (u.withFetchWord nbits w).ret = u.ret := rfl
@[simp] theorem State.withFetchWord_inputs (u : State) (nbits w : Nat) : (u.withFetchWord nbits w).inputs = .present (presentedOfTableWord nbits w) :: u.inputs := rfl

end Sys2Proof.Machine
end

