-- ==== Sys2Proof/Laws/Ser.lean ====
section
/-! SUPPORT. What SER's steps do: a unit that is not busy has none, and after an accepted start the
state after `n` steps is known outright. -/

namespace Sys2Proof.Machine

/-- Not busy: no step. -/
theorem Ser.tick_of_not_busy {u : Ser} (h : u.s_busy = false) : u.tick = u := by
  unfold Ser.tick
  cases hs : u.s_state <;> simp [Ser.s_busy, hs] at h <;> rfl

theorem Ser.iterate_of_not_busy {u : Ser} (h : u.s_busy = false) (n : Nat) : Ser.tick^[n] u = u := by
  induction n with
  | zero => rfl
  | succ n ih => rw [Function.iterate_succ_apply, Ser.tick_of_not_busy h, ih]

/-- A run is that many steps. -/
theorem Ser.run_eq_iterate (n : Nat) (u : Ser) : u.run n = Ser.tick^[n] u := by
  induction n generalizing u with
  | zero => rfl
  | succ n ih =>
    rw [Ser.run, Function.iterate_succ_apply]
    split
    · exact ih _
    · next h => rw [Bool.not_eq_true] at h; rw [Ser.tick_of_not_busy h, Ser.iterate_of_not_busy h]

/-- SER has just accepted a start. -/
structure Ser.Started (u : Ser) : Prop where
  state : u.s_state = .S_HDR
  cnt : u.s_cnt = 0
  torn : u.s_torn = false
  inline_n : u.s_ext = false → u.s_n = 0

/-- The frame of the operation that has started: the header, and the payload in PIN. -/
def Ser.frame (u : Ser) : List Byte := u.s_h.toList ++ Memory.bytes .PIN u.PIN 0 u.s_n.toNat

theorem Ser.frame_length (u : Ser) : u.frame.length = 6 + u.s_n.toNat := by
  simp [Ser.frame, Memory.bytes_length]

/-- SER after `n` steps of an operation that has started. -/
def Ser.progress (u : Ser) (n : Nat) : Ser :=
  if n < 6 + u.s_n.toNat then
    { u with
      TXBUF := Memory.writeList u.TXBUF 0 (u.frame.take n), s_cnt := BitVec.ofNat 17 n
      s_state := if n < 6 then .S_HDR else .S_BODY }
  else
    { u with
      TXBUF := Memory.writeList u.TXBUF 0 u.frame, s_cnt := BitVec.ofNat 17 (6 + u.s_n.toNat)
      s_state := .S_DONE, s_status := .OK, s_txlen := BitVec.ofNat 17 (6 + u.s_n.toNat) }

theorem toNat_ofNat17 {n : Nat} (h : n ≤ 65541) : (BitVec.ofNat 17 n).toNat = n := by
  rw [BitVec.toNat_ofNat]; exact Nat.mod_eq_of_lt (by omega)

theorem Ser.frameLen_toNat (u : Ser) : u.frameLen.toNat = 6 + u.s_n.toNat := by
  have := u.s_n.isLt
  rw [Ser.frameLen, BitVec.toNat_add, BitVec.toNat_setWidth, show (6 : BitVec 17).toNat = 6 from rfl]
  omega

theorem succ_cnt {u n : Nat} {c : BitVec 17} (hc : c.toNat = u) (hu : u ≤ 65540) :
    (c + 1 = BitVec.ofNat 17 n ↔ u + 1 = n % 2 ^ 17) ∧ c + 1 = BitVec.ofNat 17 (u + 1) := by
  constructor
  · rw [← BitVec.toNat_inj, BitVec.toNat_add, hc, BitVec.toNat_ofNat, show (1 : BitVec 17).toNat = 1 from rfl]
    omega
  · apply BitVec.eq_of_toNat_eq
    rw [BitVec.toNat_add, hc, BitVec.toNat_ofNat]
    rfl

/-- One header step, by its counter. -/
theorem Ser.headerStep_eq (u : Ser) (k : Nat) (hk : k < 6) (hc : u.s_cnt.toNat = k) (h : u.s_cnt.toNat < 6) :
    u.headerStep h =
      if k + 1 = 6 then
        if u.s_ext = true ∧ 0 < u.s_n.toNat then
          { u with TXBUF := Memory.write u.TXBUF k u.s_h[k], s_cnt := BitVec.ofNat 17 (k + 1), s_state := .S_BODY }
        else
          { u with
            TXBUF := Memory.write u.TXBUF k u.s_h[k], s_cnt := BitVec.ofNat 17 (k + 1)
            s_status := .OK, s_txlen := 6, s_state := .S_DONE }
      else { u with TXBUF := Memory.write u.TXBUF k u.s_h[k], s_cnt := BitVec.ofNat 17 (k + 1) } := by
  have h1 := (succ_cnt (n := 6) hc (by omega)).1
  have h2 := (succ_cnt (n := 6) hc (by omega)).2
  subst hc
  simp only [Ser.headerStep, Ser.finish]
  rw [h2] at h1 ⊢
  have e6 : (6 : BitVec 17) = BitVec.ofNat 17 6 := rfl
  rw [e6]
  by_cases hx : u.s_cnt.toNat + 1 = 6
  · rw [if_pos (h1.2 (by omega)), if_pos hx]
    simp only [Bool.and_eq_true, decide_eq_true_eq, BitVec.lt_def, show (0 : U16).toNat = 0 from rfl]
  · rw [if_neg (fun e => hx (by have := h1.1 e; omega)), if_neg hx]

/-- One body step, by its counter. -/
theorem Ser.bodyStep_eq (u : Ser) (k : Nat) (h6 : 6 ≤ k) (hk : k < 6 + u.s_n.toNat) (hc : u.s_cnt.toNat = k)
    (ht : u.s_torn = false) :
    u.bodyStep =
      if k + 1 = 6 + u.s_n.toNat then
        { u with
          TXBUF := Memory.write u.TXBUF k (Memory.byte .PIN u.PIN (k - 6)), s_cnt := BitVec.ofNat 17 (k + 1)
          s_status := .OK, s_txlen := u.frameLen, s_state := .S_DONE }
      else
        { u with
          TXBUF := Memory.write u.TXBUF k (Memory.byte .PIN u.PIN (k - 6)), s_cnt := BitVec.ofNat 17 (k + 1) } := by
  have hn := u.s_n.isLt
  have h2 := (succ_cnt (n := 6) hc (by omega)).2
  have h3 : (u.s_cnt - 6).toNat = k - 6 := by
    have : u.s_cnt.toNat < 2 ^ 17 := u.s_cnt.isLt
    rw [BitVec.toNat_sub, hc, show (6 : BitVec 17).toNat = 6 from rfl]
    omega
  have h4 : (BitVec.ofNat 17 (k + 1) = u.frameLen) ↔ k + 1 = 6 + u.s_n.toNat := by
    rw [← BitVec.toNat_inj, Ser.frameLen_toNat, toNat_ofNat17 (by omega)]
  simp only [Ser.bodyStep, Ser.finish, h2, h3, hc, Ser.pinData, Ser.drawn, ht, Bool.false_eq_true, if_false, h4]

/-- The state after `n` steps of an operation that has started (R95, R96). -/
theorem Ser.iterate_of_started {u : Ser} (h : u.Started) (n : Nat) : Ser.tick^[n] u = u.progress n := by
  have hn := u.s_n.isLt
  induction n with
  | zero =>
    have : Memory.writeList u.TXBUF 0 (u.frame.take 0) = u.TXBUF := rfl
    simp only [Function.iterate_zero, id_eq, Ser.progress, this, if_pos (show (0 : Nat) < 6 + u.s_n.toNat by omega),
      if_pos (show (0 : Nat) < 6 by omega), ← h.state]
    rw [show BitVec.ofNat 17 0 = u.s_cnt from h.cnt.symm]
  | succ n ih =>
    rw [Function.iterate_succ_apply', ih]
    by_cases hlt : n < 6 + u.s_n.toNat
    · have hfl : n < u.frame.length := by rw [Ser.frame_length]; exact hlt
      have hcn : (BitVec.ofNat 17 n).toNat = n := toNat_ofNat17 (by omega)
      have hw := Memory.writeList_take_succ u.TXBUF 0 u.frame n hfl
      rw [Nat.zero_add] at hw
      by_cases h6 : n < 6
      · have hf : u.frame[n] = u.s_h[n] := by
          simp only [Ser.frame]; rw [List.getElem_append_left (by simpa using h6)]; simp
        have hp : u.progress n = { u with
            TXBUF := Memory.writeList u.TXBUF 0 (u.frame.take n), s_cnt := BitVec.ofNat 17 n, s_state := .S_HDR } := by
          rw [Ser.progress, if_pos hlt, if_pos h6]
        rw [hp]
        simp only [Ser.tick, hcn, h6, dite_true]
        rw [Ser.headerStep_eq _ n h6 (by exact hcn)]
        simp only [← hf, ← hw]
        by_cases h5 : n + 1 = 6
        · rw [if_pos h5]
          by_cases hx : 0 < u.s_n.toNat
          · have he : u.s_ext = true := by
              cases hb : u.s_ext
              · rw [h.inline_n hb] at hx; exact absurd hx (by decide)
              · rfl
            rw [if_pos ⟨he, hx⟩, Ser.progress, if_pos (by omega), if_neg (by omega)]
          · rw [if_neg (fun e => hx e.2), Ser.progress, if_neg (by omega),
              List.take_of_length_le (by rw [Ser.frame_length]; omega), show 6 + u.s_n.toNat = 6 by omega, h5]
            rfl
        · rw [if_neg h5, Ser.progress, if_pos (by omega), if_pos (by omega)]
      · have hf : u.frame[n] = Memory.byte .PIN u.PIN (n - 6) := by
          simp only [Ser.frame]
          rw [List.getElem_append_right (by simpa using h6), Memory.bytes_getElem]
          simp
        have hp : u.progress n = { u with
            TXBUF := Memory.writeList u.TXBUF 0 (u.frame.take n), s_cnt := BitVec.ofNat 17 n, s_state := .S_BODY } := by
          rw [Ser.progress, if_pos hlt, if_neg h6]
        rw [hp]
        simp only [Ser.tick, BitVec.lt_def, Ser.frameLen_toNat, hcn]
        rw [if_pos ⟨by omega, hlt⟩, Ser.bodyStep_eq _ n (by omega) (by exact hlt) (by exact hcn) (by exact h.torn)]
        simp only [← hf, ← hw]
        by_cases h5 : n + 1 = 6 + u.s_n.toNat
        · have ht : u.frame.take (n + 1) = u.frame := List.take_of_length_le (by rw [Ser.frame_length]; omega)
          have hf : BitVec.ofNat 17 (n + 1) = u.frameLen := by
            apply BitVec.eq_of_toNat_eq
            rw [Ser.frameLen_toNat, toNat_ofNat17 (by omega), h5]
          rw [if_pos h5, Ser.progress, if_neg (by omega), ht, ← h5, hf]
          rfl
        · rw [if_neg h5, Ser.progress, if_pos (by omega), if_neg (by omega)]
    · have : u.progress n = u.progress (n + 1) := by
        rw [Ser.progress, Ser.progress, if_neg hlt, if_neg (by omega)]
      rw [← this]
      apply Ser.tick_of_not_busy
      rw [Ser.progress, if_neg hlt]
      rfl

end Sys2Proof.Machine
end

