-- ==== Sys2Proof/Laws/Par.lean ====
section
/-! SUPPORT. What PAR's steps do: a unit that is not busy has none; after an accepted start the state
after each step is known outright, through the header, the dispatch and the body. -/

namespace Sys2Proof.Machine

/-- Not busy: no step. -/
theorem Par.tick_of_not_busy {u : Par} (h : u.p_busy = false) : u.tick = u := by
  unfold Par.tick
  cases hs : u.p_state <;> simp [Par.p_busy, hs] at h <;> rfl

theorem Par.iterate_of_not_busy {u : Par} (h : u.p_busy = false) (n : Nat) : Par.tick^[n] u = u := by
  induction n with
  | zero => rfl
  | succ n ih => rw [Function.iterate_succ_apply, Par.tick_of_not_busy h, ih]

/-- A run is that many steps. -/
theorem Par.run_eq_iterate (n : Nat) (u : Par) : u.run n = Par.tick^[n] u := by
  induction n generalizing u with
  | zero => rfl
  | succ n ih =>
    rw [Par.run, Function.iterate_succ_apply]
    split
    · exact ih _
    · next h => rw [Bool.not_eq_true] at h; rw [Par.tick_of_not_busy h, Par.iterate_of_not_busy h]

theorem Par.frameLen_toNat (u : Par) : u.frameLen.toNat = 6 + u.L.toNat := by
  have := u.L.isLt
  rw [Par.frameLen, BitVec.toNat_add, BitVec.toNat_setWidth, show (6 : BitVec 17).toNat = 6 from rfl]
  omega

/-- PAR has just accepted a start. -/
structure Par.Started (u : Par) : Prop where
  state : u.p_state = .P_HDR
  cnt : u.p_cnt = 0
  torn : u.p_torn = false

/-- The header bytes held when the first `n` have been read. -/
def Par.held (u : Par) (n : Nat) : Vector Byte 6 :=
  Vector.ofFn fun i => if i.val < n then Memory.byte .RXBUF u.RXBUF i.val else u.p_hdr[i.val]

theorem Par.held_zero (u : Par) : u.held 0 = u.p_hdr := by
  apply Vector.ext
  intro i hi
  simp [Par.held]

theorem Par.held_succ (u : Par) (n : Nat) (h : n < 6) :
    (u.held n).set n (Memory.byte .RXBUF u.RXBUF n) = u.held (n + 1) := by
  apply Vector.ext
  intro i hi
  simp only [Par.held, Vector.getElem_set, Vector.getElem_ofFn]
  by_cases h1 : n = i
  · subst h1; rw [if_pos rfl, if_pos (by omega)]
  · rw [if_neg h1]
    by_cases h2 : i < n
    · rw [if_pos h2, if_pos (by omega)]
    · rw [if_neg h2, if_neg (by omega)]

theorem Par.held_six (u : Par) : (u.held 6).toList = Memory.bytes .RXBUF u.RXBUF 0 6 := by
  apply List.ext_getElem
  · simp [Memory.bytes_length]
  · intro i h1 h2
    simp [Par.held, Memory.bytes_getElem]

/-- PAR with the whole header held, and the dispatch on it (R113). -/
def Par.dispatched (u : Par) : Par := Par.dispatch { u with p_hdr := u.held 6, p_cnt := 6 }

/-- One header step, by its counter (R112). -/
theorem Par.headerStep_eq (u : Par) (k : Nat) (hk : k < 6) (hc : u.p_cnt.toNat = k) (ht : u.p_torn = false)
    (h : u.p_cnt.toNat < 6) :
    u.headerStep h =
      if k + 1 = 6 then
        Par.dispatch { u with p_hdr := u.p_hdr.set k (Memory.byte .RXBUF u.RXBUF k), p_cnt := 6 }
      else { u with p_hdr := u.p_hdr.set k (Memory.byte .RXBUF u.RXBUF k), p_cnt := BitVec.ofNat 17 (k + 1) } := by
  have h1 : u.p_cnt + 1 = 6 ↔ k + 1 = 6 % 2 ^ 17 := (succ_cnt (n := 6) hc (by omega)).1
  have h2 := (succ_cnt (n := 6) hc (by omega)).2
  subst hc
  simp only [Par.headerStep, Par.rxData, Par.drawn, ht, Bool.false_eq_true, if_false]
  rw [h2] at h1 ⊢
  by_cases hx : u.p_cnt.toNat + 1 = 6
  · have := h1.2 (by omega)
    rw [if_pos this, if_pos hx, this]
  · rw [if_neg (fun e => hx (by have := h1.1 e; omega)), if_neg hx]

theorem Par.iterate_header {u : Par} (h : u.Started) (n : Nat) (hn : n < 6) :
    Par.tick^[n] u = { u with p_hdr := u.held n, p_cnt := BitVec.ofNat 17 n } := by
  induction n with
  | zero => rw [Par.held_zero, show BitVec.ofNat 17 0 = u.p_cnt from h.cnt.symm]; rfl
  | succ n ih =>
    have hcn : (BitVec.ofNat 17 n).toNat = n := toNat_ofNat17 (by omega)
    have h6 : n < 6 := by omega
    rw [Function.iterate_succ_apply', ih h6]
    simp only [Par.tick, h.state, hcn, h6, dite_true]
    rw [Par.headerStep_eq _ n h6 (by exact hcn) (by exact h.torn), if_neg (by omega)]
    simp only [Par.held_succ u n h6]

/-- After six steps the header is held and dispatched on. -/
theorem Par.iterate_six {u : Par} (h : u.Started) : Par.tick^[6] u = u.dispatched := by
  rw [Function.iterate_succ_apply', Par.iterate_header h 5 (by omega)]
  have hcn : (BitVec.ofNat 17 5).toNat = 5 := rfl
  simp only [Par.tick, h.state, hcn, show (5 : Nat) < 6 by omega, dite_true]
  rw [Par.headerStep_eq _ 5 (by omega) (by exact hcn) (by exact h.torn), if_pos rfl]
  simp only [Par.held_succ u 5 (by omega)]
  rfl

/-- PAR is about to copy the first payload byte. -/
structure Par.InBody (u : Par) : Prop where
  state : u.p_state = .P_BODY
  cnt : u.p_cnt = 6
  torn : u.p_torn = false
  len : 0 < u.L.toNat

/-- The payload bytes that PAR is about to copy. -/
def Par.payload (u : Par) : List Byte := Memory.bytes .RXBUF u.RXBUF 6 u.L.toNat

theorem Par.payload_length (u : Par) : u.payload.length = u.L.toNat := Memory.bytes_length _ _ _ _

/-- PAR after `n` steps of the body. -/
def Par.bodyProgress (u : Par) (n : Nat) : Par :=
  if n < u.L.toNat then
    { u with POUT := Memory.writeList u.POUT 0 (u.payload.take n), p_cnt := BitVec.ofNat 17 (6 + n) }
  else
    { u with
      POUT := Memory.writeList u.POUT 0 u.payload, p_cnt := u.frameLen
      p_state := .P_DONE, p_status := .OK, p_kind := .LONG_FULL, p_consumed := u.frameLen }

/-- One body step, by its counter (R114). -/
theorem Par.bodyStep_eq (u : Par) (k : Nat) (h6 : 6 ≤ k) (hk : k < 6 + u.L.toNat) (hc : u.p_cnt.toNat = k)
    (ht : u.p_torn = false) :
    u.bodyStep =
      if k + 1 = 6 + u.L.toNat then
        { u with
          POUT := Memory.write u.POUT (k - 6) (Memory.byte .RXBUF u.RXBUF k), p_cnt := u.frameLen
          p_status := .OK, p_kind := .LONG_FULL, p_consumed := u.frameLen, p_state := .P_DONE }
      else
        { u with
          POUT := Memory.write u.POUT (k - 6) (Memory.byte .RXBUF u.RXBUF k), p_cnt := BitVec.ofNat 17 (k + 1) } := by
  have hn := u.L.isLt
  have h2 := (succ_cnt (n := 6) hc (by omega)).2
  have h3 : (u.p_cnt - 6).toNat = k - 6 := by
    have : u.p_cnt.toNat < 2 ^ 17 := u.p_cnt.isLt
    rw [BitVec.toNat_sub, hc, show (6 : BitVec 17).toNat = 6 from rfl]
    omega
  have h4 : (BitVec.ofNat 17 (k + 1) = u.frameLen) ↔ k + 1 = 6 + u.L.toNat := by
    rw [← BitVec.toNat_inj, Par.frameLen_toNat, toNat_ofNat17 (by omega)]
  simp only [Par.bodyStep, h2, h3, hc, Par.rxData, Par.drawn, ht, Bool.false_eq_true, if_false]
  change (if BitVec.ofNat 17 (k + 1) = u.frameLen then _ else _) = _
  by_cases h5 : k + 1 = 6 + u.L.toNat
  · have := h4.2 h5
    rw [if_pos this, if_pos h5, this]
    rfl
  · rw [if_neg (fun x => h5 (h4.1 x)), if_neg h5]

theorem Par.iterate_body {u : Par} (h : u.InBody) (n : Nat) : Par.tick^[n] u = u.bodyProgress n := by
  have hL := u.L.isLt
  induction n with
  | zero =>
    have : Memory.writeList u.POUT 0 (u.payload.take 0) = u.POUT := rfl
    rw [Par.bodyProgress, if_pos h.len, this, show BitVec.ofNat 17 (6 + 0) = u.p_cnt from h.cnt.symm]
    rfl
  | succ n ih =>
    rw [Function.iterate_succ_apply', ih]
    by_cases hlt : n < u.L.toNat
    · have hcn : (BitVec.ofNat 17 (6 + n)).toNat = 6 + n := toNat_ofNat17 (by omega)
      have hpl : n < u.payload.length := by rw [Par.payload_length]; exact hlt
      have hw := Memory.writeList_take_succ u.POUT 0 u.payload n hpl
      rw [Nat.zero_add] at hw
      have hf : u.payload[n] = Memory.byte .RXBUF u.RXBUF (6 + n) := Memory.bytes_getElem _ _ _ _ _ hpl
      rw [Par.bodyProgress, if_pos hlt]
      simp only [Par.tick, h.state, BitVec.lt_def, Par.frameLen_toNat, hcn]
      have h6n : 6 + n < 6 + u.L.toNat := by omega
      rw [if_pos ⟨by omega, h6n⟩,
        Par.bodyStep_eq _ (6 + n) (by omega) (by exact h6n) (by exact hcn) (by exact h.torn)]
      simp only [← hf, Nat.add_sub_cancel_left, ← hw]
      change (if 6 + n + 1 = 6 + u.L.toNat then _ else _) = _
      by_cases h5 : n + 1 = u.L.toNat
      · have ht : u.payload.take (n + 1) = u.payload := List.take_of_length_le (by rw [Par.payload_length]; omega)
        rw [if_pos (show 6 + n + 1 = 6 + u.L.toNat by omega), Par.bodyProgress, if_neg (by omega), ht]
        rfl
      · rw [if_neg (show ¬ 6 + n + 1 = 6 + u.L.toNat by omega), Par.bodyProgress, if_pos (by omega)]
        rw [h.state]
        rfl
    · have : u.bodyProgress n = u.bodyProgress (n + 1) := by
        rw [Par.bodyProgress, Par.bodyProgress, if_neg hlt, if_neg (by omega)]
      rw [← this]
      apply Par.tick_of_not_busy
      rw [Par.bodyProgress, if_neg hlt]
      rfl

/-- The length a header declares (R56). -/
theorem Par.L_toNat (u : Par) : u.L.toNat = u.p_hdr[2].toNat + 256 * u.p_hdr[3].toNat := le16_toNat _ _

/-- The five outcomes of the dispatch, in the order of R113. -/
theorem Par.dispatch_short {u : Par} (h : u.long = false) : u.dispatch = u.finish .SHORT 6 := by
  simp [Par.dispatch, h]

theorem Par.dispatch_header {u : Par} (h : u.long = true) (ho : u.p_hdronly = true) :
    u.dispatch = u.finish .LONG_HDR 6 := by
  simp [Par.dispatch, h, ho]

theorem Par.dispatch_truncated {u : Par} (h : u.long = true) (ho : u.p_hdronly = false)
    (ha : u.p_avail < 6 + u.L.toNat) : u.dispatch = u.raise .TruncatedPayload := by
  rw [Par.dispatch, h, ho, if_neg (by simp), if_neg (by simp), if_pos (by exact ha)]

theorem Par.dispatch_empty {u : Par} (h : u.long = true) (ho : u.p_hdronly = false)
    (ha : 6 + u.L.toNat ≤ u.p_avail) (hL : u.L.toNat = 0) : u.dispatch = u.finish .LONG_FULL 6 := by
  rw [Par.dispatch, h, ho, if_neg (by simp), if_neg (by simp), if_neg (by exact Nat.not_lt.2 ha),
    if_pos (BitVec.eq_of_toNat_eq hL)]

theorem Par.dispatch_body {u : Par} (h : u.long = true) (ho : u.p_hdronly = false)
    (ha : 6 + u.L.toNat ≤ u.p_avail) (hL : 0 < u.L.toNat) : u.dispatch = { u with p_state := .P_BODY } := by
  rw [Par.dispatch, h, ho, if_neg (by simp), if_neg (by simp), if_neg (by exact Nat.not_lt.2 ha),
    if_neg (fun e => by rw [e] at hL; exact absurd hL (by decide))]

/-- The dispatch by its case (R113): it ends the operation, or the body begins. -/
theorem Par.dispatch_cases (u : Par) (hc : u.p_cnt = 6) (ht : u.p_torn = false) :
    u.dispatch.InBody ∨ u.dispatch.p_busy = false := by
  unfold Par.dispatch
  cases u.long
  · exact .inr rfl
  · cases hh : u.p_hdronly
    · by_cases ha : u.p_avail < Config.hdrLen + u.L.toNat
      · right; rw [if_pos ha]; rfl
      · rw [if_neg ha]
        by_cases hL : u.L = 0
        · right; rw [if_pos hL]; rfl
        · left
          rw [if_neg hL]
          refine ⟨rfl, hc, ht, ?_⟩
          have : u.L.toNat ≠ 0 := fun e => hL (BitVec.eq_of_toNat_eq e)
          exact Nat.pos_of_ne_zero this
    · exact .inr rfl

end Sys2Proof.Machine
end

