-- ==== Sys2Proof/Laws/PerInstr.lean ====
section
/-! SUPPORT. For every instruction as syntax: what is presented for it lies in the format of its row,
and the row's mask and pattern select it (R54, R60, R61, R64). -/

namespace Sys2Proof.Laws.RowSelected

/-- A row of format HDR48 selects the header word of a frame. -/
def frameRow (r : Row 48) : Presented → Prop
  | .frame (b0 :: b1 :: b2 :: b3 :: b4 :: b5 :: _) => r.selects (headerWord b0 b1 b2 b3 b4 b5) = true
  | _ => False

/-- A row of format PSEL49 selects the parser selector of a decode request. -/
def parseRow (r : Row 49) : Presented → Prop
  | .parse h (b0 :: b1 :: b2 :: b3 :: b4 :: b5 :: _) =>
    r.selects (parserSelector h (headerWord b0 b1 b2 b3 b4 b5)) = true
  | _ => False

/-- A row of format SSEL3 selects the serializer selector of a request. -/
def serializeRow (r : Row 3) : Presented → Prop
  | .serialize d _ => r.selects (serializerSelector d) = true
  | _ => False

/-- The row of the opcode table that an instruction stands for selects what is presented for it. -/
def Statement (i : Instr) : Prop :=
  match i with
  | .frameShort _ => frameRow rowFrameShort (encode i)
  | .frameLong _ _ => frameRow rowFrameLong (encode i)
  | .unpackShort _ _ => parseRow rowUnpackShort (encode i)
  | .unpackLong _ _ => parseRow rowUnpackLong (encode i)
  | .unpackhShort _ _ => parseRow rowUnpackhShort (encode i)
  | .unpackhLong _ _ => parseRow rowUnpackhLong (encode i)
  | .unpackMalformed h buf => encode i = .parse h buf ∧ (i.wellFormed = true → buf.length < 6)
  | .packInline _ _ _ => serializeRow rowPackInline (encode i)
  | .packExt _ _ => serializeRow rowPackExt (encode i)
  | .constructConflictP1 _ _ _ => serializeRow rowConflictP1 (encode i)
  | .constructConflictP2 _ _ _ => serializeRow rowConflictP2 (encode i)
  | .construct r => encode i = .request r
  | .msgeq m1 m2 => encode i = .messages m1 m2
  | .startSer d => encode i = .sStart d
  | .startPar d => encode i = .pStart d
  | .reset => encode i = .rst

theorem frameShort (h : ShortHdr) : Statement (.frameShort h) := by
  show rowFrameShort.selects _ = true
  rw [rowFrameShort_selects, long_short_dest]; rfl

theorem frameLong (h : LongHdr) (payload : List Byte) : Statement (.frameLong h payload) := by
  show rowFrameLong.selects _ = true
  rw [rowFrameLong_selects, long_long_dest]

theorem unpackShort (h : ShortHdr) (rest : List Byte) : Statement (.unpackShort h rest) := by
  show rowUnpackShort.selects _ = true
  rw [rowUnpackShort_selects, long_short_dest]; rfl

theorem unpackLong (h : LongHdr) (rest : List Byte) : Statement (.unpackLong h rest) := by
  show rowUnpackLong.selects _ = true
  rw [rowUnpackLong_selects, long_long_dest]; rfl

theorem unpackhShort (h : ShortHdr) (rest : List Byte) : Statement (.unpackhShort h rest) := by
  show rowUnpackhShort.selects _ = true
  rw [rowUnpackhShort_selects, long_short_dest]; rfl

theorem unpackhLong (h : LongHdr) (rest : List Byte) : Statement (.unpackhLong h rest) := by
  show rowUnpackhLong.selects _ = true
  rw [rowUnpackhLong_selects, long_long_dest]; rfl

theorem unpackMalformed (h : Bool) (buf : List Byte) : Statement (.unpackMalformed h buf) :=
  ⟨rfl, fun h => of_decide_eq_true h⟩

theorem packInline (p1 p2 : Bool) (f : SerFields) : Statement (.packInline p1 p2 f) :=
  rowPackInline_selects (f.inlineDesc p1 p2)

theorem packExt (f : SerFields) (payload : List Byte) : Statement (.packExt f payload) :=
  rowPackExt_selects (f.payloadDesc false false)

theorem constructConflictP1 (p2 : Bool) (f : SerFields) (payload : List Byte) :
    Statement (.constructConflictP1 p2 f payload) :=
  rowConflictP1_selects (f.payloadDesc true p2)

theorem constructConflictP2 (p1 : Bool) (f : SerFields) (payload : List Byte) :
    Statement (.constructConflictP2 p1 f payload) :=
  rowConflictP2_selects (f.payloadDesc p1 true)

theorem construct (r : RawRequest) : Statement (.construct r) := rfl

theorem msgeq (m1 m2 : LogicalMessage) : Statement (.msgeq m1 m2) := rfl

theorem startSer (d : SerDesc) : Statement (.startSer d) := rfl

theorem startPar (d : ParDesc) : Statement (.startPar d) := rfl

theorem reset : Statement .reset := rfl

end Sys2Proof.Laws.RowSelected
end

