-- ==== Sys2Proof/Laws/Run.lean ====
section
/-! SUPPORT. Runs of the machine step by step, and what a step does with the next move;
a run that is over stays over (R141). -/

namespace Sys2Proof.Machine

theorem run_of_step (M : Host.Core) {n : Nat} {s t : M.State} (h : M.step s = .next t) :
    M.run (n + 1) s = M.run n t := by
  simp [Host.Core.run, h]

theorem run_succ {n : Nat} {s t : State} (h : step s = .next t) :
    Sys2Proof.core.run (n + 1) s = Sys2Proof.core.run n t :=
  run_of_step Sys2Proof.core h

theorem run_zero (s : State) : Sys2Proof.core.run 0 s = .next s := rfl

/-- With a move to come, the step makes it. -/
theorem step_of_inputs {s : State} {t : Turn} {rest : List Turn} (h : s.inputs = t :: rest) :
    step s = turn t { s with inputs := rest } := by
  simp [step, stepTurn, h]

/-- With no move to come, the step is the clock. -/
theorem step_of_no_inputs {s : State} (h : s.inputs = []) : step s = .next s.clock := by
  simp [step, stepTurn, h]

/-- Every instruction answers a next state and leaves the moves to come alone. -/
theorem exec_next (i : Instr) (s : State) : ∃ t, exec i s = .next t ∧ t.inputs = s.inputs := by
  cases i <;> exact ⟨_, rfl, rfl⟩

/-- An instruction that presents no start leaves a unit that is not busy not busy. -/
theorem exec_not_busy {i : Instr} (hs : startsSer i = false) (hp : startsPar i = false) {s t : State}
    (h : exec i s = .next t) (bs : s.ser.s_busy = false) (bp : s.par.p_busy = false) :
    t.ser.s_busy = false ∧ t.par.p_busy = false := by
  cases i <;> first | cases hs; done | cases hp; done | (cases h; exact ⟨by first | exact bs | rfl, by first | exact bp | rfl⟩)

theorem State.over_iff (s : State) :
    s.over = true ↔ s.ser.s_busy = false ∧ s.par.p_busy = false ∧ ∀ t ∈ s.inputs, t.presentsStart = false := by
  simp [State.over, and_assoc]

/-- A run that is over stays over (R141). -/
theorem over_of_step {s t : State} (ho : s.over = true) (h : step s = .next t) : t.over = true := by
  rw [State.over_iff] at ho ⊢
  obtain ⟨bs, bp, hi⟩ := ho
  have ts : s.ser.tick = s.ser := Ser.tick_of_not_busy bs
  have tp : s.par.tick = s.par := Par.tick_of_not_busy bp
  cases e : s.inputs with
  | nil =>
    rw [step_of_no_inputs e] at h
    cases h
    exact ⟨by simpa [State.clock, ts] using bs, by simpa [State.clock, tp] using bp, hi⟩
  | cons m rest =>
    rw [step_of_inputs e] at h
    rw [e] at hi
    have hr : ∀ t ∈ rest, t.presentsStart = false := fun t ht => hi t (List.mem_cons_of_mem _ ht)
    have hm := hi m List.mem_cons_self
    cases m with
    | present w =>
      simp only [turn, present] at h
      simp only [Turn.presentsStart] at hm
      split at h
      · next i hd =>
        rw [hd] at hm
        obtain ⟨h1, h2⟩ := Bool.or_eq_false_iff.1 hm
        split at h
        case isFalse => cases h
        obtain ⟨b1, b2⟩ := exec_not_busy h1 h2 h bs bp
        obtain ⟨t', ht', hin⟩ := exec_next i { s with inputs := rest }
        rw [h] at ht'
        cases ht'
        exact ⟨b1, b2, by rw [hin]; exact hr⟩
      · cases h
    | fillRx k b => cases h; exact ⟨bs, bp, hr⟩
    | fillPin k b => cases h; exact ⟨bs, bp, hr⟩
    | ser => cases h; exact ⟨by simpa [State.serTurn, ts] using bs, bp, hr⟩
    | par => cases h; exact ⟨bs, by simpa [State.parTurn, tp] using bp, hr⟩

end Sys2Proof.Machine
end

