-- ==== Sys2Proof/Laws/Start.lean ====
section
/-! SUPPORT. The start steps by their cases (R94, R111), and where a whole operation ends. -/

namespace Sys2Proof.Machine

theorem Ser.start_of_busy {u : Ser} (h : u.s_busy = true) (d : SerDesc) : u.start d = u := by
  rw [Ser.start, if_pos h]

/-- Refused: a payload and a parameter are both present. -/
theorem Ser.start_conflict {u : Ser} (h : u.s_busy = false) {d : SerDesc} (hp : d.d_has_pld = true)
    (hc : d.d_has_p1 = true ∨ d.d_has_p2 = true) :
    u.start d = { u with
      s_desc := d, s_torn := false, s_status := .InvalidConstruction, s_txlen := 0, s_state := .S_DONE } := by
  have : (d.d_has_pld && (d.d_has_p1 || d.d_has_p2)) = true := by rcases hc with hc | hc <;> simp [hp, hc]
  rw [Ser.start, if_neg (by simp [h]), if_pos this]
  rfl

/-- Refused: the payload is too long. -/
theorem Ser.start_tooLong {u : Ser} (h : u.s_busy = false) {d : SerDesc} (hp : d.d_has_pld = true)
    (h1 : d.d_has_p1 = false) (h2 : d.d_has_p2 = false) (hl : Config.lenMax < d.fields.d_plen) :
    u.start d = { u with
      s_desc := d, s_torn := false, s_status := .PayloadTooLarge, s_txlen := 0, s_state := .S_DONE } := by
  rw [Ser.start, if_neg (by simp [h]), if_neg (by simp [h1, h2]), if_pos hp, if_pos hl]
  rfl

/-- Refused: an Inline body and bit 7 of the destination. -/
theorem Ser.start_flag {u : Ser} (h : u.s_busy = false) {d : SerDesc} (hp : d.d_has_pld = false)
    (hf : long d.fields.destInForce = true) :
    u.start d = { u with
      s_desc := d, s_torn := false, s_status := .DestFlagViolation, s_txlen := 0, s_state := .S_DONE } := by
  rw [Ser.start, if_neg (by simp [h]), if_neg (by simp [hp]), if_neg (by simp [hp]),
    if_pos (by rw [SerFields.destFlag_eq]; exact hf)]
  rfl

/-- Accepted, Extended. -/
theorem Ser.start_ext {u : Ser} (h : u.s_busy = false) {d : SerDesc} (hp : d.d_has_pld = true)
    (h1 : d.d_has_p1 = false) (h2 : d.d_has_p2 = false) (hl : d.fields.d_plen ≤ Config.lenMax) :
    u.start d = { u with
      s_desc := d, s_torn := false, s_ext := true, s_n := d.fields.plenLow, s_h := d.fields.extHeader
      s_cnt := 0, s_state := .S_HDR } := by
  rw [Ser.start, if_neg (by simp [h]), if_neg (by simp [h1, h2]), if_pos hp, if_neg (Nat.not_lt.2 hl)]

/-- Accepted, Inline. -/
theorem Ser.start_inline {u : Ser} (h : u.s_busy = false) {d : SerDesc} (hp : d.d_has_pld = false)
    (hf : long d.fields.destInForce = false) :
    u.start d = { u with
      s_desc := d, s_torn := false, s_ext := false, s_n := 0, s_h := d.inlineHeader, s_cnt := 0
      s_state := .S_HDR } := by
  rw [Ser.start, if_neg (by simp [h]), if_neg (by simp [hp]), if_neg (by simp [hp]),
    if_neg (by rw [SerFields.destFlag_eq]; simp [hf])]

/-- A start that leaves SER busy has just been accepted, and has touched no buffer. -/
theorem Ser.started_of_busy {u : Ser} (h : u.s_busy = false) {d : SerDesc} (hb : (u.start d).s_busy = true) :
    (u.start d).Started ∧ (u.start d).PIN = u.PIN ∧ (u.start d).TXBUF = u.TXBUF := by
  cases hp : d.d_has_pld
  · cases hf : long d.fields.destInForce
    · rw [Ser.start_inline h hp hf]
      exact ⟨⟨rfl, rfl, rfl, fun _ => rfl⟩, rfl, rfl⟩
    · rw [Ser.start_flag h hp hf] at hb; cases hb
  · by_cases hc : d.d_has_p1 = true ∨ d.d_has_p2 = true
    · rw [Ser.start_conflict h hp hc] at hb; cases hb
    · rw [not_or, Bool.not_eq_true, Bool.not_eq_true] at hc
      rcases Nat.lt_or_ge Config.lenMax d.fields.d_plen with hl | hl
      · rw [Ser.start_tooLong h hp hc.1 hc.2 hl] at hb; cases hb
      · rw [Ser.start_ext h hp hc.1 hc.2 hl]
        exact ⟨⟨rfl, rfl, rfl, fun e => by cases e⟩, rfl, rfl⟩

/-- The length field of an accepted Extended body (R94). -/
theorem SerFields.plenLow_toNat {f : SerFields} (h : f.d_plen ≤ Config.lenMax) : f.plenLow.toNat = f.d_plen := by
  rw [SerFields.plenLow, BitVec.toNat_ofNat]
  exact Nat.mod_eq_of_lt (Nat.lt_of_le_of_lt h (by decide))

/-- Where an accepted operation ends. -/
def Ser.ended (u : Ser) : Ser :=
  { u with
    TXBUF := Memory.writeList u.TXBUF 0 u.frame, s_cnt := u.frameLen
    s_state := .S_DONE, s_status := .OK, s_txlen := u.frameLen }

theorem Ser.frameLen_eq (u : Ser) : BitVec.ofNat 17 (6 + u.s_n.toNat) = u.frameLen := by
  have := u.s_n.isLt
  apply BitVec.eq_of_toNat_eq
  rw [Ser.frameLen_toNat, toNat_ofNat17 (by omega)]

theorem Ser.progress_end (u : Ser) {n : Nat} (h : 6 + u.s_n.toNat ≤ n) : u.progress n = u.ended := by
  rw [Ser.progress, if_neg (by omega), Ser.frameLen_eq]
  rfl

/-- A whole operation: ignored, ended by the start, or run to its end. -/
theorem Ser.operation_of_refused {u : Ser} (h : u.s_busy = false) {d : SerDesc} {payload : List Byte}
    (hr : (({ u with PIN := Memory.writeList u.PIN 0 payload } : Ser).start d).s_busy = false) :
    u.operation d payload = ({ u with PIN := Memory.writeList u.PIN 0 payload } : Ser).start d := by
  rw [Ser.operation, if_neg (by simp [h])]
  simp only [Ser.run_eq_iterate]
  exact Ser.iterate_of_not_busy hr _

theorem Ser.operation_of_started {u : Ser} (h : u.s_busy = false) {d : SerDesc} {payload : List Byte}
    (hs : (({ u with PIN := Memory.writeList u.PIN 0 payload } : Ser).start d).Started) :
    u.operation d payload = (({ u with PIN := Memory.writeList u.PIN 0 payload } : Ser).start d).ended := by
  rw [Ser.operation, if_neg (by simp [h])]
  simp only [Ser.run_eq_iterate]
  rw [Ser.iterate_of_started hs, Ser.progress_end _ (by simp [Config.hdrLen])]

theorem Par.start_of_busy {u : Par} (h : u.p_busy = true) (d : ParDesc) : u.start d = u := by
  rw [Par.start, if_pos h]

/-- Refused: fewer than six bytes. -/
theorem Par.start_malformed {u : Par} (h : u.p_busy = false) {d : ParDesc} (ha : d.p_avail_in < 6) :
    u.start d = { u with
      p_hdronly := d.p_hdronly_in, p_avail := d.p_avail_in, p_torn := false, p_status := .MalformedHeader
      p_kind := .NONE, p_consumed := 0, p_state := .P_DONE } := by
  rw [Par.start, if_neg (by simp [h]), if_pos (by exact ha)]
  rfl

/-- Accepted. -/
theorem Par.start_accepted {u : Par} (h : u.p_busy = false) {d : ParDesc} (ha : 6 ≤ d.p_avail_in) :
    u.start d = { u with
      p_hdronly := d.p_hdronly_in, p_avail := d.p_avail_in, p_torn := false, p_cnt := 0, p_state := .P_HDR } := by
  rw [Par.start, if_neg (by simp [h]), if_neg (by exact Nat.not_lt.2 ha)]

theorem Par.started {u : Par} (h : u.p_busy = false) {d : ParDesc} (ha : 6 ≤ d.p_avail_in) : (u.start d).Started := by
  rw [Par.start_accepted h ha]
  exact ⟨rfl, rfl, rfl⟩

/-- Where the body ends. -/
def Par.copied (u : Par) : Par :=
  { u with
    POUT := Memory.writeList u.POUT 0 u.payload, p_cnt := u.frameLen
    p_state := .P_DONE, p_status := .OK, p_kind := .LONG_FULL, p_consumed := u.frameLen }

theorem Par.iterate_body_end {u : Par} (h : u.InBody) {n : Nat} (hn : u.L.toNat ≤ n) : Par.tick^[n] u = u.copied := by
  rw [Par.iterate_body h, Par.bodyProgress, if_neg (by omega)]
  rfl

/-- Where an accepted operation ends: at the dispatch, or with the payload copied. -/
def Par.ended (u : Par) : Par := if u.dispatched.p_state = .P_BODY then u.dispatched.copied else u.dispatched

theorem Par.not_body_of_not_busy {u : Par} (h : u.p_busy = false) : u.p_state ≠ .P_BODY :=
  fun e => by simp [Par.p_busy, e] at h

theorem Par.dispatched_cases {u : Par} (h : u.Started) : u.dispatched.InBody ∨ u.dispatched.p_busy = false :=
  Par.dispatch_cases { u with p_hdr := u.held 6, p_cnt := 6 } rfl h.torn

theorem Par.iterate_end {u : Par} (h : u.Started) {n : Nat}
    (hn : (if u.dispatched.p_state = .P_BODY then 6 + u.dispatched.L.toNat else 6) ≤ n) :
    Par.tick^[n] u = u.ended := by
  rw [Par.ended]
  rcases Par.dispatched_cases h with hd | hd
  · rw [if_pos hd.state] at hn ⊢
    obtain ⟨m, rfl⟩ : ∃ m, n = m + 6 := ⟨n - 6, by omega⟩
    rw [Function.iterate_add_apply, Par.iterate_six h, Par.iterate_body_end hd (by omega)]
  · rw [if_neg (Par.not_body_of_not_busy hd)] at hn ⊢
    obtain ⟨m, rfl⟩ : ∃ m, n = m + 6 := ⟨n - 6, by omega⟩
    rw [Function.iterate_add_apply, Par.iterate_six h, Par.iterate_of_not_busy hd]

theorem Par.run_of_started {u : Par} (h : u.Started) :
    (u.run Config.hdrLen).run (u.run Config.hdrLen).L.toNat = u.ended := by
  simp only [Par.run_eq_iterate]
  rw [show Config.hdrLen = 6 from rfl, Par.iterate_six h, Par.ended]
  rcases Par.dispatched_cases h with hd | hd
  · rw [if_pos hd.state, Par.iterate_body_end hd (Nat.le_refl _)]
  · rw [if_neg (Par.not_body_of_not_busy hd), Par.iterate_of_not_busy hd]

/-- A whole operation on six bytes or more. -/
theorem Par.operation_of_started {u : Par} (h : u.p_busy = false) {headerOnly : Bool} {buf : List Byte}
    (ha : 6 ≤ buf.length) :
    u.operation headerOnly buf =
      (Par.start ⟨headerOnly, buf.length⟩ { u with RXBUF := Memory.writeList u.RXBUF 0 buf }).ended := by
  rw [Par.operation, if_neg (by simp [h])]
  refine Par.run_of_started ?_
  exact Par.started (u := { u with RXBUF := Memory.writeList u.RXBUF 0 buf }) h ha

/-- A whole operation on fewer than six bytes. -/
theorem Par.operation_of_malformed {u : Par} (h : u.p_busy = false) {headerOnly : Bool} {buf : List Byte}
    (ha : buf.length < 6) :
    u.operation headerOnly buf = { u with
      RXBUF := Memory.writeList u.RXBUF 0 buf, p_hdronly := headerOnly, p_avail := buf.length, p_torn := false
      p_status := .MalformedHeader, p_kind := .NONE, p_consumed := 0, p_state := .P_DONE } := by
  rw [Par.operation, if_neg (by simp [h])]
  have e := Par.start_malformed (u := { u with RXBUF := Memory.writeList u.RXBUF 0 buf }) h
    (d := ⟨headerOnly, buf.length⟩) ha
  simp only [Par.run_eq_iterate]
  rw [e]
  rw [Par.iterate_of_not_busy (n := Config.hdrLen) (by rfl), Par.iterate_of_not_busy (by rfl)]

end Sys2Proof.Machine
end

