-- ==== Sys2Proof/Laws/Transaction.lean ====
section
/-! SUPPORT. When the two paths of PACK answer a frame, and which. -/

namespace Sys2Proof.Machine

/-- The frame of an Extended message that is not too long (R87). -/
def extFrame (m : LogicalMessage) (bytes : List Byte) : List Byte :=
  [lo8 m.opcode, hi8 m.opcode, lo8 (BitVec.ofNat 16 bytes.length), hi8 (BitVec.ofNat 16 bytes.length),
    setLong m.dest, m.src] ++ bytes

theorem packExt_of_gt {bytes : List Byte} (m : LogicalMessage) (h : Config.lenMax < bytes.length) :
    packExt m bytes = .error .PayloadTooLarge := by
  rw [packExt, if_pos h]

theorem packExt_of_le {bytes : List Byte} (m : LogicalMessage) (h : bytes.length ≤ Config.lenMax) :
    packExt m bytes = .ok (extFrame m bytes) := by
  rw [packExt, if_neg (Nat.not_lt.2 h), extFrame]

theorem packExt_ok {m : LogicalMessage} {bytes f : List Byte} (h : packExt m bytes = .ok f) :
    bytes.length ≤ Config.lenMax ∧ f = extFrame m bytes := by
  rcases Nat.lt_or_ge Config.lenMax bytes.length with hl | hl
  · rw [packExt_of_gt m hl] at h; cases h
  · rw [packExt_of_le m hl] at h; cases h; exact ⟨hl, rfl⟩

theorem packInline_ok {m : LogicalMessage} {p1 p2 : Byte} {f : List Byte} (h : packInline m p1 p2 = .ok f) :
    long m.dest = false ∧ f = [lo8 m.opcode, hi8 m.opcode, p1, p2, m.dest, m.src] := by
  cases hl : long m.dest
  · rw [packInline, hl] at h; cases h; exact ⟨rfl, rfl⟩
  · rw [packInline, hl] at h; cases h

/-- A length that fits the length field is read back from it (R56). -/
theorem length_field {n : Nat} (h : n ≤ Config.lenMax) : (BitVec.ofNat 16 n).toNat = n := by
  rw [BitVec.toNat_ofNat]
  exact Nat.mod_eq_of_lt (Nat.lt_of_le_of_lt h (by decide))

/-- A byte, as an integer, is in range and comes back. -/
theorem inByte_toNat (b : Byte) : inByte (b.toNat : Int) = true := by
  have := b.isLt
  simp [inByte]
  omega

theorem byteOfInt_toNat (b : Byte) : byteOfInt (b.toNat : Int) = b := by
  simp [byteOfInt]

/-- CONSTRUCT on the request that a descriptor stands for: only the conflict can fail (R81). -/
theorem construct_requestOf (d : SerDesc) (pin : List Byte) :
    Machine.construct (requestOf d pin) =
      if d.d_has_pld = true ∧ (d.d_has_p1 = true ∨ d.d_has_p2 = true) then .error .InvalidConstruction
      else .ok ⟨d.fields.d_opcode, d.fields.destInForce, d.fields.srcInForce,
        if d.d_has_pld then .extended pin else .inlineParams d.param1InForce d.param2InForce⟩ := by
  have hr : inRange (requestOf d pin) = true := by
    have := d.fields.d_opcode.isLt
    have ho : inU16 (requestOf d pin).opcode = true := by simp [inU16, requestOf]; omega
    have hopt : ∀ (c : Bool) (b : Byte), optInByte (if c then some (b.toNat : Int) else none) = true := by
      intro c b
      cases c <;> simp [optInByte, inByte_toNat]
    simp only [inRange, ho]
    simp only [requestOf, hopt]
    cases d.d_has_pld <;> simp [inByte_toNat]
  have hc : conflict (requestOf d pin) = true ↔ (d.d_has_pld = true ∧ (d.d_has_p1 = true ∨ d.d_has_p2 = true)) := by
    simp only [conflict, requestOf]
    cases d.d_has_pld <;> cases d.d_has_p1 <;> cases d.d_has_p2 <;> simp
  rw [Machine.construct]
  by_cases h : d.d_has_pld = true ∧ (d.d_has_p1 = true ∨ d.d_has_p2 = true)
  · rw [if_pos (hc.2 h), if_pos h]
  · rw [if_neg (fun e => h (hc.1 e)), if_neg h, hr]
    simp only [Bool.not_true, Bool.false_eq_true, if_false, messageOf, requestOf, bodyOf]
    have hor : ∀ (c : Bool) (b x : Byte),
        byteOr (if c then some (b.toNat : Int) else none) x = if c then b else x := by
      intro c b x
      cases c <;> simp [byteOr, byteOfInt_toNat]
    simp only [hor]
    have ho : BitVec.ofInt 16 (d.fields.d_opcode.toNat : Int) = d.fields.d_opcode := by simp
    rw [ho]
    cases d.d_has_pld <;>
      simp [SerFields.destInForce, SerFields.srcInForce, SerDesc.param1InForce, SerDesc.param2InForce,
        Function.comp_def, byteOfInt_toNat]

end Sys2Proof.Machine
end

