-- ==== Sys2Proof/Tests/Slice0.lean ====
section
/-! SUPPORT. The author's own tests, and for every statement with hypotheses concrete values that meet
them. Expected values are the spec's worked examples and vectors (95_test_vectors.md) or are worked out
by hand from its rules. -/

namespace Sys2Proof.Tests

open Sys2Proof Sys2Proof.Machine

/-! ## Helpers -/

/-- Descriptor fields with destination and source supplied. -/
def fields (op : U16) (dst src p1 p2 : Byte) (n : Nat) : SerFields := ⟨op, true, dst, true, src, p1, p2, n⟩

/-- A property of the next state. -/
def nextIs (o : Host.Outcome State Fault Refusal) (p : State → Bool) : Bool :=
  match o with
  | .next t => p t
  | .fault _ => false
  | .refused _ => false

/-- The first bytes of a buffer. -/
def firstBytes (m : Memory) (n : Nat) : List (Option Byte) := (List.range n).map (Memory.read m)

/-- The reset state with some moves to come. -/
def withMoves (ts : List Turn) : State := { State.reset with inputs := ts }

/-- SER alone, in a given state, with the header of example S1 and two payload bytes. -/
def serAt (st : SState) (cnt : BitVec 17) (ext : Bool) (n : U16) : Ser :=
  { Ser.reset with
    s_state := st, s_cnt := cnt, s_ext := ext, s_n := n
    s_h := #v[0x23, 0x02, 0x02, 0x00, 0xD0, 0x01], PIN := [(0, 1), (1, 2)] }

/-- PAR alone, in a given state, with a header held. -/
def parAt (st : PState) (cnt : BitVec 17) (hdronly : Bool) (avail : Nat) (b2 b3 b4 : Byte) : Par :=
  { Par.reset with
    p_state := st, p_cnt := cnt, p_hdronly := hdronly, p_avail := avail, p_hdr := #v[0x23, 0x02, b2, b3, b4, 0]
    RXBUF := [(0, 0x23), (1, 2), (2, b2), (3, b3), (4, b4), (5, 1), (6, 7), (7, 8)] }

def stateOf (u : Ser) (v : Par) (ts : List Turn) : State := ⟨u, v, .nothing, ts⟩

/-! ## WellFormed refuses what it should -/

theorem test_wf_refuses_wrong_frame_length : (Instr.frameLong ⟨1, 2, 3, 4⟩ [5]).wellFormed = false := by decide

theorem test_wf_refuses_too_long_buffers (hs : ShortHdr) (hl : LongHdr) (rest : List Byte)
    (h : rest.length + 6 = 2 ^ 32) :
    (Instr.unpackShort hs rest).wellFormed = false ∧ (Instr.unpackLong hl rest).wellFormed = false ∧
    (Instr.unpackhShort hs rest).wellFormed = false ∧ (Instr.unpackhLong hl rest).wellFormed = false := by
  have : bufferFits (Config.hdrLen + rest.length) = false := by
    rw [bufferFits, Nat.add_comm, show rest.length + Config.hdrLen = 2 ^ 32 from h]
    decide
  exact ⟨this, this, this, this⟩

theorem test_wf_refuses_six_bytes_as_malformed :
    (Instr.unpackMalformed false [1, 2, 3, 4, 5, 6]).wellFormed = false := by decide

theorem test_wf_refuses_wide_lengths :
    (Instr.packInline false false (fields 1 2 3 0 0 4294967296)).wellFormed = false ∧
    (Instr.startSer ⟨true, false, false, fields 1 2 3 0 0 4294967296⟩).wellFormed = false ∧
    (Instr.startPar ⟨false, 4294967296⟩).wellFormed = false := by decide

theorem test_wf_refuses_untruthful_lengths :
    (Instr.packExt (fields 1 2 3 0 0 2) [9]).wellFormed = false ∧
    (Instr.constructConflictP1 true (fields 1 2 3 0 0 0) [9]).wellFormed = false ∧
    (Instr.constructConflictP2 false (fields 1 2 3 0 0 2) [9]).wellFormed = false := by decide

theorem test_wf_refuses_wide_payloads (f : SerFields) (payload : List Byte) (h : f.d_plen = 4294967296) :
    (Instr.packExt f payload).wellFormed = false := by
  have : plenFits f.d_plen = false := by rw [h]; decide
  simp only [Instr.wellFormed, payloadDeclared, this, Bool.and_false]

/-- `S` = 0b111 is the other conflict row's (R64, notes/assumptions/9.md). -/
theorem test_wf_refuses_second_reading_of_seven :
    (Instr.constructConflictP2 true (fields 1 2 3 0 0 1) [9]).wellFormed = false := by decide

/-! ## Words written out from the spec's encodings -/

/-- R52: `11 02 01 00 50 01`. -/
theorem test_decode_frameShort :
    decode (.frame [0x11, 0x02, 0x01, 0x00, 0x50, 0x01]) = .ok (.frameShort ⟨0x0211, 1, 0, 0x50, 1⟩) := by decide

/-- R52, S1: `23 02 05 00 D0 01` and five payload bytes. -/
theorem test_decode_frameLong :
    decode (.frame [0x23, 0x02, 0x05, 0x00, 0xD0, 0x01, 1, 2, 3, 4, 5]) =
      .ok (.frameLong ⟨0x0223, 5, 0x50, 1⟩ [1, 2, 3, 4, 5]) := by decide

/-- R60: the four rows of PSEL49, by header and mode. -/
theorem test_decode_unpackShort :
    decode (.parse false [0x34, 0x12, 0xFF, 0xFF, 0x7F, 0x22, 9]) = .ok (.unpackShort ⟨0x1234, 255, 255, 0x7F, 0x22⟩ [9]) := by
  decide

theorem test_decode_unpackLong :
    decode (.parse false [0x34, 0x12, 0x01, 0x00, 0xD0, 0x22, 9, 0x77]) =
      .ok (.unpackLong ⟨0x1234, 1, 0x50, 0x22⟩ [9, 0x77]) := by decide

theorem test_decode_unpackhShort :
    decode (.parse true [0x34, 0x12, 0xFF, 0xFF, 0x7F, 0x22]) = .ok (.unpackhShort ⟨0x1234, 255, 255, 0x7F, 0x22⟩ []) := by
  decide

theorem test_decode_unpackhLong :
    decode (.parse true [0x34, 0x12, 0xFF, 0xFF, 0xFF, 0x22]) = .ok (.unpackhLong ⟨0x1234, 65535, 0x7F, 0x22⟩ []) := by
  decide

/-- R64: the AVAIL row comes before the PSEL49 rows. -/
theorem test_decode_unpackMalformed :
    decode (.parse false [1, 2, 3, 4, 5]) = .ok (.unpackMalformed false [1, 2, 3, 4, 5]) ∧
    decode (.parse true []) = .ok (.unpackMalformed true []) := by decide

/-- R61: the four values of `S` with no payload present. -/
theorem test_decode_packInline :
    decode (.serialize ⟨false, false, false, fields 1 2 3 4 5 0⟩ []) = .ok (.packInline false false (fields 1 2 3 4 5 0)) ∧
    decode (.serialize ⟨false, false, true, fields 1 2 3 4 5 0⟩ []) = .ok (.packInline false true (fields 1 2 3 4 5 0)) ∧
    decode (.serialize ⟨false, true, false, fields 1 2 3 4 5 0⟩ []) = .ok (.packInline true false (fields 1 2 3 4 5 0)) ∧
    decode (.serialize ⟨false, true, true, fields 1 2 3 4 5 0⟩ []) = .ok (.packInline true true (fields 1 2 3 4 5 0)) := by
  decide

theorem test_decode_packExt :
    decode (.serialize ⟨true, false, false, fields 1 2 3 0 0 1⟩ [9]) = .ok (.packExt (fields 1 2 3 0 0 1) [9]) := by decide

theorem test_decode_conflicts :
    decode (.serialize ⟨true, true, false, fields 1 2 3 0 0 1⟩ [9]) =
      .ok (.constructConflictP1 false (fields 1 2 3 0 0 1) [9]) ∧
    decode (.serialize ⟨true, true, true, fields 1 2 3 0 0 1⟩ [9]) =
      .ok (.constructConflictP1 true (fields 1 2 3 0 0 1) [9]) ∧
    decode (.serialize ⟨true, false, true, fields 1 2 3 0 0 1⟩ [9]) =
      .ok (.constructConflictP2 false (fields 1 2 3 0 0 1) [9]) := by decide

/-- R131, R170: the controls and the transaction-level calls. -/
theorem test_decode_controls (r : RawRequest) (m1 m2 : LogicalMessage) :
    decode (.request r) = .ok (.construct r) ∧ decode (.messages m1 m2) = .ok (.msgeq m1 m2) ∧
    decode .rst = .ok .reset ∧
    decode (.sStart ⟨true, true, false, fields 1 2 3 0 0 70000⟩) = .ok (.startSer ⟨true, true, false, fields 1 2 3 0 0 70000⟩) ∧
    decode (.pStart ⟨true, 3⟩) = .ok (.startPar ⟨true, 3⟩) := ⟨rfl, rfl, rfl, rfl, rfl⟩

/-- What cannot be presented is refused by name. -/
theorem test_decode_refuses :
    decode (.frame [1, 2, 3, 4, 5]) = .error .headerIncomplete ∧
    decode (.frame [1, 2, 3, 4, 5, 6, 7]) = .error .frameLengthMismatch ∧
    decode (.frame [1, 2, 2, 0, 0x80, 6, 7]) = .error .frameLengthMismatch ∧
    decode (.serialize ⟨true, false, false, fields 1 2 3 0 0 2⟩ [9]) = .error .lengthNotTruthful ∧
    decode (.serialize ⟨false, false, false, fields 1 2 3 0 0 1⟩ [9]) = .error .lengthNotTruthful ∧
    decode (.pStart ⟨false, 4294967296⟩) = .error .lengthTooWide ∧
    decode (.noFormat 8 9) = .error .unknownFormat := by decide

/-- The selector values of the table, as the host numbers them (R60, R61, R64). -/
theorem test_table_words :
    decodeTableWord 0 0 = some (.unpackMalformed false []) ∧
    decodeTableWord 8 0 = some (.packInline false false .zero) ∧
    decodeTableWord 8 7 = some (.constructConflictP1 true .zero []) ∧
    decodeTableWord 48 0x015000010211 = some (.frameShort ⟨0x0211, 1, 0, 0x50, 1⟩) ∧
    decodeTableWord 48 0x01D000000223 = some (.frameLong ⟨0x0223, 0, 0x50, 1⟩ []) ∧
    decodeTableWord 48 0x01D000050223 = some (.frameLong ⟨0x0223, 5, 0x50, 1⟩ [0, 0, 0, 0, 0]) ∧
    decodeTableWord 56 0x1008000000000 = some (.unpackhLong ⟨0, 0, 0, 0⟩ []) ∧
    decodeTableWord 8 8 = none := by decide

theorem test_step_runs_the_table_word :
    step (State.reset.withFetchWord 56 0x1015000010211) = exec (.unpackhShort ⟨0x0211, 1, 0, 0x50, 1⟩ []) State.reset := by
  rfl

/-- R52's example header of a long frame, run as it arrives with a payload of zeros. -/
theorem test_step_runs_the_long_frame_word :
    step (State.reset.withFetchWord 48 0x01D000050223) =
      exec (.frameLong ⟨0x0223, 5, 0x50, 1⟩ [0, 0, 0, 0, 0]) State.reset := by
  rfl

/-! ## Field assembly (V-F) -/

theorem test_field_assembly :
    lo8 0x0223 = 0x23 ∧ hi8 0x0223 = 0x02 ∧ le16 0x23 0x02 = 0x0223 ∧ le16 0xFF 0xFF = 65535 ∧ le16 0 1 = 256 ∧
    setLong 0x50 = 0xD0 ∧ clearLong 0xD0 = 0x50 ∧ setLong 0xD0 = 0xD0 ∧ clearLong 0xFF = 0x7F ∧
    headerWord 0x23 0x02 0x05 0x00 0xD0 0x01 = 0x01D000050223 ∧
    headerWord 0x11 0x02 0x01 0x00 0x50 0x01 = 0x015000010211 := by decide

/-- V-F10 and R58: the longest frame is 65541 bytes, in 17 bits. -/
theorem test_frame_lengths :
    frameLength 0xFF 0xFF 0x80 = 65541 ∧ frameLength 0xFF 0xFF 0x7F = 6 ∧
    (serAt .S_HDR 0 true 65535).frameLen = 0x10005 := by decide

/-- R14, R70: the codes. -/
theorem test_codes : Status.TruncatedPayload.code = 2 ∧ Status.DestFlagViolation.code = 5 ∧ Kind.LONG_HDR.code = 3 := by
  decide

/-! ## One step per instruction -/

/-- S2 as it arrives: RXBUF from offset 0. -/
theorem test_frameShort :
    nextIs (exec (.frameShort ⟨0x0211, 1, 0, 0x50, 1⟩) State.reset)
      (fun t => firstBytes t.par.RXBUF 7 == [some 0x11, some 2, some 1, some 0, some 0x50, some 1, none]) = true := by decide

/-- S1 as it arrives. -/
theorem test_frameLong :
    nextIs (exec (.frameLong ⟨0x0223, 2, 0x50, 1⟩ [9, 8]) State.reset)
      (fun t => firstBytes t.par.RXBUF 9 ==
        [some 0x23, some 2, some 2, some 0, some 0xD0, some 1, some 9, some 8, none]) = true := by decide

/-- V-U13: the bytes behind a short frame are not looked at. -/
theorem test_unpackShort :
    nextIs (exec (.unpackShort ⟨0x0211, 1, 0, 0x50, 1⟩ [0xFF, 0xFF]) State.reset)
      (fun t => t.par.response == some (.ok (.short ⟨0x0211, 0x50, 1, .inlineParams 1 0⟩ 6))) = true := by decide

/-- V-U12: `34 12 01 00 D0 22 09 77 88`. -/
theorem test_unpackLong :
    nextIs (exec (.unpackLong ⟨0x1234, 1, 0x50, 0x22⟩ [9, 0x77, 0x88]) State.reset)
      (fun t => t.par.response == some (.ok (.longFull ⟨0x1234, 0x50, 0x22, .extended [9]⟩ 7)) &&
        firstBytes t.par.POUT 2 == [some 9, none]) = true := by decide

/-- V-U15: one byte short. -/
theorem test_unpackLong_truncated :
    nextIs (exec (.unpackLong ⟨0x0223, 5, 0x50, 1⟩ [1, 2, 3, 4]) State.reset)
      (fun t => t.par.response == some (.error .TruncatedPayload) && t.par.POUT == [] && t.par.p_consumed == 0) = true := by
  decide

/-- V-U9. -/
theorem test_unpackhShort :
    nextIs (exec (.unpackhShort ⟨0x1234, 255, 255, 0x7F, 0x22⟩ []) State.reset)
      (fun t => t.par.response == some (.ok (.short ⟨0x1234, 0x7F, 0x22, .inlineParams 255 255⟩ 6))) = true := by decide

/-- V-U7: the longest declared length, with nothing behind the header. -/
theorem test_unpackhLong :
    nextIs (exec (.unpackhLong ⟨0x1234, 65535, 0x7F, 0x22⟩ []) State.reset)
      (fun t => t.par.response == some (.ok (.longHeader 0x1234 0xFF 0x22 65535 6)) && t.par.p_dest == some 0xFF) = true := by
  decide

/-- V-U3. -/
theorem test_unpackMalformed :
    nextIs (exec (.unpackMalformed true [1, 2, 3, 4, 5]) State.reset)
      (fun t => t.par.response == some (.error .MalformedHeader) && t.par.p_kind == .NONE) = true := by decide

/-- S2: `11 02 01 00 50 01`; the second parameter is not supplied. -/
theorem test_packInline :
    nextIs (exec (.packInline true false (fields 0x0211 0x50 1 1 0xEE 0)) State.reset)
      (fun t => t.ser.response == some (.ok [0x11, 0x02, 0x01, 0x00, 0x50, 0x01]) && t.ser.s_txlen == 6) = true := by decide

/-- V-P9. -/
theorem test_packInline_flag :
    nextIs (exec (.packInline true true (fields 0x1234 0x80 0x22 0 0 0)) State.reset)
      (fun t => t.ser.response == some (.error .DestFlagViolation) && t.ser.TXBUF == []) = true := by decide

/-- S1: `23 02 05 00 D0 01 01 02 03 04 05`. -/
theorem test_packExt :
    nextIs (exec (.packExt (fields 0x0223 0x50 1 7 7 5) [1, 2, 3, 4, 5]) State.reset)
      (fun t => t.ser.response == some (.ok [0x23, 0x02, 0x05, 0x00, 0xD0, 0x01, 1, 2, 3, 4, 5])) = true := by decide

/-- V-P3: an empty payload. -/
theorem test_packExt_empty :
    nextIs (exec (.packExt (fields 0 0 0 0 0 0) []) State.reset)
      (fun t => t.ser.response == some (.ok [0, 0, 0, 0, 0x80, 0])) = true := by decide

/-- V-C8: presence, not value. -/
theorem test_conflictP1 :
    nextIs (exec (.constructConflictP1 false (fields 1 0x50 1 0 0 1) [1]) State.reset)
      (fun t => t.ser.response == some (.error .InvalidConstruction) && t.ser.TXBUF == []) = true := by decide

/-- V-C9: an empty payload is present. -/
theorem test_conflictP2 :
    nextIs (exec (.constructConflictP2 false (fields 1 0x50 1 0 0 0) []) State.reset)
      (fun t => t.ser.response == some (.error .InvalidConstruction)) = true := by decide

/-- V-C4 with destination and source supplied: a parameter left out is 0. -/
theorem test_construct :
    nextIs (exec (.construct ⟨7, some 0x50, some 1, none, some 9, none⟩) State.reset)
      (fun t => t.ret == .message ⟨7, 0x50, 1, .inlineParams 0 9⟩) = true := by decide

/-- V-C14. -/
theorem test_construct_range :
    nextIs (exec (.construct ⟨1, some 256, some 1, none, none, none⟩) State.reset)
      (fun t => t.ret == .error .InvalidConstruction) = true := by decide

/-- V-E1. -/
theorem test_msgeq :
    nextIs (exec (.msgeq ⟨0x1234, 0x50, 0x22, .extended [9]⟩ ⟨0x1234, 0xD0, 0x22, .extended [9]⟩) State.reset)
      (fun t => t.ret == .truth true) = true := by decide

/-- V-E2. -/
theorem test_msgeq_variants :
    nextIs (exec (.msgeq ⟨1, 0x50, 1, .inlineParams 0 0⟩ ⟨1, 0x50, 1, .extended []⟩) State.reset)
      (fun t => t.ret == .truth false) = true := by decide

/-- V-T2, its first step: the header is computed and nothing is written. -/
theorem test_startSer :
    nextIs (exec (.startSer ⟨true, false, false, fields 0x0223 0x50 1 0 0 5⟩) State.reset)
      (fun t => t.ser.s_state == .S_HDR && t.ser.s_h == #v[0x23, 0x02, 0x05, 0x00, 0xD0, 0x01] && t.ser.s_n == 5 &&
        t.ser.s_ext && t.ser.TXBUF == []) = true := by decide

/-- V-T3: the conflict is tested before the length (R153). -/
theorem test_startSer_priority :
    nextIs (exec (.startSer ⟨true, false, true, fields 1 0x50 1 0 0 70000⟩) State.reset)
      (fun t => t.ser.s_done && t.ser.s_status == .InvalidConstruction && t.ser.s_txlen == 0) = true := by decide

/-- V-T4, its first step. -/
theorem test_startPar :
    nextIs (exec (.startPar ⟨false, 11⟩) State.reset)
      (fun t => t.par.p_state == .P_HDR && t.par.p_cnt == 0 && t.par.p_avail == 11) = true := by decide

/-- V-T7. -/
theorem test_startPar_malformed :
    nextIs (exec (.startPar ⟨false, 5⟩) State.reset)
      (fun t => t.par.p_done && t.par.p_status == .MalformedHeader) = true := by decide

/-- V-R2: a reset in the body of an operation. -/
theorem test_reset :
    nextIs (exec .reset (stateOf (serAt .S_BODY 7 true 2) Par.reset []))
      (fun t => !t.ser.s_busy && !t.ser.s_done && t.ser.response == none && t.ser.s_undef) = true := by decide

/-- R82, V-C18; P2. -/
theorem test_host_pseudo_operations :
    str2bytes "AB" = [0x41, 0x42] ∧
    recv [0x06, 0x00, 0x04, 0x00, 0x81, 0x50, 0x11, 0x22, 0x33, 0x44] =
      .ok (.longFull ⟨6, 0x01, 0x50, .extended [0x11, 0x22, 0x33, 0x44]⟩ 10) := by decide

/-- R179, D34: V-T5 to V-T7 declare no more than the eleven bytes placed; one byte more is no move, nor is
any length over buffers that nothing has been placed in. -/
theorem test_lengths_are_truthful :
    let s (d : ParDesc) : State :=
      withMoves [.present (.frame [0x23, 2, 5, 0, 0xD0, 1, 1, 2, 3, 4, 5]), .present (.pStart d)]
    let runs (s : State) (n : Nat) : Bool := nextIs (Sys2Proof.core.run n s) fun _ => true
    runs (s ⟨false, 11⟩) 2 = true ∧ runs (s ⟨true, 6⟩) 2 = true ∧ runs (s ⟨false, 5⟩) 2 = true ∧
    runs (s ⟨false, 12⟩) 2 = false ∧
    step (withMoves [.present (.pStart ⟨false, 100⟩)]) = .refused .untruthfulLength ∧
    step (withMoves [.present (.sStart ⟨true, false, false, fields 1 2 3 0 0 1⟩)]) = .refused .untruthfulLength ∧
    runs (withMoves [.present (.sStart ⟨false, false, false, fields 1 2 3 0 0 1⟩)]) 1 = true ∧
    runs (withMoves [.fillRx 1 [7], .fillRx 0 [6], .present (.pStart ⟨false, 2⟩)]) 3 = true ∧
    runs (withMoves [.fillRx 1 [7], .present (.pStart ⟨false, 1⟩)]) 2 = false :=
  ⟨by decide, by decide, by decide, by decide, rfl, rfl, by decide, by decide, by decide⟩

/-- R141: with both units not busy the run is over whatever else is to come, but for a start. -/
theorem test_over :
    (withMoves [.fillRx 0 [1], .fillPin 0 [1], .present .rst, .ser, .par,
      .present (.request ⟨1, none, none, none, none, none⟩), .present (.frame [1, 0, 0, 0, 0, 0])]).over = true ∧
    (withMoves [.ser, .present (.pStart ⟨false, 6⟩)]).over = false ∧
    (withMoves [.present (.parse true [])]).over = false ∧
    (stateOf (serAt .S_HDR 0 false 0) Par.reset []).over = false := by decide

/-! ## For every statement with hypotheses, values that meet them -/

/-- A unit in the middle of its operation, each reached from reset. -/
def serBusy : Ser := (Ser.reset.start ⟨true, false, false, fields 0x0223 0x50 1 0 0 2⟩).tick

def parBusy : Par := (Par.reset.start ⟨false, 11⟩).tick

theorem witness_ResetAbandonsTheOperation :
    (∃ t, exec .reset (stateOf serBusy parBusy []) = .next t) ∧ serBusy.s_busy = true ∧ parBusy.p_busy = true :=
  ⟨⟨_, rfl⟩, by decide, by decide⟩

theorem witness_DecodeOfEncodeIsTheInstruction :
    (Instr.frameLong ⟨0x0223, 2, 0x7F, 1⟩ [9, 8]).wellFormed = true ∧
    (Instr.constructConflictP2 false (fields 1 0xFF 1 0 0 1) [9]).wellFormed = true ∧
    (Instr.startPar ⟨true, 4294967295⟩).wellFormed = true := by decide

theorem witness_EncodeOfDecodeIsTheWord : decode (.parse true [1, 2, 3]) = .ok (.unpackMalformed true [1, 2, 3]) := by decide

theorem witness_StepRunsThePresentedInstruction :
    (withMoves [.present .rst, .ser]).inputs = .present .rst :: [.ser] ∧ decode .rst = .ok .reset ∧
    decode (.frame []) = .error .headerIncomplete ∧ lengthTruthful .reset State.reset = true ∧
    decode (.pStart ⟨false, 6⟩) = .ok (.startPar ⟨false, 6⟩) ∧
    lengthTruthful (.startPar ⟨false, 6⟩) State.reset = false ∧
    Memory.wf State.reset.ser.PIN ∧ Memory.wf State.reset.par.RXBUF ∧
    (∀ d, Instr.reset ≠ .startSer d) ∧ ∀ d, Instr.reset ≠ .startPar d :=
  ⟨rfl, rfl, rfl, rfl, rfl, by decide, by decide, by decide, nofun, nofun⟩

theorem witness_StepTakesTheNextMove :
    (withMoves [.ser]).inputs = .ser :: [] ∧ (withMoves [.par]).inputs = .par :: [] ∧ (withMoves []).inputs = [] ∧
    (withMoves [.fillRx 3 [1, 2]]).inputs = .fillRx 3 [1, 2] :: [] ∧
    (withMoves [.fillPin 0 [7]]).inputs = .fillPin 0 [7] :: [] ∧
    (stateOf serBusy parBusy [.fillRx 0 []]).inputs = .fillRx 0 [] :: [] := ⟨rfl, rfl, rfl, rfl, rfl, rfl⟩

/-- A legal state in which both units are busy: two header steps done. -/
def midway : State :=
  stateOf { serAt .S_HDR 1 true 2 with TXBUF := [(0, 0x23)] } (parAt .P_HDR 2 false 8 0 0 0) []

theorem midway_legal : midway.Inv := by
  refine ⟨?_, ?_⟩
  · constructor
    case header_written =>
      intro _ k h hk
      have hk : k < 1 := hk
      obtain rfl : k = 0 := by omega
      rfl
    case written =>
      intro _ k hk
      have hk : k < 1 := hk
      obtain rfl : k = 0 := by omega
      rfl
    case placed => intro _; decide
    all_goals simp [midway, stateOf, serAt, Ser.reset, Memory.wf, Config.frameMax, long]
  · constructor
    case placed => intro _; decide
    all_goals simp [midway, stateOf, parAt, Par.reset, Memory.wf, Config.frameMax, Config.availW]

theorem witness_EveryStepKeepsStatesLegal : midway.Inv ∧ ∃ t, step midway = .next t := ⟨midway_legal, _, rfl⟩

/-- A start of PAR on the bytes it declares, and one more step. -/
theorem witness_LegalRunsNeverStop :
    let s := withMoves [.fillRx 0 [1, 2], .present (.pStart ⟨false, 2⟩), .fillPin 0 [1]]
    ∀ (m : Nat) (t : State), m < 3 → Sys2Proof.core.run m s = .next t → t.nextLegal = true := by
  intro s m t hm h
  match m, hm with
  | 0, _ => cases h; decide
  | 1, _ => cases h; decide
  | 2, _ => cases h; decide

theorem witness_QuietRunsAreOverWithinTheLongestFrame : midway.Inv ∧ midway.inputs = [] := ⟨midway_legal, rfl⟩

/-- A legal state in which PAR is at the last of two payload bytes. -/
def copying : State := stateOf Ser.reset { parAt .P_BODY 7 false 8 2 0 0x80 with POUT := [(0, 7)] } []

theorem copying_legal : copying.Inv := by
  refine ⟨?_, ?_⟩
  · constructor <;> simp [copying, stateOf, Ser.reset, Memory.wf, Config.frameMax, Ser.live, Ser.s_busy, Ser.s_done]
  · constructor
    case written =>
      intro _ k hk
      have hk : k + 6 < 7 := hk
      obtain rfl : k = 0 := by omega
      rfl
    case body => intro _; decide
    case placed => intro _; decide
    all_goals simp [copying, stateOf, parAt, Par.reset, Memory.wf, Config.frameMax, Config.availW]

/-- Both phases of PAR, the body at its end. -/
theorem witness_BusyStepsCountOneByte :
    midway.Inv ∧ midway.ser.s_busy = true ∧ midway.par.p_busy = true ∧ midway.par.p_state = .P_HDR ∧
    copying.Inv ∧ copying.par.p_busy = true ∧ copying.par.p_state = .P_BODY ∧
    copying.par.tick.p_cnt.toNat = 6 + copying.par.L.toNat :=
  ⟨midway_legal, by decide, by decide, by decide, copying_legal, by decide, by decide, by decide⟩

theorem witness_UnitsStepIndependently :
    unitTurns [.ser, .par, .ser] = true ∧ (withMoves [.ser, .par, .ser]).inputs = [.ser, .par, .ser] := ⟨by decide, rfl⟩

/-- Both units done, and the host presents a transaction-level call. -/
theorem witness_ResponseIsHeldUntilTheNextStart :
    let s := stateOf (serAt .S_DONE 6 false 0) (parAt .P_DONE 6 false 6 1 0 0x50)
      [.present (.messages ⟨1, 2, 3, .extended []⟩ ⟨1, 2, 3, .extended []⟩)]
    (∃ t, step s = .next t) ∧ s.ser.s_done = true ∧ s.par.p_done = true ∧
    ∀ w rest i, s.inputs = .present w :: rest → decode w = .ok i →
      startsSer i = false ∧ startsPar i = false ∧ i ≠ .reset := by
  refine ⟨⟨_, rfl⟩, by decide, by decide, ?_⟩
  intro w rest i h hd
  cases h
  cases hd
  decide

theorem witness_StartToABusyUnitIsIgnored :
    startsSer (.startSer ⟨false, false, false, fields 1 2 3 0 0 0⟩) = true ∧ serBusy.s_busy = true ∧
    startsPar (.startPar ⟨false, 6⟩) = true ∧ parBusy.p_busy = true := by decide

theorem witness_ConstructRefusesAParameterWithAPayload :
    let r : RawRequest := ⟨1, none, none, none, some 0, some []⟩
    (r.param1 ≠ none ∨ r.param2 ≠ none) ∧ r.payload ≠ none := by decide

/-- One request for each range, at its boundary. -/
theorem witness_ConstructRefusesValuesOutOfRange :
    ¬ (0 ≤ (65536 : Int) ∧ (65536 : Int) ≤ 65535) ∧ ¬ (0 ≤ (-1 : Int) ∧ (-1 : Int) ≤ 65535) ∧
    ¬ (0 ≤ (256 : Int) ∧ (256 : Int) ≤ 255) ∧
    (⟨1, none, some (-1), none, none, none⟩ : RawRequest).src = some (-1) ∧
    (∃ l, (⟨1, none, none, none, none, some [0, 256]⟩ : RawRequest).payload = some l ∧ ∃ e ∈ l, ¬ (0 ≤ e ∧ e ≤ 255)) :=
  ⟨by decide, by decide, by decide, rfl, [0, 256], rfl, 256, by simp, by decide⟩

/-- Two requests whose values stand at the ends of their ranges: V-C10 with parameters, V-C15. -/
theorem witness_ConstructBuildsTheMessage :
    let r : RawRequest := ⟨65535, some 255, some 0, some 255, none, none⟩
    let q : RawRequest := ⟨0, none, none, none, none, some [0, 255]⟩
    ¬ ((r.param1 ≠ none ∨ r.param2 ≠ none) ∧ r.payload ≠ none) ∧ 0 ≤ r.opcode ∧ r.opcode ≤ 65535 ∧
    (∀ v, (r.param1 = some v ∨ r.param2 = some v ∨ r.dest = some v ∨ r.src = some v) → 0 ≤ v ∧ v ≤ 255) ∧
    (∀ l, r.payload = some l → ∀ e ∈ l, 0 ≤ e ∧ e ≤ 255) ∧
    ¬ ((q.param1 ≠ none ∨ q.param2 ≠ none) ∧ q.payload ≠ none) ∧ 0 ≤ q.opcode ∧ q.opcode ≤ 65535 ∧
    (∀ v, (q.param1 = some v ∨ q.param2 = some v ∨ q.dest = some v ∨ q.src = some v) → 0 ≤ v ∧ v ≤ 255) ∧
    (∀ l, q.payload = some l → ∀ e ∈ l, 0 ≤ e ∧ e ≤ 255) := by
  simp
  omega

theorem witness_PackOfAnInlineMessage :
    let m (d : Byte) : LogicalMessage := ⟨1, d, 1, .inlineParams 2 3⟩
    (m 0x80).body = .inlineParams 2 3 ∧ (m 0x80).dest.getLsbD 7 = true ∧ (m 0x7F).dest.getLsbD 7 = false := by decide

theorem witness_PackOfAnExtendedMessage :
    (⟨1, 2, 3, .extended []⟩ : LogicalMessage).body = .extended [] ∧ ([] : List Byte).length ≤ 65535 ∧
    65535 < (List.replicate 65536 (0 : Byte)).length := by
  refine ⟨rfl, by decide, ?_⟩
  rw [List.length_replicate]
  decide

theorem witness_UnpackOfPackGivesTheMessageBack :
    pack ⟨1, 0x50, 1, .inlineParams 2 3⟩ = .ok [1, 0, 2, 3, 0x50, 1] ∧
    pack ⟨1, 0xD0, 1, .extended [9]⟩ = .ok [1, 0, 1, 0, 0xD0, 1, 9] := by decide

theorem witness_PackOfUnpackGivesTheBytesBack :
    unpack [1, 2, 3, 4, 5, 6] false = .ok (.short ⟨0x0201, 5, 6, .inlineParams 3 4⟩ 6) ∧
    unpack [0x34, 0x12, 0x01, 0x00, 0xD0, 0x22, 9, 0x77] false = .ok (.longFull ⟨0x1234, 0x50, 0x22, .extended [9]⟩ 7) := by
  decide

theorem witness_MsgeqIsAnEquivalence :
    pack ⟨1, 0x50, 1, .extended [9]⟩ = .ok [1, 0, 1, 0, 0xD0, 1, 9] ∧
    pack ⟨1, 0xD0, 1, .extended [9]⟩ = .ok [1, 0, 1, 0, 0xD0, 1, 9] ∧
    messagesEqual ⟨1, 0x50, 1, .extended [9]⟩ ⟨1, 0xD0, 1, .extended [9]⟩ = .ok true := by decide

theorem witness_MsgeqComparesFrames :
    pack ⟨1, 0x80, 1, .inlineParams 0 0⟩ = .error .DestFlagViolation ∧
    pack ⟨1, 0x7F, 1, .inlineParams 0 0⟩ = .ok [1, 0, 0, 0, 0x7F, 1] := by decide

theorem witness_MsgeqIsFieldEqualityUpToTheFlag :
    pack ⟨1, 0x50, 1, .extended [1, 2]⟩ = .ok [1, 0, 2, 0, 0xD0, 1, 1, 2] ∧
    pack ⟨1, 0x50, 1, .inlineParams 0 0⟩ = .ok [1, 0, 0, 0, 0x50, 1] ∧
    (⟨1, none, none, none, some 9, none⟩ : RawRequest).payload = none := by decide

theorem witness_MsgeqByTwoSerializerRuns : Ser.reset.s_busy = false := by decide

/-- The three refusals (V-T3) and the two accepted forms, at their boundaries. -/
theorem witness_SerStartStep :
    let d (pld p1 p2 : Bool) (dst : Byte) (n : Nat) : SerDesc := ⟨pld, p1, p2, fields 1 dst 1 0 0 n⟩
    let dest (x : SerDesc) : Byte := if x.fields.d_has_dest then x.fields.d_dest else Config.defaultDest
    State.reset.ser.s_busy = false ∧
    (d true false true 0x50 70000).d_has_pld = true ∧ (d true false true 0x50 70000).d_has_p2 = true ∧
    65535 < (d true false false 0x50 65536).fields.d_plen ∧
    (dest (d false true true 0x80 0)).getLsbD 7 = true ∧ (dest (d false true true 0x7F 0)).getLsbD 7 = false ∧
    (65535 : U16).toNat = (d true false false 0x50 65535).fields.d_plen := by decide

/-- The last header byte of an Inline frame, and of an Extended one. -/
theorem witness_SerHeaderStepWritesOneByte :
    let s := stateOf (serAt .S_HDR 5 false 0) Par.reset [.ser]
    let x := stateOf (serAt .S_HDR 5 true 1) Par.reset [.ser]
    let y := stateOf (serAt .S_HDR 4 true 1) Par.reset [.ser]
    s.ser.s_cnt.toNat < 6 ∧ s.inputs = .ser :: [] ∧ s.ser.s_state = .S_HDR ∧
    ¬ (s.ser.s_ext = true ∧ 0 < s.ser.s_n.toNat) ∧
    x.ser.s_cnt.toNat < 6 ∧ x.ser.s_ext = true ∧ 0 < x.ser.s_n.toNat ∧ y.ser.s_cnt.toNat + 1 < 6 := by decide

/-- The first and the last payload byte. -/
theorem witness_SerBodyStepCopiesOneByte :
    let s := stateOf (serAt .S_BODY 6 true 2) Par.reset [.ser]
    let x := stateOf (serAt .S_BODY 7 true 2) Par.reset [.ser]
    s.inputs = .ser :: [] ∧ s.ser.s_state = .S_BODY ∧ s.ser.s_torn = false ∧
    6 ≤ s.ser.s_cnt.toNat ∧ s.ser.s_cnt.toNat + 1 < 6 + s.ser.s_n.toNat ∧
    x.ser.s_cnt.toNat < 6 + x.ser.s_n.toNat ∧ x.ser.s_cnt.toNat + 1 = 6 + x.ser.s_n.toNat := by decide

theorem witness_PackInlineWritesTheShortFrame :
    State.reset.ser.s_busy = false ∧ (fields 1 0x7F 1 0 0 0).destInForce.getLsbD 7 = false := by decide

theorem witness_PackInlineRefusesTheFlag :
    State.reset.ser.s_busy = false ∧ (fields 1 0x80 1 0 0 0).destInForce.getLsbD 7 = true := by decide

/-- The longest payload, and a short one. -/
theorem witness_PackExtWritesTheLongFrame :
    State.reset.ser.s_busy = false ∧ (List.replicate 65535 (9 : Byte)).length = (fields 1 2 3 0 0 65535).d_plen ∧
    (fields 1 2 3 0 0 65535).d_plen ≤ 65535 ∧ ([] : List Byte).length = (fields 1 2 3 0 0 0).d_plen :=
  ⟨rfl, List.length_replicate, by decide, rfl⟩

theorem witness_PackExtRefusesTooLongAPayload :
    State.reset.ser.s_busy = false ∧ (List.replicate 65536 (9 : Byte)).length = (fields 1 2 3 0 0 65536).d_plen ∧
    65535 < (fields 1 2 3 0 0 65536).d_plen :=
  ⟨rfl, List.length_replicate, by decide⟩

theorem witness_ConflictRowsAreRefusedAtStart : State.reset.ser.s_busy = false := by decide

/-- V-T1: seven steps, other moves between them. -/
theorem witness_SerializerRefinesPackOfConstruct :
    let d : SerDesc := ⟨false, true, true, fields 0x0211 0x50 1 1 0 0⟩
    let ts : List Turn := [.ser, .ser, .par, .ser, .ser, .ser, .ser]
    State.reset.ser.s_busy = false ∧ unitTurns ts = true ∧
    ∃ t v, exec (.startSer d) State.reset = .next t ∧
      Sys2Proof.core.run ts.length { t with inputs := ts } = .next v ∧ v.ser.s_done = true :=
  ⟨by decide, by decide, _, _, rfl, rfl, by decide⟩

theorem witness_SerializerStepCount :
    Ser.reset.s_busy = false ∧ (Ser.reset.start ⟨true, false, false, fields 1 2 3 0 0 65535⟩).s_busy = true := by decide

theorem witness_SerializerAccessesInOrder :
    Ser.reset.s_busy = false ∧ (Ser.reset.start ⟨false, false, false, fields 1 2 3 0 0 0⟩).s_busy = true := by decide

theorem witness_SerializerKeepsNothingBetweenOperations :
    Ser.reset.s_busy = false ∧ (serAt .S_DONE 6 true 0).s_busy = false ∧
    ((⟨true, false, false, fields 1 2 3 0 0 1⟩ : SerDesc).d_has_pld = true → ([9] : List Byte).length = 1) := by decide

theorem witness_ParStartStep :
    State.reset.par.p_busy = false ∧ (⟨true, 5⟩ : ParDesc).p_avail_in < 6 ∧ 6 ≤ (⟨true, 6⟩ : ParDesc).p_avail_in := by decide

theorem witness_ParHeaderStepReadsOneByte :
    let s := stateOf Ser.reset (parAt .P_HDR 4 false 8 2 0 0) [.par]
    s.par.p_cnt.toNat < 5 ∧ s.inputs = .par :: [] ∧ s.par.p_state = .P_HDR ∧ s.par.p_torn = false := by decide

/-- The five outcomes of the dispatch, each at its boundary. -/
theorem witness_ParDispatchOnTheHeader :
    let s (ho : Bool) (a : Nat) (b2 b4 : Byte) := stateOf Ser.reset (parAt .P_HDR 5 ho a b2 0 b4) [.par]
    let L (x : State) := x.par.p_hdr[2].toNat + 256 * x.par.p_hdr[3].toNat
    (s false 6 2 0x7F).inputs = .par :: [] ∧ (s false 6 2 0x7F).par.p_state = .P_HDR ∧ (s false 6 2 0x7F).par.p_cnt = 5 ∧
    (s false 6 2 0x7F).par.p_torn = false ∧ (s false 6 2 0x7F).par.p_hdr[4].getLsbD 7 = false ∧
    (s true 6 2 0x80).par.p_hdr[4].getLsbD 7 = true ∧ (s true 6 2 0x80).par.p_hdronly = true ∧
    (s false 7 2 0x80).par.p_avail < 6 + L (s false 7 2 0x80) ∧
    6 + L (s false 6 0 0x80) ≤ (s false 6 0 0x80).par.p_avail ∧ L (s false 6 0 0x80) = 0 ∧
    6 + L (s false 8 2 0x80) ≤ (s false 8 2 0x80).par.p_avail ∧ 0 < L (s false 8 2 0x80) := by decide

theorem witness_ParBodyStepCopiesOneByte :
    let s := stateOf Ser.reset (parAt .P_BODY 6 false 8 2 0 0x80) [.par]
    let x := stateOf Ser.reset (parAt .P_BODY 7 false 8 2 0 0x80) [.par]
    s.inputs = .par :: [] ∧ s.par.p_state = .P_BODY ∧ s.par.p_torn = false ∧
    6 ≤ s.par.p_cnt.toNat ∧ s.par.p_cnt.toNat + 1 < 6 + s.par.L.toNat ∧ x.par.p_cnt.toNat + 1 = 6 + x.par.L.toNat := by decide

theorem witness_UnpackOfAShortFrame : State.reset.par.p_busy = false := by decide

theorem witness_UnpackOfALongFrame :
    State.reset.par.p_busy = false ∧ (⟨1, 2, 3, 4⟩ : LongHdr).length.toNat ≤ ([7, 8] : List Byte).length := by decide

theorem witness_UnpackRefusesATruncatedFrame :
    State.reset.par.p_busy = false ∧ ([7] : List Byte).length < (⟨1, 2, 3, 4⟩ : LongHdr).length.toNat := by decide

theorem witness_HeaderOnlyOfALongFrame : State.reset.par.p_busy = false := by decide

theorem witness_UnpackOfFewerThanSixBytes :
    State.reset.par.p_busy = false ∧ ([1, 2, 3, 4, 5] : List Byte).length < 6 := by decide

/-- V-T5 and a short frame: six steps after the start. -/
theorem witness_ParserRefinesUnpack :
    let d : ParDesc := ⟨true, 6⟩
    let s := stateOf Ser.reset (parAt .P_DONE 6 false 8 2 0 0xD0) []
    let ts : List Turn := [.par, .ser, .par, .par, .par, .par, .par]
    s.par.p_busy = false ∧ unitTurns ts = true ∧
    ∃ t v, exec (.startPar d) s = .next t ∧
      Sys2Proof.core.run ts.length { t with inputs := ts } = .next v ∧ v.par.p_done = true :=
  ⟨by decide, by decide, _, _, rfl, rfl, by decide⟩

theorem witness_ParserStepCount : Par.reset.p_busy = false ∧ 6 ≤ (⟨false, 6⟩ : ParDesc).p_avail_in := by decide

theorem witness_ParserAccessesInOrder : Par.reset.p_busy = false ∧ 6 ≤ (⟨true, 6⟩ : ParDesc).p_avail_in := by decide

theorem witness_ParserKeepsNothingBetweenOperations :
    Par.reset.p_busy = false ∧ (parAt .P_DONE 6 false 8 2 0 0).p_busy = false := by decide

end Sys2Proof.Tests
end

/-! ## Buffers: reading back what was written -/

namespace Sys2Proof.Machine

/-- A byte that is written stays written. -/
theorem Memory.isSome_write {m : Memory} {j : Nat} (h : (Memory.read m j).isSome = true) (k : Nat) (b : Byte) :
    (Memory.read (Memory.write m k b) j).isSome = true :=
  Memory.isSome_writeList h k [b]

/-- A buffer written up to `n` is, after a write at `n`, written up to `n + 1`. -/
theorem Memory.written_succ {m : Memory} {n : Nat} (h : ∀ k, k < n → (Memory.read m k).isSome = true) (b : Byte) :
    ∀ k, k < n + 1 → (Memory.read (Memory.write m n b) k).isSome = true := by
  intro k hk
  rcases Nat.lt_succ_iff_lt_or_eq.1 hk with hlt | rfl
  · exact Memory.isSome_write (h k hlt) n b
  · rw [Memory.read_write_same]; rfl

/-- A list written from offset `k` is read back from there. -/
theorem Memory.bytes_writeList (sp : Space) (m : Memory) (k : Nat) (bs : List Byte) :
    Memory.bytes sp (Memory.writeList m k bs) k bs.length = bs := by
  refine Memory.bytes_eq sp _ k bs fun j hj => ?_
  rw [Memory.read_writeList, if_pos (by omega), Nat.add_sub_cancel_left]

/-- The first `j` of `n` bytes that are read. -/
theorem Memory.take_bytes (sp : Space) (m : Memory) (k : Nat) {j n : Nat} (h : j ≤ n) :
    (Memory.bytes sp m k n).take j = Memory.bytes sp m k j := by
  refine List.ext_getElem ?_ fun i h1 h2 => ?_
  · rw [List.length_take_of_le (by rw [Memory.bytes_length]; exact h), Memory.bytes_length]
  · rw [List.getElem_take, Memory.bytes_getElem, Memory.bytes_getElem]

/-- A counter below the longest frame counts up without wrapping (R16). -/
theorem toNat_cnt_succ {c : BitVec 17} (h : c.toNat < Config.frameMax) : (c + 1).toNat = c.toNat + 1 := by
  have hle : c.toNat ≤ 65540 := Nat.le_of_lt_succ h
  rw [(succ_cnt (n := 0) rfl hle).2, toNat_ofNat17 (Nat.succ_le_succ hle)]

end Sys2Proof.Machine

/-! ## SER's start: refused or accepted (R94) -/

namespace Sys2Proof.Machine

/-- The error with which SER's start step refuses a descriptor, if it does (R94). -/
def refusal (d : SerDesc) : Option Status :=
  if d.d_has_pld then
    if d.d_has_p1 || d.d_has_p2 then some .InvalidConstruction
    else if Config.lenMax < d.fields.d_plen then some .PayloadTooLarge
    else none
  else if long d.fields.destInForce then some .DestFlagViolation
  else none

/-- SER after a start that is refused with an error. -/
def Ser.refused (u : Ser) (d : SerDesc) (e : Status) : Ser :=
  { u with s_desc := d, s_torn := false, s_status := e, s_txlen := 0, s_state := .S_DONE }

/-- SER after a start that is accepted. -/
def Ser.accepted (u : Ser) (d : SerDesc) : Ser :=
  { u with
    s_desc := d, s_torn := false, s_ext := d.d_has_pld, s_n := if d.d_has_pld then d.fields.plenLow else 0
    s_h := if d.d_has_pld then d.fields.extHeader else d.inlineHeader, s_cnt := 0, s_state := .S_HDR }

/-- The start step of SER from any state in which it is not busy. -/
theorem Ser.start_eq {u : Ser} (h : u.s_busy = false) (d : SerDesc) :
    u.start d = (refusal d).elim (u.accepted d) (u.refused d) := by
  cases hp : d.d_has_pld
  · cases hf : long d.fields.destInForce
    · rw [Ser.start_inline h hp hf]
      simp [refusal, Ser.accepted, hp, hf]
    · rw [Ser.start_flag h hp hf]
      simp [refusal, Ser.refused, hp, hf]
  · by_cases hc : d.d_has_p1 = true ∨ d.d_has_p2 = true
    · rw [Ser.start_conflict h hp hc]
      simp [refusal, Ser.refused, hp, hc]
    · obtain ⟨h1, h2⟩ : d.d_has_p1 = false ∧ d.d_has_p2 = false := by simpa using hc
      rcases Nat.lt_or_ge Config.lenMax d.fields.d_plen with hl | hl
      · rw [Ser.start_tooLong h hp h1 h2 hl]
        simp [refusal, Ser.refused, hp, h1, h2, hl]
      · rw [Ser.start_ext h hp h1 h2 hl]
        simp [refusal, Ser.accepted, hp, h1, h2, Nat.not_lt.2 hl]

/-- The errors of SER's start step (R18, R94). -/
theorem refusal_mem {d : SerDesc} {e : Status} (h : refusal d = some e) :
    e = .InvalidConstruction ∨ e = .PayloadTooLarge ∨ e = .DestFlagViolation := by
  unfold refusal at h
  split at h
  · split at h
    · exact .inl (Option.some.inj h).symm
    · split at h
      · exact .inr (.inl (Option.some.inj h).symm)
      · cases h
  · split at h
    · exact .inr (.inr (Option.some.inj h).symm)
    · cases h

/-- A payload that is not refused fits the length field (R88). -/
theorem plen_le_of_not_refused {d : SerDesc} (h : refusal d = none) (hp : d.d_has_pld = true) :
    d.fields.d_plen ≤ Config.lenMax := by
  refine Nat.not_lt.1 fun hl => ?_
  simp only [refusal, hp, hl, if_true] at h
  split at h <;> cases h

/-- An Inline body that is not refused has bit 7 of its destination clear (R89). -/
theorem dest_short_of_not_refused {d : SerDesc} (h : refusal d = none) (hp : d.d_has_pld = false) :
    long d.fields.destInForce = false := by
  cases hf : long d.fields.destInForce
  · rfl
  · simp [refusal, hp, hf] at h

theorem Ser.accepted_started (u : Ser) (d : SerDesc) : (u.accepted d).Started where
  state := rfl
  cnt := rfl
  torn := rfl
  inline_n he := by
    have hp : d.d_has_pld = false := he
    simp [Ser.accepted, hp]

/-- The number of payload bytes of an accepted start (R94). -/
theorem Ser.accepted_s_n_toNat {d : SerDesc} (h : refusal d = none) (u : Ser) :
    (u.accepted d).s_n.toNat = if d.d_has_pld then d.fields.d_plen else 0 := by
  cases hp : d.d_has_pld
  · simp [Ser.accepted, hp]
  · simp [Ser.accepted, hp, SerFields.plenLow_toNat (plen_le_of_not_refused h hp)]

end Sys2Proof.Machine

/-! ## O11 for SER: every step of it keeps its states legal -/

namespace Sys2Proof.Machine

/-- What a SER that is writing a frame keeps, wherever in the frame it is: `Ser.Inv` without the rows
for its state. -/
structure Ser.Writing (u : Ser) : Prop where
  pin_wf : Memory.wf u.PIN
  txbuf_wf : Memory.wf u.TXBUF
  cnt_le : u.s_cnt.toNat ≤ 6 + u.s_n.toNat
  inline_n : u.s_ext = false → u.s_n = 0
  flag : long u.s_h[4] = u.s_ext
  status : u.s_status = .OK ∨ u.s_status = .InvalidConstruction ∨ u.s_status = .PayloadTooLarge ∨
    u.s_status = .DestFlagViolation
  failed : u.s_status ≠ .OK → u.s_txlen = 0
  header_written : ∀ k (h : k < 6), k < u.s_cnt.toNat → Memory.read u.TXBUF k = some u.s_h[k]
  written : ∀ k, k < u.s_cnt.toNat → (Memory.read u.TXBUF k).isSome = true
  placed : ∀ k, k < u.s_n.toNat → (Memory.read u.PIN k).isSome = true

theorem Ser.busy_of_hdr {u : Ser} (h : u.s_state = .S_HDR) : u.s_busy = true := by simp [Ser.s_busy, h]

theorem Ser.busy_of_body {u : Ser} (h : u.s_state = .S_BODY) : u.s_busy = true := by simp [Ser.s_busy, h]

theorem Ser.live_of_busy {u : Ser} (h : u.s_busy = true) : u.live = true := by simp [Ser.live, h]

/-- A legal busy SER is within its frame (R134). -/
theorem Ser.Inv.cnt_lt {u : Ser} (hi : u.Inv) (hb : u.s_busy = true) : u.s_cnt.toNat < 6 + u.s_n.toNat := by
  cases hs : u.s_state with
  | S_IDLE => simp [Ser.s_busy, hs] at hb
  | S_HDR => exact Nat.lt_add_right _ (hi.header hs)
  | S_BODY =>
    obtain ⟨-, -, -, hlt⟩ := hi.body hs
    exact hlt
  | S_DONE => simp [Ser.s_busy, hs] at hb

theorem Ser.Inv.writing {u : Ser} (hi : u.Inv) (hb : u.s_busy = true) : u.Writing :=
  have hl := Ser.live_of_busy hb
  { hi with
    cnt_le := Nat.le_of_lt (hi.cnt_lt hb)
    inline_n := hi.inline_n hl
    flag := hi.flag hl
    header_written := hi.header_written hl
    written := hi.written hl
    placed := hi.placed hb }

theorem Ser.Writing.cnt_le_frameMax {u : Ser} (h : u.Writing) : u.s_cnt.toNat ≤ Config.frameMax :=
  Nat.le_trans h.cnt_le (Nat.add_le_add_left (Nat.le_of_lt_succ u.s_n.isLt) 6)

/-- A SER that is writing a frame is legal in a busy state whose rows hold its counter. -/
theorem Ser.Writing.inv_of_busy {u : Ser} (h : u.Writing) (hd : u.s_state ≠ .S_DONE)
    (hh : u.s_state = .S_HDR → u.s_cnt.toNat < 6)
    (hb : u.s_state = .S_BODY → u.s_ext = true ∧ 0 < u.s_n.toNat ∧ 6 ≤ u.s_cnt.toNat ∧
      u.s_cnt.toNat < 6 + u.s_n.toNat) : u.Inv :=
  { h with
    cnt_le := h.cnt_le_frameMax
    header := hh
    body := hb
    inline_n := fun _ => h.inline_n
    flag := fun _ => h.flag
    succeeded := fun e => absurd e hd
    header_written := fun _ => h.header_written
    written := fun _ => h.written
    placed := fun _ => h.placed }

/-- A SER that has written its whole frame may end with it (R95, R96). -/
theorem Ser.Writing.inv_finish {u : Ser} (h : u.Writing) {n : BitVec 17} (hc : u.s_cnt = n)
    (hn : n.toNat = 6 + u.s_n.toNat) : (u.finish n).Inv where
  pin_wf := h.pin_wf
  txbuf_wf := h.txbuf_wf
  cnt_le := h.cnt_le_frameMax
  header := nofun
  body := nofun
  inline_n _ := h.inline_n
  flag _ := h.flag
  status := .inl rfl
  failed e := absurd rfl e
  succeeded _ _ := ⟨hn, hc⟩
  header_written _ := h.header_written
  written _ := h.written
  placed := nofun

/-- SER with one more byte of its frame written, and the counter past it. -/
def Ser.wrote (u : Ser) (b : Byte) (draws : Nat) : Ser :=
  { u with TXBUF := Memory.write u.TXBUF u.s_cnt.toNat b, s_cnt := u.s_cnt + 1, s_draws := draws }

@[simp] theorem Ser.wrote_s_n (u : Ser) (b : Byte) (draws : Nat) : (u.wrote b draws).s_n = u.s_n := rfl

@[simp] theorem Ser.wrote_s_state (u : Ser) (b : Byte) (draws : Nat) : (u.wrote b draws).s_state = u.s_state := rfl

theorem Ser.headerStep_eq_wrote (u : Ser) (h : u.s_cnt.toNat < 6) :
    u.headerStep h =
      if (u.wrote u.s_h[u.s_cnt.toNat] u.s_draws).s_cnt = 6 then
        if u.s_ext && 0 < u.s_n then { u.wrote u.s_h[u.s_cnt.toNat] u.s_draws with s_state := .S_BODY }
        else (u.wrote u.s_h[u.s_cnt.toNat] u.s_draws).finish 6
      else u.wrote u.s_h[u.s_cnt.toNat] u.s_draws := rfl

theorem Ser.bodyStep_eq_wrote (u : Ser) :
    u.bodyStep =
      if (u.wrote (u.pinData (u.s_cnt - 6).toNat) u.drawn).s_cnt = u.frameLen then
        (u.wrote (u.pinData (u.s_cnt - 6).toNat) u.drawn).finish u.frameLen
      else u.wrote (u.pinData (u.s_cnt - 6).toNat) u.drawn := rfl

/-- Within the frame, the counter moves on by one. -/
theorem Ser.wrote_cnt_toNat {u : Ser} (hlt : u.s_cnt.toNat < 6 + u.s_n.toNat) (b : Byte) (draws : Nat) :
    (u.wrote b draws).s_cnt.toNat = u.s_cnt.toNat + 1 :=
  toNat_cnt_succ (Nat.lt_of_lt_of_le hlt (Nat.add_le_add_left (Nat.le_of_lt_succ u.s_n.isLt) 6))

/-- One more byte of the frame keeps what a writing SER keeps, if a header byte is the computed one. -/
theorem Ser.Writing.wrote {u : Ser} (h : u.Writing) (hlt : u.s_cnt.toNat < 6 + u.s_n.toNat) {b : Byte}
    (hb : ∀ h6 : u.s_cnt.toNat < 6, b = u.s_h[u.s_cnt.toNat]) (draws : Nat) : (u.wrote b draws).Writing :=
  have hc := Ser.wrote_cnt_toNat hlt b draws
  { h with
    txbuf_wf := Memory.wf_write h.txbuf_wf _ _
    cnt_le := hc ▸ hlt
    header_written := by
      intro k h6 hk
      rw [hc] at hk
      rcases Nat.lt_succ_iff_lt_or_eq.1 hk with hk | rfl
      · exact (Memory.read_write_other _ _ _ _ (Nat.ne_of_lt hk)).trans (h.header_written k h6 hk)
      · exact (Memory.read_write_same _ _ _).trans (congrArg some (hb h6))
    written := by
      rw [hc]
      exact Memory.written_succ h.written b }

/-- A SER with no Extended payload byte to copy has none at all (R95). -/
theorem Ser.Writing.s_n_eq_zero {u : Ser} (h : u.Writing) (hx : ¬ (u.s_ext && 0 < u.s_n) = true) : u.s_n.toNat = 0 := by
  cases he : u.s_ext
  · rw [h.inline_n he]; rfl
  · simpa [he, BitVec.lt_def] using hx

/-- The header step keeps the states of SER legal (R95). -/
theorem Ser.Inv.headerStep {u : Ser} (hi : u.Inv) (hs : u.s_state = .S_HDR) (h : u.s_cnt.toNat < 6) :
    (u.headerStep h).Inv := by
  have hlt := Nat.lt_add_right u.s_n.toNat h
  have hw := (hi.writing (Ser.busy_of_hdr hs)).wrote hlt (b := u.s_h[u.s_cnt.toNat]) (fun _ => rfl) u.s_draws
  have hc := Ser.wrote_cnt_toNat hlt u.s_h[u.s_cnt.toNat] u.s_draws
  rw [Ser.headerStep_eq_wrote]
  split
  case isTrue h6 =>
    have hc6 : (u.wrote u.s_h[u.s_cnt.toNat] u.s_draws).s_cnt.toNat = 6 := by rw [h6]; rfl
    split
    case isTrue hx =>
      obtain ⟨he, hn⟩ : u.s_ext = true ∧ 0 < u.s_n.toNat := by simpa [BitVec.lt_def] using hx
      refine Ser.Writing.inv_of_busy (u := { u.wrote _ _ with s_state := .S_BODY }) { hw with } nofun nofun fun _ => ?_
      exact ⟨he, hn, by dsimp only; omega, by dsimp only [Ser.wrote_s_n]; omega⟩
    case isFalse hx =>
      have hn : u.s_n.toNat = 0 := hw.s_n_eq_zero hx
      exact hw.inv_finish h6 (by rw [Ser.wrote_s_n, hn]; rfl)
  case isFalse h6 =>
    have h6' : (u.wrote u.s_h[u.s_cnt.toNat] u.s_draws).s_cnt.toNat ≠ 6 := fun e => h6 (BitVec.eq_of_toNat_eq e)
    refine hw.inv_of_busy ?_ (fun _ => by omega) ?_ <;> rw [Ser.wrote_s_state, hs] <;> nofun

/-- The body step keeps the states of SER legal (R96). -/
theorem Ser.Inv.bodyStep {u : Ser} (hi : u.Inv) (hs : u.s_state = .S_BODY) : u.bodyStep.Inv := by
  obtain ⟨he, hn, h6, hlt⟩ := hi.body hs
  have hw := (hi.writing (Ser.busy_of_body hs)).wrote hlt (b := u.pinData (u.s_cnt - 6).toNat)
    (fun h => absurd h (Nat.not_lt.2 h6)) u.drawn
  have hc := Ser.wrote_cnt_toNat hlt (u.pinData (u.s_cnt - 6).toNat) u.drawn
  rw [Ser.bodyStep_eq_wrote]
  split
  case isTrue hend => exact hw.inv_finish hend (Ser.frameLen_toNat u)
  case isFalse hend =>
    have hne : (u.wrote (u.pinData (u.s_cnt - 6).toNat) u.drawn).s_cnt.toNat ≠ 6 + u.s_n.toNat :=
      fun e => hend (BitVec.eq_of_toNat_eq (e.trans (Ser.frameLen_toNat u).symm))
    refine hw.inv_of_busy ?_ ?_ (fun _ => ⟨he, hn, by omega, by rw [Ser.wrote_s_n]; omega⟩) <;>
      rw [Ser.wrote_s_state, hs] <;> nofun

/-- A step of SER keeps its states legal (R134). -/
theorem Ser.Inv.tick {u : Ser} (hi : u.Inv) : u.tick.Inv := by
  unfold Ser.tick
  split
  · next hs =>
    split
    · exact hi.headerStep hs _
    · exact hi
  · next hs =>
    split
    · exact hi.bodyStep hs
    · exact hi
  · exact hi
  · exact hi

/-- Any number of steps of SER keeps its states legal. -/
theorem Ser.Inv.run {u : Ser} (hi : u.Inv) (n : Nat) : (u.run n).Inv := by
  induction n generalizing u with
  | zero => exact hi
  | succ n ih =>
    rw [Ser.run]
    split
    · exact ih hi.tick
    · exact hi

/-- A refused start leaves SER legal: only its error is new (R94, R150). -/
theorem Ser.Inv.refused {u : Ser} (hi : u.Inv) {d : SerDesc} {e : Status} (he : refusal d = some e) :
    (u.refused d e).Inv := by
  have hm := refusal_mem he
  have hne : e ≠ .OK := by rintro rfl; simp at hm
  have hl : ¬ (u.refused d e).live = true := by simp [Ser.live, Ser.s_busy, Ser.s_done, Ser.refused, hne]
  exact
    { hi with
      header := nofun
      body := nofun
      inline_n := fun h => absurd h hl
      flag := fun h => absurd h hl
      status := .inr hm
      failed := fun _ => rfl
      succeeded := fun _ h => absurd h hne
      header_written := fun h => absurd h hl
      written := fun h => absurd h hl
      placed := nofun }

/-- An accepted start leaves SER legal, when the host has written the payload it declares (R94, R179). -/
theorem Ser.Inv.accepted {u : Ser} (hi : u.Inv) {d : SerDesc} (hr : refusal d = none)
    (hp : d.d_has_pld = true → ∀ k, k < d.fields.d_plen → (Memory.read u.PIN k).isSome = true) :
    (u.accepted d).Inv := by
  refine Ser.Writing.inv_of_busy ?_ nofun (fun _ => Nat.zero_lt_succ 5) nofun
  exact
    { hi with
      cnt_le := Nat.zero_le _
      inline_n := (u.accepted_started d).inline_n
      flag := by
        cases hd : d.d_has_pld
        · simpa [Ser.accepted, hd, SerDesc.inlineHeader] using dest_short_of_not_refused hr hd
        · simp [Ser.accepted, hd, SerFields.extHeader]
      header_written := nofun
      written := nofun
      placed := by
        intro k hk
        rw [Ser.accepted_s_n_toNat hr] at hk
        cases hd : d.d_has_pld <;> rw [hd] at hk
        · cases hk
        · exact hp hd k hk }

/-- The start step keeps the states of SER legal, when the declared payload is there (R94, R179). -/
theorem Ser.Inv.start {u : Ser} (hi : u.Inv) {d : SerDesc}
    (hp : u.s_busy = false → d.d_has_pld = true → ∀ k, k < d.fields.d_plen → (Memory.read u.PIN k).isSome = true) :
    (u.start d).Inv := by
  cases hb : u.s_busy
  · rw [Ser.start_eq hb]
    cases hr : refusal d with
    | none => exact hi.accepted hr (hp hb)
    | some e => exact hi.refused hr
  · rw [Ser.start_of_busy hb]
    exact hi

/-- The host's writes to PIN keep the states of SER legal: what is written stays written. -/
theorem Ser.Inv.hostFill {u : Ser} (hi : u.Inv) (k : Nat) (bs : List Byte) : (u.hostFill k bs).Inv :=
  { hi with
    pin_wf := Memory.wf_writeList hi.pin_wf k bs
    placed := fun hb j hj => Memory.isSome_writeList (hi.placed hb j hj) k bs }

/-- A whole SER operation keeps the states of SER legal (R134, R138). -/
theorem Ser.Inv.operation {u : Ser} (hi : u.Inv) {d : SerDesc} {payload : List Byte}
    (hp : d.d_has_pld = true → payload.length = d.fields.d_plen) : (u.operation d payload).Inv := by
  unfold Ser.operation
  split
  · exact hi
  · have hf : ({ u with PIN := Memory.writeList u.PIN 0 payload } : Ser).Inv := { hi.hostFill 0 payload with }
    exact (hf.start fun _ hd _ hk => Memory.isSome_writeList_zero _ _ (hp hd ▸ hk)).run _

/-- An idle SER is legal when its counter and status have their values of R21. -/
theorem Ser.inv_of_idle {u : Ser} (hs : u.s_state = .S_IDLE) (hc : u.s_cnt = 0) (hst : u.s_status = .OK)
    (hp : Memory.wf u.PIN) (ht : Memory.wf u.TXBUF) : u.Inv :=
  have hb : ¬ u.s_busy = true := by simp [Ser.s_busy, hs]
  have hl : ¬ u.live = true := by simp [Ser.live, hb, Ser.s_done, hs]
  { pin_wf := hp
    txbuf_wf := ht
    cnt_le := by rw [hc]; exact Nat.zero_le _
    header := fun e => absurd (hs.symm.trans e) nofun
    body := fun e => absurd (hs.symm.trans e) nofun
    inline_n := fun h => absurd h hl
    flag := fun h => absurd h hl
    status := .inl hst
    failed := fun h => absurd hst h
    succeeded := fun e => absurd (hs.symm.trans e) nofun
    header_written := fun h => absurd h hl
    written := fun h => absurd h hl
    placed := fun h => absurd h hb }

/-- The reset step keeps the states of SER legal (R170). -/
theorem Ser.Inv.resetStep {u : Ser} (hi : u.Inv) : u.resetStep.Inv :=
  Ser.inv_of_idle rfl rfl rfl hi.pin_wf hi.txbuf_wf

end Sys2Proof.Machine

/-! ## O11 for PAR: every step of it keeps its states legal -/

namespace Sys2Proof.Machine

/-- What PAR keeps in every state: its buffers are in canonical form, its counter and length in range. -/
structure Par.InRange (u : Par) : Prop where
  rxbuf_wf : Memory.wf u.RXBUF
  pout_wf : Memory.wf u.POUT
  cnt_le : u.p_cnt.toNat ≤ Config.frameMax
  avail_lt : u.p_avail < 2 ^ Config.availW

/-- What a PAR that is reading a buffer keeps, wherever in the buffer it is: `Par.Inv` without the rows
for its state. -/
structure Par.Reading (u : Par) : Prop extends u.InRange where
  avail_ge : 6 ≤ u.p_avail
  status : u.p_status = .OK ∨ u.p_status = .MalformedHeader ∨ u.p_status = .TruncatedPayload
  failed : u.p_status ≠ .OK → u.p_kind = .NONE ∧ u.p_consumed = 0
  placed : ∀ k, k < u.p_avail → (Memory.read u.RXBUF k).isSome = true

theorem Par.busy_of_hdr {u : Par} (h : u.p_state = .P_HDR) : u.p_busy = true := by simp [Par.p_busy, h]

theorem Par.busy_of_body {u : Par} (h : u.p_state = .P_BODY) : u.p_busy = true := by simp [Par.p_busy, h]

/-- A PAR that is busy has been told of a header at least (R111). -/
theorem Par.Inv.avail_ge {u : Par} (hi : u.Inv) (hb : u.p_busy = true) : 6 ≤ u.p_avail := by
  cases hs : u.p_state with
  | P_IDLE => simp [Par.p_busy, hs] at hb
  | P_HDR =>
    obtain ⟨-, ha⟩ := hi.header hs
    exact ha
  | P_BODY =>
    obtain ⟨-, -, -, ha, -, -⟩ := hi.body hs
    exact Nat.le_trans (Nat.le_add_right 6 _) ha
  | P_DONE => simp [Par.p_busy, hs] at hb

theorem Par.Inv.reading {u : Par} (hi : u.Inv) (hb : u.p_busy = true) : u.Reading :=
  { hi with
    avail_ge := hi.avail_ge hb
    placed := hi.placed hb }

/-- A PAR that is reading a header is legal in P_HDR. -/
theorem Par.Reading.inv_of_hdr {u : Par} (h : u.Reading) (hs : u.p_state = .P_HDR) (hc : u.p_cnt.toNat < 6) :
    u.Inv :=
  have hd : u.p_state ≠ .P_DONE := by rw [hs]; nofun
  { h with
    header := fun _ => ⟨hc, h.avail_ge⟩
    body := fun e => absurd (hs.symm.trans e) nofun
    succeeded := fun e => absurd e hd
    short := fun e => absurd e hd
    long_hdr := fun e => absurd e hd
    long_full := fun e => absurd e hd
    written := fun e => absurd (hs.symm.trans e) nofun
    placed := fun _ => h.placed }

/-- A PAR that is copying a payload is legal in P_BODY (R114). -/
theorem Par.Reading.inv_of_body {u : Par} (h : u.Reading) (hs : u.p_state = .P_BODY)
    (hb : u.long = true ∧ u.p_hdronly = false ∧ 0 < u.L.toNat ∧ 6 + u.L.toNat ≤ u.p_avail ∧
      6 ≤ u.p_cnt.toNat ∧ u.p_cnt.toNat < 6 + u.L.toNat)
    (hw : ∀ k, k + 6 < u.p_cnt.toNat → (Memory.read u.POUT k).isSome = true) : u.Inv :=
  have hd : u.p_state ≠ .P_DONE := by rw [hs]; nofun
  { h with
    header := fun e => absurd (hs.symm.trans e) nofun
    body := fun _ => hb
    succeeded := fun e => absurd e hd
    short := fun e => absurd e hd
    long_hdr := fun e => absurd e hd
    long_full := fun e => absurd e hd
    written := fun _ => hw
    placed := fun _ => h.placed }

/-- What the result of kind `k` that used `n` bytes says of the header PAR holds (R113, R114). -/
def Par.Fits (u : Par) (n : BitVec 17) : Kind → Prop
  | .NONE => False
  | .SHORT => u.long = false ∧ n = 6
  | .LONG_HDR => u.long = true ∧ u.p_hdronly = true ∧ n = 6
  | .LONG_FULL => u.long = true ∧ u.p_hdronly = false ∧ n.toNat = 6 + u.L.toNat ∧ 6 + u.L.toNat ≤ u.p_avail ∧
      ∀ k, k < u.L.toNat → (Memory.read u.POUT k).isSome = true

/-- A PAR that is reading may end with a result that fits the header it holds. -/
theorem Par.Reading.inv_finish {u : Par} (h : u.Reading) {k : Kind} {n : BitVec 17} (hf : u.Fits n k) :
    (u.finish k n).Inv :=
  { h with
    header := nofun
    body := nofun
    status := .inl rfl
    failed := fun e => absurd rfl e
    succeeded := by rintro - - rfl; exact hf
    short := by rintro - rfl; exact hf
    long_hdr := by rintro - rfl; exact hf
    long_full := by rintro - rfl; exact hf
    written := nofun
    placed := nofun }

/-- PAR may end with one of its errors in every state (R150). -/
theorem Par.InRange.inv_raise {u : Par} (h : u.InRange) {e : Status}
    (he : e = .MalformedHeader ∨ e = .TruncatedPayload) : (u.raise e).Inv :=
  { h with
    header := nofun
    body := nofun
    status := .inr he
    failed := fun _ => ⟨rfl, rfl⟩
    succeeded := by rintro - rfl; simp at he
    short := nofun
    long_hdr := nofun
    long_full := nofun
    written := nofun
    placed := nofun }

/-- The dispatch on the header that PAR holds leads to a legal state, in each of its five cases (R113). -/
theorem Par.Reading.inv_dispatch {u : Par} (h : u.Reading) (hc : u.p_cnt = 6) : u.dispatch.Inv := by
  cases hl : u.long
  · rw [Par.dispatch_short hl]
    exact h.inv_finish ⟨hl, rfl⟩
  cases ho : u.p_hdronly
  · rcases Nat.lt_or_ge u.p_avail (6 + u.L.toNat) with ha | ha
    · rw [Par.dispatch_truncated hl ho ha]
      exact h.inv_raise (.inr rfl)
    rcases Nat.eq_zero_or_pos u.L.toNat with hL | hL
    · rw [Par.dispatch_empty hl ho ha hL]
      exact h.inv_finish ⟨hl, ho, by rw [hL]; rfl, ha, fun k hk => absurd (hL ▸ hk) (Nat.not_lt_zero k)⟩
    · rw [Par.dispatch_body hl ho ha hL]
      refine Par.Reading.inv_of_body (u := { u with p_state := .P_BODY }) { h with } rfl ?_ ?_
      · exact ⟨hl, ho, hL, ha, by rw [hc]; decide, by rw [hc]; exact Nat.lt_add_of_pos_right hL⟩
      · intro k hk
        rw [hc] at hk
        exact absurd hk (Nat.not_lt.2 (Nat.le_add_left 6 k))
  · rw [Par.dispatch_header hl ho]
    exact h.inv_finish ⟨hl, ho, rfl⟩

/-- The header step keeps the states of PAR legal (R112). -/
theorem Par.Inv.headerStep {u : Par} (hi : u.Inv) (hs : u.p_state = .P_HDR) (h : u.p_cnt.toNat < 6) :
    (u.headerStep h).Inv := by
  have hc : (u.p_cnt + 1).toNat = u.p_cnt.toNat + 1 := toNat_cnt_succ (Nat.lt_trans h (by decide))
  have hr := hi.reading (Par.busy_of_hdr hs)
  have hle : (u.p_cnt + 1).toNat ≤ Config.frameMax := by rw [hc]; exact Nat.lt_trans h (by decide)
  unfold Par.headerStep
  dsimp only
  split
  case isTrue h6 => exact Par.Reading.inv_dispatch { hr with cnt_le := hle } h6
  case isFalse h6 =>
    have hne : (u.p_cnt + 1).toNat ≠ 6 := fun e => h6 (BitVec.eq_of_toNat_eq e)
    exact Par.Reading.inv_of_hdr { hr with cnt_le := hle } hs (by dsimp only; omega)

/-- The offset in POUT of the byte that the body step copies (R114). -/
theorem Par.pout_offset {u : Par} (h : 6 ≤ u.p_cnt.toNat) : (u.p_cnt - 6).toNat = u.p_cnt.toNat - 6 :=
  BitVec.toNat_sub_of_le (BitVec.le_def.2 h)

/-- The body step keeps the states of PAR legal (R114). -/
theorem Par.Inv.bodyStep {u : Par} (hi : u.Inv) (hs : u.p_state = .P_BODY) : u.bodyStep.Inv := by
  obtain ⟨hl, ho, hL, ha, h6, hlt⟩ := hi.body hs
  have hr := hi.reading (Par.busy_of_body hs)
  have hmax : 6 + u.L.toNat ≤ Config.frameMax := Nat.add_le_add_left (Nat.le_of_lt_succ u.L.isLt) 6
  have hc : (u.p_cnt + 1).toNat = u.p_cnt.toNat + 1 := toNat_cnt_succ (Nat.lt_of_lt_of_le hlt hmax)
  have hle : (u.p_cnt + 1).toNat ≤ Config.frameMax := by omega
  have hwf := Memory.wf_write hr.pout_wf (u.p_cnt - 6).toNat (u.rxData u.p_cnt.toNat)
  have hw : ∀ k, k + 6 < (u.p_cnt + 1).toNat →
      (Memory.read (Memory.write u.POUT (u.p_cnt - 6).toNat (u.rxData u.p_cnt.toNat)) k).isSome = true := by
    intro k hk
    rw [Par.pout_offset h6]
    exact Memory.written_succ (fun j hj => hi.written hs j (by omega)) _ k (by omega)
  unfold Par.bodyStep
  dsimp only
  split
  case isTrue hend =>
    have hlen : (u.p_cnt + 1).toNat = 6 + u.L.toNat := hend ▸ Par.frameLen_toNat u
    refine Par.Reading.inv_finish ?_ ?_
    · exact { hr with pout_wf := hwf, cnt_le := hle }
    · refine ⟨hl, ho, Par.frameLen_toNat u, ha, fun k hk => hw k ?_⟩
      rw [hlen, Nat.add_comm]
      exact Nat.add_lt_add_left hk 6
  case isFalse hend =>
    have hne : (u.p_cnt + 1).toNat ≠ 6 + u.L.toNat :=
      fun e => hend (BitVec.eq_of_toNat_eq (e.trans (Par.frameLen_toNat u).symm))
    refine Par.Reading.inv_of_body { hr with pout_wf := hwf, cnt_le := hle } hs
      ⟨hl, ho, hL, ha, by dsimp only; omega, ?_⟩ hw
    change (u.p_cnt + 1).toNat < 6 + u.L.toNat
    omega

/-- A step of PAR keeps its states legal (R135). -/
theorem Par.Inv.tick {u : Par} (hi : u.Inv) : u.tick.Inv := by
  unfold Par.tick
  split
  · next hs =>
    split
    · exact hi.headerStep hs _
    · exact hi
  · next hs =>
    split
    · exact hi.bodyStep hs
    · exact hi
  · exact hi
  · exact hi

/-- Any number of steps of PAR keeps its states legal. -/
theorem Par.Inv.run {u : Par} (hi : u.Inv) (n : Nat) : (u.run n).Inv := by
  induction n generalizing u with
  | zero => exact hi
  | succ n ih =>
    rw [Par.run]
    split
    · exact ih hi.tick
    · exact hi

/-- The start step keeps the states of PAR legal, when the bytes it declares are there (R111, R179). -/
theorem Par.Inv.start {u : Par} (hi : u.Inv) {d : ParDesc} (hd : d.p_avail_in < 2 ^ Config.availW)
    (hp : u.p_busy = false → ∀ k, k < d.p_avail_in → (Memory.read u.RXBUF k).isSome = true) : (u.start d).Inv := by
  cases hb : u.p_busy
  · rcases Nat.lt_or_ge d.p_avail_in 6 with ha | ha
    · rw [Par.start_malformed hb ha]
      exact Par.InRange.inv_raise
        (u := { u with p_hdronly := d.p_hdronly_in, p_avail := d.p_avail_in, p_torn := false })
        { hi with avail_lt := hd } (.inl rfl)
    · rw [Par.start_accepted hb ha]
      exact Par.Reading.inv_of_hdr
        { hi with cnt_le := Nat.zero_le _, avail_ge := ha, avail_lt := hd, placed := hp hb } rfl (Nat.zero_lt_succ 5)
  · rw [Par.start_of_busy hb]
    exact hi

/-- The host's writes to RXBUF keep the states of PAR legal: what is written stays written. -/
theorem Par.Inv.hostFill {u : Par} (hi : u.Inv) (k : Nat) (bs : List Byte) : (u.hostFill k bs).Inv :=
  { hi with
    rxbuf_wf := Memory.wf_writeList hi.rxbuf_wf k bs
    placed := fun hb j hj => Memory.isSome_writeList (hi.placed hb j hj) k bs }

/-- A whole PAR operation keeps the states of PAR legal (R135, R138). -/
theorem Par.Inv.operation {u : Par} (hi : u.Inv) (headerOnly : Bool) {buf : List Byte}
    (hb : buf.length < 2 ^ Config.availW) : (u.operation headerOnly buf).Inv := by
  unfold Par.operation
  split
  · exact hi
  · have hf : ({ u with RXBUF := Memory.writeList u.RXBUF 0 buf } : Par).Inv := { hi.hostFill 0 buf with }
    exact ((hf.start hb fun _ _ hk => Memory.isSome_writeList_zero _ _ hk).run _).run _

/-- An idle PAR is legal when its counter and status have their values of R21. -/
theorem Par.inv_of_idle {u : Par} (hs : u.p_state = .P_IDLE) (hc : u.p_cnt = 0) (hst : u.p_status = .OK)
    (hr : Memory.wf u.RXBUF) (hp : Memory.wf u.POUT) (ha : u.p_avail < 2 ^ Config.availW) : u.Inv :=
  have hd : u.p_state ≠ .P_DONE := by rw [hs]; nofun
  have hb : ¬ u.p_busy = true := by simp [Par.p_busy, hs]
  { rxbuf_wf := hr
    pout_wf := hp
    cnt_le := by rw [hc]; exact Nat.zero_le _
    avail_lt := ha
    header := fun e => absurd (hs.symm.trans e) nofun
    body := fun e => absurd (hs.symm.trans e) nofun
    status := .inl hst
    failed := fun h => absurd hst h
    succeeded := fun e => absurd e hd
    short := fun e => absurd e hd
    long_hdr := fun e => absurd e hd
    long_full := fun e => absurd e hd
    written := fun e => absurd (hs.symm.trans e) nofun
    placed := fun h => absurd h hb }

/-- The reset step keeps the states of PAR legal (R170). -/
theorem Par.Inv.resetStep {u : Par} (hi : u.Inv) : u.resetStep.Inv :=
  Par.inv_of_idle rfl rfl rfl hi.rxbuf_wf hi.pout_wf (BitVec.isLt _)

end Sys2Proof.Machine

/-! ## What decodes is well formed (R50, R67, R69, R179) -/

namespace Sys2Proof

theorem decodeFrame_wellFormed {bytes : List Byte} {i : Instr} (h : decodeFrame bytes = .ok i) :
    i.wellFormed = true := by
  unfold decodeFrame at h
  split at h
  · dsimp only at h
    split at h
    · split at h <;> cases h
      rfl
    · split at h
      · split at h
        case isTrue hlen => cases h; exact hlen
        case isFalse => cases h
      · cases h
  · cases h

theorem decodeParse_wellFormed {headerOnly : Bool} {buf : List Byte} {i : Instr}
    (h : decodeParse headerOnly buf = .ok i) : i.wellFormed = true := by
  unfold decodeParse at h
  split at h
  · dsimp only at h
    split at h
    case isTrue hfit =>
      split at h
      · cases h; exact hfit
      · split at h
        · cases h; exact hfit
        · split at h
          · cases h; exact hfit
          · split at h <;> cases h
            exact hfit
    case isFalse => cases h
  · next hno =>
    cases h
    refine decide_eq_true (Nat.not_le.1 fun hlen => ?_)
    match buf, hlen with
    | b0 :: b1 :: b2 :: b3 :: b4 :: b5 :: rest, _ => exact hno b0 b1 b2 b3 b4 b5 rest rfl

theorem decodeSerialize_wellFormed {d : SerDesc} {payload : List Byte} {i : Instr}
    (h : decodeSerialize d payload = .ok i) : i.wellFormed = true := by
  unfold decodeSerialize at h
  dsimp only at h
  split at h
  case isTrue => cases h
  case isFalse hfit =>
    have hfit : plenFits d.fields.d_plen = true := by simpa using hfit
    split at h
    · split at h <;> cases h
      exact hfit
    · split at h
      case isTrue hlen =>
        have hdecl : payloadDeclared d.fields payload = true := by rw [payloadDeclared, hlen, hfit]; rfl
        split at h
        · cases h; exact hdecl
        · split at h
          · cases h; exact hdecl
          · next hp1 =>
            split at h <;> cases h
            next hp2 =>
              rw [rowConflictP1_selects] at hp1
              rw [rowConflictP2_selects, Bool.and_eq_true] at hp2
              obtain ⟨hpld, -⟩ := hp2
              have hno : d.d_has_p1 = false := by simpa [hpld] using hp1
              simp [Instr.wellFormed, hno, hdecl]
      case isFalse => cases h

/-- What decodes is an instruction whose declared lengths fit their fields and are the lengths present. -/
theorem decode_wellFormed {w : Presented} {i : Instr} (h : decode w = .ok i) : i.wellFormed = true := by
  cases w with
  | frame bytes => exact decodeFrame_wellFormed h
  | parse headerOnly buf => exact decodeParse_wellFormed h
  | serialize d payload => exact decodeSerialize_wellFormed h
  | request r => cases h; rfl
  | messages m1 m2 => cases h; rfl
  | sStart d =>
    rw [decode] at h
    split at h
    case isTrue hfit => cases h; exact hfit
    case isFalse => cases h
  | pStart d =>
    rw [decode] at h
    split at h
    case isTrue hfit => cases h; exact hfit
    case isFalse => cases h
  | rst => cases h; rfl
  | noFormat nbits n => cases h

/-- A payload that is the declared one has the declared length (R179). -/
theorem length_of_payloadDeclared {f : SerFields} {payload : List Byte} (h : payloadDeclared f payload = true) :
    payload.length = f.d_plen := by
  rw [payloadDeclared, Bool.and_eq_true, beq_iff_eq] at h
  exact h.1

end Sys2Proof

/-! ## O11: every instruction and every move keeps the states of the machine legal -/

namespace Sys2Proof.Machine

/-- The payload that a truthful start declares stands in PIN (R179). -/
theorem pin_written_of_lengthTruthful {s : State} (hw : Memory.wf s.ser.PIN) {d : SerDesc}
    (ht : lengthTruthful (.startSer d) s = true) (hb : s.ser.s_busy = false) (hp : d.d_has_pld = true) :
    ∀ k, k < d.fields.d_plen → (Memory.read s.ser.PIN k).isSome = true := by
  refine (Memory.le_placed_iff hw _).1 ?_
  simpa [lengthTruthful, hb, hp] using ht

/-- The bytes that a truthful start declares stand in RXBUF (R179). -/
theorem rxbuf_written_of_lengthTruthful {s : State} (hw : Memory.wf s.par.RXBUF) {d : ParDesc}
    (ht : lengthTruthful (.startPar d) s = true) (hb : s.par.p_busy = false) :
    ∀ k, k < d.p_avail_in → (Memory.read s.par.RXBUF k).isSome = true := by
  refine (Memory.le_placed_iff hw _).1 ?_
  simpa [lengthTruthful, hb] using ht

theorem bufferFits_iff (n : Nat) : bufferFits n = true ↔ n < 2 ^ Config.availW := decide_eq_true_iff

/-- A buffer of a header and what follows it fits when its length does (R69). -/
theorem length_of_bufferFits {hdr rest : List Byte} (hl : hdr.length = 6)
    (h : bufferFits (Config.hdrLen + rest.length) = true) : (hdr ++ rest).length < 2 ^ Config.availW := by
  rw [List.length_append, hl]
  exact (bufferFits_iff _).1 h

/-- Every instruction that can be presented keeps states legal, when the lengths it declares are truthful. -/
theorem exec_keeps_inv {i : Instr} {s t : State} (hs : s.Inv) (hi : i.wellFormed = true)
    (ht : lengthTruthful i s = true) (h : exec i s = .next t) : t.Inv := by
  cases i with
  | frameShort hdr => cases h; exact ⟨hs.ser, hs.par.hostFill 0 _⟩
  | frameLong hdr payload => cases h; exact ⟨hs.ser, hs.par.hostFill 0 _⟩
  | unpackShort hdr rest => cases h; exact ⟨hs.ser, hs.par.operation false (length_of_bufferFits rfl hi)⟩
  | unpackLong hdr rest => cases h; exact ⟨hs.ser, hs.par.operation false (length_of_bufferFits rfl hi)⟩
  | unpackhShort hdr rest => cases h; exact ⟨hs.ser, hs.par.operation true (length_of_bufferFits rfl hi)⟩
  | unpackhLong hdr rest => cases h; exact ⟨hs.ser, hs.par.operation true (length_of_bufferFits rfl hi)⟩
  | unpackMalformed headerOnly buf =>
    cases h
    have hlen : buf.length < 6 := of_decide_eq_true hi
    exact ⟨hs.ser, hs.par.operation headerOnly (Nat.lt_trans hlen (by decide))⟩
  | packInline hasP1 hasP2 f => cases h; exact ⟨hs.ser.operation nofun, hs.par⟩
  | packExt f payload => cases h; exact ⟨hs.ser.operation fun _ => length_of_payloadDeclared hi, hs.par⟩
  | constructConflictP1 hasP2 f payload =>
    cases h; exact ⟨hs.ser.operation fun _ => length_of_payloadDeclared hi, hs.par⟩
  | constructConflictP2 hasP1 f payload =>
    cases h
    obtain ⟨-, hdecl⟩ : hasP1 = false ∧ payloadDeclared f payload = true := by simpa [Instr.wellFormed] using hi
    exact ⟨hs.ser.operation fun _ => length_of_payloadDeclared hdecl, hs.par⟩
  | construct r => cases h; exact ⟨hs.ser, hs.par⟩
  | msgeq m1 m2 => cases h; exact ⟨hs.ser, hs.par⟩
  | startSer d => cases h; exact ⟨hs.ser.start (pin_written_of_lengthTruthful hs.ser.pin_wf ht), hs.par⟩
  | startPar d =>
    cases h
    exact ⟨hs.ser, hs.par.start ((bufferFits_iff _).1 hi) (rxbuf_written_of_lengthTruthful hs.par.rxbuf_wf ht)⟩
  | reset => cases h; exact ⟨hs.ser.resetStep, hs.par.resetStep⟩

/-- Every move of an agent keeps states legal (R130). -/
theorem turn_keeps_inv {m : Turn} {s t : State} (hs : s.Inv) (h : turn m s = .next t) : t.Inv := by
  cases m with
  | present w =>
    rw [turn, present] at h
    split at h
    · next i hd =>
      split at h
      case isTrue ht => exact exec_keeps_inv hs (decode_wellFormed hd) ht h
      case isFalse => cases h
    · cases h
  | fillRx k bs => cases h; exact ⟨hs.ser, hs.par.hostFill k bs⟩
  | fillPin k bs => cases h; exact ⟨hs.ser.hostFill k bs, hs.par⟩
  | ser => cases h; exact ⟨hs.ser.tick, hs.par⟩
  | par => cases h; exact ⟨hs.ser, hs.par.tick⟩

/-- Settles O11: a step is a move or the clock, and each keeps the states of both units legal. -/
theorem everyStepKeepsStatesLegal : Obligations.EveryStepKeepsStatesLegal := by
  intro s t hs h
  cases hin : s.inputs with
  | nil =>
    rw [step_of_no_inputs hin] at h
    cases h
    exact ⟨hs.ser.tick, hs.par.tick⟩
  | cons m rest =>
    rw [step_of_inputs hin] at h
    exact turn_keeps_inv (s := { s with inputs := rest }) ⟨hs.ser, hs.par⟩ h

/-- Settles O10: after reset both units are idle, so only the ranges and the status are asked of them. -/
theorem resetStateIsLegal : Obligations.ResetStateIsLegal where
  ser := Ser.inv_of_idle rfl rfl rfl .nil .nil
  par := Par.inv_of_idle rfl rfl rfl .nil .nil (by decide)

/-- Settles O1: each value stands in the definition of the reset state (R21). -/
theorem resetStateHasTheValuesOfTheTable : Obligations.ResetStateHasTheValuesOfTheTable :=
  ⟨rfl, rfl, rfl, rfl, rfl, rfl, rfl, rfl, rfl, rfl, rfl, rfl, rfl⟩

end Sys2Proof.Machine

/-! ## O46: what a SER operation reports is `send` of the request it was handed -/

namespace Sys2Proof.Machine

theorem Ser.response_of_done {u : Ser} (hd : u.s_state = .S_DONE) :
    u.response = some (if u.s_status = .OK then .ok (Memory.bytes .TXBUF u.TXBUF 0 u.s_txlen.toNat)
      else .error u.s_status) := by
  by_cases hs : u.s_status = .OK <;> simp [Ser.response, Ser.s_done, hd, hs]

/-- A refused start reports its error (R150). -/
theorem Ser.refused_response {d : SerDesc} {e : Status} (h : refusal d = some e) (u : Ser) :
    (u.refused d e).response = some (.error e) := by
  have hne : e ≠ .OK := by rintro rfl; simpa using refusal_mem h
  rw [Ser.response_of_done rfl]
  exact congrArg some (if_neg hne)

/-- An operation that has ended reports its frame (R68, R97). -/
theorem Ser.ended_response (u : Ser) : u.ended.response = some (.ok u.frame) := by
  rw [Ser.response_of_done rfl]
  change some (Except.ok (Memory.bytes .TXBUF (Memory.writeList u.TXBUF 0 u.frame) 0 u.frameLen.toNat)) = _
  rw [Ser.frameLen_toNat, ← Ser.frame_length, Memory.bytes_writeList]

/-- The frame that an accepted start will write is the header of its body's variant and the payload that
stands in PIN (R86, R87). -/
theorem Ser.accepted_frame {d : SerDesc} (h : refusal d = none) (u : Ser) :
    (u.accepted d).frame =
      if d.d_has_pld then d.fields.extHeader.toList ++ Memory.bytes .PIN u.PIN 0 d.fields.d_plen
      else d.inlineHeader.toList := by
  rw [Ser.frame, Ser.accepted_s_n_toNat h]
  cases hp : d.d_has_pld
  · simp [Ser.accepted, hp, Memory.bytes]
  · simp [Ser.accepted, hp]

/-- `send` refuses what SER's start step refuses, and gives what SER writes: the header of the body's
variant and the payload (R86, R87, R94). -/
theorem send_requestOf {d : SerDesc} {payload : List Byte}
    (hp : d.d_has_pld = true → payload.length = d.fields.d_plen) :
    send (requestOf d payload) = (refusal d).elim
      (.ok (if d.d_has_pld then d.fields.extHeader.toList ++ payload else d.inlineHeader.toList)) .error := by
  rw [send, construct_requestOf]
  cases hd : d.d_has_pld
  · cases hf : long d.fields.destInForce <;> simp [refusal, hd, hf, pack, packInline, SerDesc.inlineHeader]
  · by_cases hc : d.d_has_p1 = true ∨ d.d_has_p2 = true
    · simp [refusal, hd, hc]
    · rcases Nat.lt_or_ge Config.lenMax d.fields.d_plen with hl | hl
      · simp [refusal, hd, hc, pack, packExt_of_gt, hp hd, hl]
      · simp [refusal, hd, hc, pack, packExt_of_le, hp hd, Nat.not_lt.2 hl, hl, extFrame, SerFields.extHeader,
          SerFields.plenLow]

/-- A whole SER operation reports what `send` gives for the request that its descriptor and payload stand
for, from every state in which SER is not busy (R81, R134). -/
theorem Ser.operation_response {u : Ser} (h : u.s_busy = false) {d : SerDesc} {payload : List Byte}
    (hp : d.d_has_pld = true → payload.length = d.fields.d_plen) :
    (u.operation d payload).response = some (send (requestOf d payload)) := by
  have hs := Ser.start_eq (u := { u with PIN := Memory.writeList u.PIN 0 payload }) h d
  rw [send_requestOf hp]
  cases hr : refusal d with
  | some e =>
    rw [hr, Option.elim_some] at hs
    rw [Ser.operation_of_refused h (by rw [hs]; rfl), hs, Ser.refused_response hr]
    rfl
  | none =>
    rw [hr, Option.elim_none] at hs
    rw [Ser.operation_of_started h (by rw [hs]; exact Ser.accepted_started _ d), hs, Ser.ended_response,
      Ser.accepted_frame hr, Option.elim_none]
    cases hd : d.d_has_pld
    · rfl
    · simp only [if_true, ← hp hd, Memory.bytes_writeList]

/-- Settles O46: what SER reports is `send` of the request alone. -/
theorem serializerKeepsNothingBetweenOperations : Obligations.SerializerKeepsNothingBetweenOperations := by
  intro d payload u v hu hv hp
  rw [Ser.operation_response hu hp, Ser.operation_response hv hp]
  exact ⟨rfl, nofun⟩

end Sys2Proof.Machine

/-! ## O60: what a PAR operation reports is `unpack` of its buffer -/

namespace Sys2Proof.Machine

theorem Par.response_of_raise (u : Par) {e : Status} (he : e ≠ .OK) : (u.raise e).response = some (.error e) := by
  simp [Par.response, Par.p_done, he]

theorem Par.response_of_finish_short (u : Par) (n : BitVec 17) :
    (u.finish .SHORT n).response = some (.ok (.short ⟨le16 u.p_hdr[0] u.p_hdr[1], u.p_hdr[4], u.p_hdr[5],
      .inlineParams u.p_hdr[2] u.p_hdr[3]⟩ n.toNat)) := rfl

theorem Par.response_of_finish_header (u : Par) (n : BitVec 17) :
    (u.finish .LONG_HDR n).response =
      some (.ok (.longHeader (le16 u.p_hdr[0] u.p_hdr[1]) u.p_hdr[4] u.p_hdr[5] u.L n.toNat)) := rfl

theorem Par.response_of_finish_full (u : Par) (n : BitVec 17) :
    (u.finish .LONG_FULL n).response = some (.ok (.longFull ⟨le16 u.p_hdr[0] u.p_hdr[1], clearLong u.p_hdr[4],
      u.p_hdr[5], .extended (Memory.bytes .POUT u.POUT 0 u.L.toNat)⟩ n.toNat)) := rfl

/-- A body that has been copied is reported whole (R114). -/
theorem Par.response_of_copied (u : Par) :
    u.copied.response = some (.ok (.longFull ⟨le16 u.p_hdr[0] u.p_hdr[1], clearLong u.p_hdr[4], u.p_hdr[5],
      .extended u.payload⟩ (6 + u.L.toNat))) := by
  have hp := Memory.bytes_writeList .POUT u.POUT 0 u.payload
  rw [Par.payload_length] at hp
  have hc : u.copied = Par.finish { u with POUT := Memory.writeList u.POUT 0 u.payload, p_cnt := u.frameLen }
    .LONG_FULL u.frameLen := rfl
  rw [hc, Par.response_of_finish_full, Par.frameLen_toNat]
  exact congrArg (fun bs => some (Except.ok (DecodeResult.longFull ⟨_, _, _, .extended bs⟩ _))) hp

/-- The buffer that PAR was told of, as the header it will hold and what follows it. -/
theorem Par.buffer_eq (u : Par) (ha : 6 ≤ u.p_avail) :
    Memory.bytes .RXBUF u.RXBUF 0 u.p_avail =
      (u.held 6)[0] :: (u.held 6)[1] :: (u.held 6)[2] :: (u.held 6)[3] :: (u.held 6)[4] :: (u.held 6)[5] ::
        Memory.bytes .RXBUF u.RXBUF 6 (u.p_avail - 6) := by
  obtain ⟨n, hn⟩ := Nat.exists_eq_add_of_le' ha
  rw [hn]
  simp [Par.held, Memory.bytes]

/-- The dispatch on the header that PAR holds, and the body after it, end with what `unpack` gives for the
header and the bytes that follow it (R100, R113). -/
theorem Par.dispatch_response (u : Par) (ha : 6 ≤ u.p_avail) :
    (if u.dispatch.p_state = .P_BODY then u.dispatch.copied else u.dispatch).response =
      some (unpack (u.p_hdr[0] :: u.p_hdr[1] :: u.p_hdr[2] :: u.p_hdr[3] :: u.p_hdr[4] :: u.p_hdr[5] ::
        Memory.bytes .RXBUF u.RXBUF 6 (u.p_avail - 6)) u.p_hdronly) := by
  have hL : le16 u.p_hdr[2] u.p_hdr[3] = u.L := rfl
  have hlong : Sys2Proof.long u.p_hdr[4] = u.long := rfl
  rw [unpack, hL, hlong, Memory.bytes_length]
  cases hl : u.long
  · rw [Par.dispatch_short hl, if_neg nofun, Par.response_of_finish_short]
    rfl
  cases ho : u.p_hdronly
  · rcases Nat.lt_or_ge u.p_avail (6 + u.L.toNat) with hlt | hge
    · rw [Par.dispatch_truncated hl ho hlt, if_neg nofun, Par.response_of_raise (e := .TruncatedPayload) _ nofun,
        if_pos (show u.p_avail - 6 < u.L.toNat by omega)]
      rfl
    rw [if_neg (show ¬ u.p_avail - 6 < u.L.toNat by omega), Memory.take_bytes _ _ _ (by omega)]
    rcases Nat.eq_zero_or_pos u.L.toNat with h0 | hpos
    · rw [Par.dispatch_empty hl ho hge h0, if_neg nofun, Par.response_of_finish_full, h0]
      rfl
    · rw [Par.dispatch_body hl ho hge hpos, if_pos rfl, Par.response_of_copied]
      rfl
  · rw [Par.dispatch_header hl ho, if_neg nofun, Par.response_of_finish_header]
    rfl

/-- An operation that PAR has accepted ends with what `unpack` gives for the bytes it was told of (R135). -/
theorem Par.ended_response (u : Par) (ha : 6 ≤ u.p_avail) :
    u.ended.response = some (unpack (Memory.bytes .RXBUF u.RXBUF 0 u.p_avail) u.p_hdronly) := by
  rw [u.buffer_eq ha]
  exact Par.dispatch_response { u with p_hdr := u.held 6, p_cnt := 6 } ha

/-- Fewer than six bytes are no header (R100). -/
theorem unpack_of_lt_six {buf : List Byte} (h : buf.length < 6) (headerOnly : Bool) :
    unpack buf headerOnly = .error .MalformedHeader := by
  unfold unpack
  split
  · next b0 b1 b2 b3 b4 b5 rest => exact absurd h (Nat.not_lt.2 (Nat.le_add_left 6 rest.length))
  · rfl

/-- A whole PAR operation reports what `unpack` gives for its buffer and mode, from every state in which
PAR is not busy (R110, R135, R178). -/
theorem Par.operation_response {u : Par} (h : u.p_busy = false) (headerOnly : Bool) (buf : List Byte) :
    (u.operation headerOnly buf).response = some (unpack buf headerOnly) := by
  rcases Nat.lt_or_ge buf.length 6 with hlt | hge
  · rw [Par.operation_of_malformed h hlt, unpack_of_lt_six hlt]
    rfl
  · rw [Par.operation_of_started h hge,
      Par.start_accepted (u := { u with RXBUF := Memory.writeList u.RXBUF 0 buf }) h hge, Par.ended_response _ hge,
      Memory.bytes_writeList]

/-- Settles O60: what PAR reports is `unpack` of its buffer and mode alone. -/
theorem parserKeepsNothingBetweenOperations : Obligations.ParserKeepsNothingBetweenOperations := by
  intro headerOnly buf u v hu hv
  rw [Par.operation_response hu, Par.operation_response hv]
  exact ⟨rfl, rfl⟩

end Sys2Proof.Machine

/-! ## O15: unit steps touch their own unit alone -/

namespace Sys2Proof.Machine

theorem unitTurns_cons (t : Turn) (ts : List Turn) :
    unitTurns (t :: ts) = true ↔ (t = .ser ∨ t = .par) ∧ unitTurns ts = true := by
  simp [unitTurns]

/-- Settles O15, by induction on the moves to come: each is one step of its own unit (R38, R130). -/
theorem unitsStepIndependently : Obligations.UnitsStepIndependently := by
  intro s ts hts hin
  induction ts generalizing s with
  | nil =>
    obtain ⟨ser, par, ret, inputs⟩ := s
    cases hin
    rfl
  | cons t rest ih =>
    obtain ⟨rfl | rfl, hrest⟩ := (unitTurns_cons t rest).1 hts
    · have hstep : step s = .next { s with ser := s.ser.tick, inputs := rest } := step_of_inputs hin
      rw [List.length_cons, run_succ hstep, ih _ hrest rfl, List.count_cons_self,
        List.count_cons_of_ne (by decide), Function.iterate_succ_apply]
    · have hstep : step s = .next { s with par := s.par.tick, inputs := rest } := step_of_inputs hin
      rw [List.length_cons, run_succ hstep, ih _ hrest rfl, List.count_cons_self,
        List.count_cons_of_ne (by decide), Function.iterate_succ_apply]

end Sys2Proof.Machine

/-! ## The accesses of a run, step by step (R36) -/

namespace Sys2Proof.Machine

/-- A run that makes a unit's accesses while the unit is busy makes those of each step in turn, when a unit
that is not busy makes none and stays as it is. -/
theorem flatMap_of_busy_run {α : Type} {busy : α → Bool} {accesses : α → List Access} {tick : α → α}
    {run : Nat → α → List Access} (hzero : ∀ u, run 0 u = [])
    (hsucc : ∀ n u, run (n + 1) u = if busy u then accesses u ++ run n (tick u) else [])
    (hidle : ∀ u, busy u = false → accesses u = [] ∧ tick u = u) (n : Nat) (u : α) :
    run n u = (List.range n).flatMap fun k => accesses (tick^[k] u) := by
  induction n generalizing u with
  | zero => exact hzero u
  | succ n ih =>
    rw [hsucc, List.range_succ_eq_map, List.flatMap_cons, List.flatMap_map]
    cases hb : busy u
    · obtain ⟨ha, ht⟩ := hidle u hb
      have hfix : ∀ k, tick^[k] u = u := Function.iterate_fixed ht
      simp [hfix, ha]
    · simp only [if_true, ih, Function.iterate_succ_apply, Function.iterate_zero_apply]

/-- The counter at a payload byte, and the offset of that byte within the payload (R96, R114). -/
theorem toNat_payload_cnt {j : Nat} (h : j < 2 ^ 16) :
    (BitVec.ofNat 17 (6 + j)).toNat = 6 + j ∧ (BitVec.ofNat 17 (6 + j) - 6).toNat = j := by
  have hc : (BitVec.ofNat 17 (6 + j)).toNat = 6 + j := toNat_ofNat17 (by omega)
  refine ⟨hc, ?_⟩
  rw [BitVec.toNat_sub_of_le (BitVec.le_def.2 (by rw [hc]; exact Nat.le_add_right 6 j)), hc]
  exact Nat.add_sub_cancel_left 6 j

theorem Ser.accesses_of_not_busy {u : Ser} (h : u.s_busy = false) : u.accesses = [] := by
  cases hs : u.s_state <;> simp [Ser.s_busy, hs] at h <;> simp [Ser.accesses, hs]

theorem Par.accesses_of_not_busy {u : Par} (h : u.p_busy = false) : u.accesses = [] := by
  cases hs : u.p_state <;> simp [Par.p_busy, hs] at h <;> simp [Par.accesses, hs]

theorem Ser.runAccesses_eq_flatMap (n : Nat) (u : Ser) :
    u.runAccesses n = (List.range n).flatMap fun k => (Ser.tick^[k] u).accesses :=
  flatMap_of_busy_run (fun _ => rfl) (fun _ _ => rfl)
    (fun _ h => ⟨Ser.accesses_of_not_busy h, Ser.tick_of_not_busy h⟩) n u

theorem Par.runAccesses_eq_flatMap (n : Nat) (u : Par) :
    u.runAccesses n = (List.range n).flatMap fun k => (Par.tick^[k] u).accesses :=
  flatMap_of_busy_run (fun _ => rfl) (fun _ _ => rfl)
    (fun _ h => ⟨Par.accesses_of_not_busy h, Par.tick_of_not_busy h⟩) n u

end Sys2Proof.Machine

/-! ## O45: the accesses of a SER operation -/

namespace Sys2Proof.Machine

/-- A header byte is written at its offset (R95). -/
theorem Ser.accesses_of_progress_header (u : Ser) {k : Nat} (hk : k < 6) :
    (u.progress k).accesses = [.writeTx k (u.s_h.toList.getD k 0)] := by
  have hc : (BitVec.ofNat 17 k).toNat = k := toNat_ofNat17 (by omega)
  rw [Ser.progress, if_pos (by omega), if_pos hk]
  simp [Ser.accesses, hc, hk]

/-- A payload byte is read from PIN and written behind the header (R96). -/
theorem Ser.accesses_of_progress_body {u : Ser} (ht : u.s_torn = false) {j : Nat} (hj : j < u.s_n.toNat) :
    (u.progress (6 + j)).accesses = [.readPin j, .writeTx (6 + j) (Memory.byte .PIN u.PIN j)] := by
  obtain ⟨hc, hp⟩ := toNat_payload_cnt (Nat.lt_trans hj u.s_n.isLt)
  rw [Ser.progress, if_pos (by omega), if_neg (by omega)]
  simp only [Ser.accesses, BitVec.lt_def, Ser.frameLen_toNat, hc, hp, Ser.pinData, ht]
  exact if_pos ⟨Nat.le_add_right 6 j, Nat.add_lt_add_left hj 6⟩

/-- The accesses of an operation that SER has started (R36). -/
theorem Ser.runAccesses_of_started {u : Ser} (h : u.Started) :
    u.runAccesses (6 + u.s_n.toNat) =
      (List.range 6).map (fun k => Access.writeTx k (u.s_h.toList.getD k 0)) ++
      (List.range u.s_n.toNat).flatMap fun j => [.readPin j, .writeTx (6 + j) (Memory.byte .PIN u.PIN j)] := by
  rw [Ser.runAccesses_eq_flatMap, List.range_add, List.flatMap_append, List.flatMap_map, List.map_eq_flatMap]
  simp only [Ser.iterate_of_started h]
  congr 1
  · exact List.flatMap_congr fun k hk => u.accesses_of_progress_header (List.mem_range.1 hk)
  · exact List.flatMap_congr fun j hj => Ser.accesses_of_progress_body h.torn (List.mem_range.1 hj)

/-- Settles O45: an accepted start has touched no buffer, and its operation makes the accesses of its frame. -/
theorem serializerAccessesInOrder : Obligations.SerializerAccessesInOrder := by
  intro d u hu hb
  obtain ⟨hs, hpin, -⟩ := Ser.started_of_busy hu hb
  rw [← hpin]
  exact Ser.runAccesses_of_started hs

end Sys2Proof.Machine

/-! ## O59: the accesses of a PAR operation -/

namespace Sys2Proof.Machine

/-- A longer run makes the accesses of its first steps, and then those of the rest. -/
theorem Par.runAccesses_add (m n : Nat) (u : Par) :
    u.runAccesses (m + n) = u.runAccesses m ++ (Par.tick^[m] u).runAccesses n := by
  simp only [Par.runAccesses_eq_flatMap, List.range_add, List.flatMap_append, List.flatMap_map,
    ← Function.iterate_add_apply, Nat.add_comm]

theorem Par.runAccesses_of_not_busy {u : Par} (h : u.p_busy = false) (n : Nat) : u.runAccesses n = [] := by
  cases n <;> simp [Par.runAccesses, h]

/-- The dispatch reads and writes no buffer (R113). -/
theorem Par.dispatch_RXBUF (u : Par) : u.dispatch.RXBUF = u.RXBUF := by
  unfold Par.dispatch
  split_ifs <;> rfl

theorem Par.dispatched_RXBUF (u : Par) : u.dispatched.RXBUF = u.RXBUF := Par.dispatch_RXBUF _

/-- The header phase reads the six header bytes (R112). -/
theorem Par.runAccesses_header {u : Par} (h : u.Started) : u.runAccesses 6 = (List.range 6).map .readRx := by
  rw [Par.runAccesses_eq_flatMap, List.map_eq_flatMap]
  refine List.flatMap_congr fun k hk => ?_
  have hlt : k < 6 := List.mem_range.1 hk
  have hc : (BitVec.ofNat 17 k).toNat = k := toNat_ofNat17 (by omega)
  rw [Par.iterate_header h k hlt]
  simp [Par.accesses, h.state, hc, hlt]

/-- A payload byte is read behind the header and written to POUT (R114). -/
theorem Par.accesses_of_bodyProgress {u : Par} (h : u.InBody) {j : Nat} (hj : j < u.L.toNat) :
    (u.bodyProgress j).accesses = [.readRx (6 + j), .writePo j (Memory.byte .RXBUF u.RXBUF (6 + j))] := by
  obtain ⟨hc, hp⟩ := toNat_payload_cnt (Nat.lt_trans hj u.L.isLt)
  rw [Par.bodyProgress, if_pos hj]
  simp only [Par.accesses, h.state, BitVec.lt_def, Par.frameLen_toNat, hc, hp, Par.rxData, h.torn]
  exact if_pos ⟨Nat.le_add_right 6 j, Nat.add_lt_add_left hj 6⟩

/-- The body copies each payload byte, and then PAR makes no further access (R114, R115). -/
theorem Par.runAccesses_body {u : Par} (h : u.InBody) {n : Nat} (hn : u.L.toNat ≤ n) :
    u.runAccesses n = (List.range u.L.toNat).flatMap fun j =>
      [.readRx (6 + j), .writePo j (Memory.byte .RXBUF u.RXBUF (6 + j))] := by
  obtain ⟨m, rfl⟩ := Nat.exists_eq_add_of_le hn
  rw [Par.runAccesses_add, Par.iterate_body_end h (Nat.le_refl _),
    Par.runAccesses_of_not_busy (u := u.copied) rfl, List.append_nil, Par.runAccesses_eq_flatMap]
  refine List.flatMap_congr fun j hj => ?_
  rw [Par.iterate_body h]
  exact Par.accesses_of_bodyProgress h (List.mem_range.1 hj)

/-- Settles O59: the header phase and, where the dispatch goes on to the body, the body (R112, R114). -/
theorem parserAccessesInOrder : Obligations.ParserAccessesInOrder := by
  intro d u hu ha v
  have hs : (u.start d).Started := Par.started hu ha
  have hv : v = (u.start d).dispatched := Par.iterate_six hs
  have hrx : v.RXBUF = u.RXBUF := by rw [hv, Par.dispatched_RXBUF, Par.start_accepted hu ha]
  rw [Par.runAccesses_add, Par.runAccesses_header hs, ← hrx]
  congr 1
  rcases Par.dispatched_cases hs with hbody | hdone
  · rw [← hv] at hbody
    rw [if_pos hbody.state]
    exact Par.runAccesses_body hbody (Nat.le_of_lt_succ v.L.isLt)
  · rw [← hv] at hdone
    rw [if_neg (Par.not_body_of_not_busy hdone)]
    exact Par.runAccesses_of_not_busy hdone _

end Sys2Proof.Machine

/-! ## The decoder by its formats: an equation for each (R54, R60, R61, R64) -/

namespace Sys2Proof

/-- The six bytes of a short frame hold its fields (R51, R52). -/
theorem ShortHdr.ofHeaderWord_bytes (h : ShortHdr) :
    ShortHdr.ofHeaderWord
      (headerWord (lo8 h.opcode) (hi8 h.opcode) h.param1 h.param2 (0#1 ++ h.dest) h.source) = h := by
  rw [ShortHdr.ofHeaderWord_eq, le16_lo8_hi8, setWidth_short_dest]

/-- The six header bytes of a long frame hold its fields (R51, R52). -/
theorem LongHdr.ofHeaderWord_bytes (h : LongHdr) :
    LongHdr.ofHeaderWord
      (headerWord (lo8 h.opcode) (hi8 h.opcode) (lo8 h.length) (hi8 h.length) (1#1 ++ h.dest) h.source) = h := by
  rw [LongHdr.ofHeaderWord_eq, le16_lo8_hi8, le16_lo8_hi8, setWidth_long_dest]

section
variable (b0 b1 b2 b3 : Byte) {b4 : Byte} (b5 : Byte)

/-- Six bytes with bit 7 of byte 4 clear are the frame of the fields they hold (R51, R54). -/
theorem ShortHdr.bytes_ofHeaderWord (hl : long b4 = false) :
    (ShortHdr.ofHeaderWord (headerWord b0 b1 b2 b3 b4 b5)).bytes = [b0, b1, b2, b3, b4, b5] := by
  rw [ShortHdr.ofHeaderWord_eq, ShortHdr.bytes, lo8_le16, hi8_le16, short_dest_of_byte hl]

/-- Six bytes with bit 7 of byte 4 set are the header of the fields they hold (R51, R54). -/
theorem LongHdr.bytes_ofHeaderWord (hl : long b4 = true) :
    (LongHdr.ofHeaderWord (headerWord b0 b1 b2 b3 b4 b5)).bytes = [b0, b1, b2, b3, b4, b5] := by
  simp only [LongHdr.ofHeaderWord_eq, LongHdr.bytes, lo8_le16, hi8_le16, long_dest_of_byte hl]

/-- A frame with the discriminator clear: six bytes and no more (R54, R58). -/
theorem decodeFrame_short (hl : long b4 = false) (payload : List Byte) :
    decodeFrame (b0 :: b1 :: b2 :: b3 :: b4 :: b5 :: payload) =
      if payload.length = 0 then .ok (.frameShort (.ofHeaderWord (headerWord b0 b1 b2 b3 b4 b5)))
      else .error .frameLengthMismatch := by
  simp [decodeFrame, rowFrameShort_selects, hl]

/-- A frame with the discriminator set: as many bytes follow as the header declares (R54, R58). -/
theorem decodeFrame_long (hl : long b4 = true) (payload : List Byte) :
    decodeFrame (b0 :: b1 :: b2 :: b3 :: b4 :: b5 :: payload) =
      if payload.length = (LongHdr.ofHeaderWord (headerWord b0 b1 b2 b3 b4 b5)).length.toNat then
        .ok (.frameLong (.ofHeaderWord (headerWord b0 b1 b2 b3 b4 b5)) payload)
      else .error .frameLengthMismatch := by
  simp [decodeFrame, rowFrameShort_selects, rowFrameLong_selects, hl]

/-- A decode request of six bytes or more with the discriminator clear: the mode picks the row (R60). -/
theorem decodeParse_short (hl : long b4 = false) (headerOnly : Bool) (rest : List Byte) :
    decodeParse headerOnly (b0 :: b1 :: b2 :: b3 :: b4 :: b5 :: rest) =
      if bufferFits (Config.hdrLen + rest.length) then
        .ok ((if headerOnly then Instr.unpackhShort else Instr.unpackShort)
          (.ofHeaderWord (headerWord b0 b1 b2 b3 b4 b5)) rest)
      else .error .lengthTooWide := by
  cases headerOnly <;>
    simp [decodeParse, rowUnpackShort_selects, rowUnpackLong_selects, rowUnpackhShort_selects, hl]

/-- A decode request of six bytes or more with the discriminator set: the mode picks the row (R60). -/
theorem decodeParse_long (hl : long b4 = true) (headerOnly : Bool) (rest : List Byte) :
    decodeParse headerOnly (b0 :: b1 :: b2 :: b3 :: b4 :: b5 :: rest) =
      if bufferFits (Config.hdrLen + rest.length) then
        .ok ((if headerOnly then Instr.unpackhLong else Instr.unpackLong)
          (.ofHeaderWord (headerWord b0 b1 b2 b3 b4 b5)) rest)
      else .error .lengthTooWide := by
  cases headerOnly <;>
    simp [decodeParse, rowUnpackShort_selects, rowUnpackLong_selects, rowUnpackhShort_selects,
      rowUnpackhLong_selects, hl]

end

/-- A list of bytes is a header and what follows it, or it has fewer than six bytes (R50). -/
theorem header_or_lt_six (buf : List Byte) :
    (∃ b0 b1 b2 b3 b4 b5 rest, buf = b0 :: b1 :: b2 :: b3 :: b4 :: b5 :: rest) ∨ buf.length < Config.hdrLen := by
  rcases Nat.lt_or_ge buf.length Config.hdrLen with hlt | hge
  · exact .inr hlt
  · match buf, hge with
    | b0 :: b1 :: b2 :: b3 :: b4 :: b5 :: rest, _ => exact .inl ⟨b0, b1, b2, b3, b4, b5, rest, rfl⟩

/-- Fewer than six bytes are no frame (R50). -/
theorem decodeFrame_of_lt_six {bytes : List Byte} (h : bytes.length < Config.hdrLen) :
    decodeFrame bytes = .error .headerIncomplete := by
  unfold decodeFrame
  split
  · next b0 b1 b2 b3 b4 b5 payload => exact absurd h (Nat.not_lt.2 (Nat.le_add_left 6 payload.length))
  · rfl

/-- A decode request of fewer than six bytes is the AVAIL row's, in either mode (R64, R100). -/
theorem decodeParse_of_lt_six {buf : List Byte} (h : buf.length < Config.hdrLen) (headerOnly : Bool) :
    decodeParse headerOnly buf = .ok (.unpackMalformed headerOnly buf) := by
  unfold decodeParse
  split
  · next b0 b1 b2 b3 b4 b5 rest => exact absurd h (Nat.not_lt.2 (Nat.le_add_left 6 rest.length))
  · rfl

/-- A serializer request with no payload present carries no payload bytes (R61, R179). -/
theorem decodeSerialize_inline (hasP1 hasP2 : Bool) (f : SerFields) (payload : List Byte) :
    decodeSerialize ⟨false, hasP1, hasP2, f⟩ payload =
      if plenFits f.d_plen then
        if payload.length = 0 then .ok (.packInline hasP1 hasP2 f) else .error .lengthNotTruthful
      else .error .lengthTooWide := by
  cases hfit : plenFits f.d_plen <;> simp [decodeSerialize, rowPackInline_selects, hfit]

/-- The row of a serializer request with a payload present, by its two other flags (R61; the value `S` = 0b111 is
the model's choice, notes/assumptions/9.md). -/
def payloadInstr (hasP1 hasP2 : Bool) (f : SerFields) (payload : List Byte) : Instr :=
  if hasP1 then .constructConflictP1 hasP2 f payload
  else if hasP2 then .constructConflictP2 false f payload
  else .packExt f payload

/-- A serializer request with a payload present carries as many bytes as it declares (R61, R179). -/
theorem decodeSerialize_payload (hasP1 hasP2 : Bool) (f : SerFields) (payload : List Byte) :
    decodeSerialize ⟨true, hasP1, hasP2, f⟩ payload =
      if plenFits f.d_plen then
        if payload.length = f.d_plen then .ok (payloadInstr hasP1 hasP2 f payload) else .error .lengthNotTruthful
      else .error .lengthTooWide := by
  cases hfit : plenFits f.d_plen
  · simp [decodeSerialize, hfit]
  · cases hasP1 <;> cases hasP2 <;>
      simp [decodeSerialize, payloadInstr, rowPackInline_selects, rowPackExt_selects, rowConflictP1_selects,
        rowConflictP2_selects, hfit]

theorem encode_payloadInstr (hasP1 hasP2 : Bool) (f : SerFields) (payload : List Byte) :
    encode (payloadInstr hasP1 hasP2 f payload) = .serialize ⟨true, hasP1, hasP2, f⟩ payload := by
  cases hasP1 <;> cases hasP2 <;> rfl

/-- With its payload as declared, a serializer request decodes to the row of its flags (R179). -/
theorem decodeSerialize_of_declared {f : SerFields} {payload : List Byte} (h : payloadDeclared f payload = true)
    (hasP1 hasP2 : Bool) :
    decodeSerialize (f.payloadDesc hasP1 hasP2) payload = .ok (payloadInstr hasP1 hasP2 f payload) := by
  obtain ⟨hlen, hfit⟩ : payload.length = f.d_plen ∧ plenFits f.d_plen = true := by simpa [payloadDeclared] using h
  rw [SerFields.payloadDesc, decodeSerialize_payload, if_pos hfit, if_pos hlen]

end Sys2Proof

/-! ## O4: the decoder inverts the encoder -/

namespace Sys2Proof

theorem decodeFrame_shortHdr (h : ShortHdr) : decodeFrame h.bytes = .ok (.frameShort h) := by
  rw [ShortHdr.bytes, decodeFrame_short _ _ _ _ _ (long_short_dest h.dest), h.ofHeaderWord_bytes]
  rfl

theorem decodeFrame_longHdr (h : LongHdr) {payload : List Byte} (hlen : payload.length = h.length.toNat) :
    decodeFrame (h.bytes ++ payload) = .ok (.frameLong h payload) := by
  refine (decodeFrame_long _ _ _ _ _ (long_long_dest h.dest) payload).trans ?_
  rw [h.ofHeaderWord_bytes, if_pos hlen]

section
variable {rest : List Byte} (hfit : bufferFits (Config.hdrLen + rest.length) = true) (headerOnly : Bool)
include hfit

theorem decodeParse_shortHdr (h : ShortHdr) :
    decodeParse headerOnly (h.bytes ++ rest) =
      .ok ((if headerOnly then Instr.unpackhShort else Instr.unpackShort) h rest) := by
  refine (decodeParse_short _ _ _ _ _ (long_short_dest h.dest) headerOnly rest).trans ?_
  rw [h.ofHeaderWord_bytes, if_pos hfit]

theorem decodeParse_longHdr (h : LongHdr) :
    decodeParse headerOnly (h.bytes ++ rest) =
      .ok ((if headerOnly then Instr.unpackhLong else Instr.unpackLong) h rest) := by
  refine (decodeParse_long _ _ _ _ _ (long_long_dest h.dest) headerOnly rest).trans ?_
  rw [h.ofHeaderWord_bytes, if_pos hfit]

end

/-- Settles O4, by the constructors: the bytes and flags that stand for an instruction select its row, and its
fields are read back from them. -/
theorem decodeOfEncodeIsTheInstruction : Obligations.DecodeOfEncodeIsTheInstruction := by
  intro i hi
  cases i with
  | frameShort h => exact decodeFrame_shortHdr h
  | frameLong h payload => exact decodeFrame_longHdr h (eq_of_beq hi)
  | unpackShort h rest => exact decodeParse_shortHdr hi false h
  | unpackLong h rest => exact decodeParse_longHdr hi false h
  | unpackhShort h rest => exact decodeParse_shortHdr hi true h
  | unpackhLong h rest => exact decodeParse_longHdr hi true h
  | unpackMalformed headerOnly buf => exact decodeParse_of_lt_six (of_decide_eq_true hi) headerOnly
  | packInline hasP1 hasP2 f => exact (decodeSerialize_inline hasP1 hasP2 f []).trans (if_pos hi)
  | packExt f payload => exact decodeSerialize_of_declared hi false false
  | constructConflictP1 hasP2 f payload => exact decodeSerialize_of_declared hi true hasP2
  | constructConflictP2 hasP1 f payload =>
    obtain ⟨rfl, hdecl⟩ : hasP1 = false ∧ payloadDeclared f payload = true := by simpa [Instr.wellFormed] using hi
    exact decodeSerialize_of_declared hdecl false true
  | construct r => rfl
  | msgeq m1 m2 => rfl
  | startSer d => exact if_pos hi
  | startPar d => exact if_pos hi
  | reset => rfl

end Sys2Proof

/-! ## O5: the encoder inverts the decoder -/

namespace Sys2Proof

/-- A choice between a value and an error that came out as a value came out as that value. -/
theorem ok_of_ite {c : Prop} [Decidable c] {ε α : Type} {a b : α} {e : ε}
    (h : (if c then Except.ok a else .error e) = .ok b) : a = b := by
  split at h <;> cases h
  rfl

theorem encode_of_decodeFrame {bytes : List Byte} {i : Instr} (h : decodeFrame bytes = .ok i) :
    encode i = .frame bytes := by
  obtain ⟨b0, b1, b2, b3, b4, b5, payload, rfl⟩ | hlt := header_or_lt_six bytes
  · cases hl : long b4
    · rw [decodeFrame_short _ _ _ _ _ hl] at h
      split at h <;> cases h
      next hlen =>
        rw [List.length_eq_zero_iff.1 hlen, encode, ShortHdr.bytes_ofHeaderWord _ _ _ _ _ hl]
    · rw [decodeFrame_long _ _ _ _ _ hl] at h
      rw [← ok_of_ite h, encode, LongHdr.bytes_ofHeaderWord _ _ _ _ _ hl]
      rfl
  · rw [decodeFrame_of_lt_six hlt] at h
    cases h

theorem encode_of_decodeParse {headerOnly : Bool} {buf : List Byte} {i : Instr}
    (h : decodeParse headerOnly buf = .ok i) : encode i = .parse headerOnly buf := by
  obtain ⟨b0, b1, b2, b3, b4, b5, rest, rfl⟩ | hlt := header_or_lt_six buf
  · cases hl : long b4
    · rw [decodeParse_short _ _ _ _ _ hl] at h
      rw [← ok_of_ite h]
      cases headerOnly <;> exact congrArg (Presented.parse _ <| · ++ rest) (ShortHdr.bytes_ofHeaderWord _ _ _ _ _ hl)
    · rw [decodeParse_long _ _ _ _ _ hl] at h
      rw [← ok_of_ite h]
      cases headerOnly <;> exact congrArg (Presented.parse _ <| · ++ rest) (LongHdr.bytes_ofHeaderWord _ _ _ _ _ hl)
  · rw [decodeParse_of_lt_six hlt] at h
    cases h
    rfl

theorem encode_of_decodeSerialize {d : SerDesc} {payload : List Byte} {i : Instr}
    (h : decodeSerialize d payload = .ok i) : encode i = .serialize d payload := by
  obtain ⟨hasPld, hasP1, hasP2, f⟩ := d
  cases hasPld with
  | false =>
    rw [decodeSerialize_inline] at h
    split at h
    · split at h <;> cases h
      next hlen => rw [List.length_eq_zero_iff.1 hlen]; rfl
    · cases h
  | true =>
    rw [decodeSerialize_payload] at h
    split at h
    · rw [← ok_of_ite h, encode_payloadInstr]
    · cases h

/-- What decodes encodes back to what was presented. -/
theorem encode_of_decode {w : Presented} {i : Instr} (h : decode w = .ok i) : encode i = w := by
  cases w with
  | frame bytes => exact encode_of_decodeFrame h
  | parse headerOnly buf => exact encode_of_decodeParse h
  | serialize d payload => exact encode_of_decodeSerialize h
  | request r => cases h; rfl
  | messages m1 m2 => cases h; rfl
  | sStart d => rw [← ok_of_ite h]; rfl
  | pStart d => rw [← ok_of_ite h]; rfl
  | rst => cases h; rfl
  | noFormat nbits n => cases h

/-- Settles O5: the instruction has its declared lengths, and its fields give the bytes and flags back. -/
theorem encodeOfDecodeIsTheWord : Obligations.EncodeOfDecodeIsTheWord :=
  fun _ _ h => ⟨decode_wellFormed h, encode_of_decode h⟩

end Sys2Proof

/-! ## O6: the rows of one format are disjoint -/

namespace Sys2Proof

/-- Every 48-bit header word has its discriminator at bit 39, and it alone picks the row (R54). -/
theorem frameRows_select_one (H : BitVec 48) : (rowFrameShort.selects H ^^ rowFrameLong.selects H) = true := by
  rw [← headerWord_headerBytesOf H, rowFrameShort_selects, rowFrameLong_selects, Bool.not_xor_self]

/-- Every 49-bit value is the parser selector of its top bit and its low 48 bits (R60). -/
theorem parserSelector_msb_setWidth (P : BitVec 49) : parserSelector P.msb (P.setWidth 48) = P :=
  BitVec.cons_msb_setWidth P

/-- A parser selector is selected by the one row of its mode flag and its discriminator (R60). -/
theorem parseRows_select_one (headerOnly : Bool) (H : BitVec 48) :
    ([rowUnpackShort, rowUnpackLong, rowUnpackhShort, rowUnpackhLong].filter
      (·.selects (parserSelector headerOnly H))).length = 1 := by
  rw [← headerWord_headerBytesOf H]
  simp only [List.filter_cons, List.filter_nil, rowUnpackShort_selects, rowUnpackLong_selects,
    rowUnpackhShort_selects, rowUnpackhLong_selects]
  cases headerOnly <;> cases long (byteOf H.toNat 4) <;> rfl

/-- Settles O6: the discriminator and the mode flag pick the row of a header; the eight serializer selectors are
looked at one by one. -/
theorem rowsOfOneFormatAreDisjoint : Obligations.RowsOfOneFormatAreDisjoint :=
  ⟨frameRows_select_one, fun P => parserSelector_msb_setWidth P ▸ parseRows_select_one P.msb (P.setWidth 48),
    by decide⟩

end Sys2Proof

/-! ## O7: words written out from the spec -/

namespace Sys2Proof

/-- Settles O7, by running the decoder on each word. -/
theorem wordsOfTheSpecDecode : Obligations.WordsOfTheSpecDecode := by
  unfold Obligations.WordsOfTheSpecDecode
  decide

end Sys2Proof

/-! ## O21: field assembly -/

namespace Sys2Proof

/-- Settles O21, from the laws of the two halves of a word and of the flag of a destination byte (R55, R57). -/
theorem fieldAssemblyIsInvertible : Obligations.FieldAssemblyIsInvertible :=
  ⟨fun a b => ⟨le16_toNat a b, lo8_le16 a b, hi8_le16 a b⟩,
    fun v => ⟨le16_lo8_hi8 v, lo8_toNat v, hi8_toNat v⟩,
    fun d => ⟨clearLong_setLong d, setLong_setLong d, long_setLong d⟩⟩

end Sys2Proof

/-! ## O30: a full decode consumes the frame length of its header (R58, R108, R109) -/

namespace Sys2Proof.Machine

section
variable (b0 b1 b2 b3 b4 b5 : Byte) {rest : List Byte}

/-- A full decode whose input holds the whole frame succeeds and consumes the frame. -/
theorem unpack_full_of_frameLength_le (h : frameLength b2 b3 b4 ≤ Config.hdrLen + rest.length) :
    ∃ r, unpack (b0 :: b1 :: b2 :: b3 :: b4 :: b5 :: rest) false = .ok r ∧ consumedOf r = frameLength b2 b3 b4 := by
  cases hl : long b4
  · refine ⟨.short ⟨le16 b0 b1, b4, b5, .inlineParams b2 b3⟩ 6, ?_, ?_⟩
    · simp [unpack, hl]
    · simp [consumedOf, frameLength, hl, Config.hdrLen]
  · have hL : (le16 b2 b3).toNat ≤ rest.length := by simpa [frameLength, hl] using h
    refine ⟨.longFull ⟨le16 b0 b1, clearLong b4, b5, .extended (rest.take (le16 b2 b3).toNat)⟩
      (6 + (le16 b2 b3).toNat), ?_, ?_⟩
    · simp [unpack, hl, Nat.not_lt.2 hL]
    · simp [consumedOf, frameLength, hl, Config.hdrLen]

/-- A full decode whose input ends before the frame does is refused. -/
theorem unpack_full_of_lt_frameLength (h : Config.hdrLen + rest.length < frameLength b2 b3 b4) :
    unpack (b0 :: b1 :: b2 :: b3 :: b4 :: b5 :: rest) false = .error .TruncatedPayload := by
  cases hl : long b4
  · simp [frameLength, hl] at h
  · have hL : rest.length < (le16 b2 b3).toNat := by simpa [frameLength, hl] using h
    simp [unpack, hl, hL]

end

/-- Settles O30: either the whole frame is there, or the decode is refused. -/
theorem frameLengthIsWhatDecodeConsumes : Obligations.FrameLengthIsWhatDecodeConsumes := by
  intro b0 b1 b2 b3 b4 b5 rest buf
  have hbuf : buf.length = Config.hdrLen + rest.length := Nat.add_comm rest.length 6
  rw [hbuf]
  rcases Nat.lt_or_ge (Config.hdrLen + rest.length) (frameLength b2 b3 b4) with hlt | hle
  · rw [unpack_full_of_lt_frameLength b0 b1 b2 b3 b4 b5 hlt]
    exact ⟨nofun, fun hle => absurd hlt (Nat.not_lt.2 hle), nofun⟩
  · obtain ⟨r, hr, hc⟩ := unpack_full_of_frameLength_le b0 b1 b2 b3 b4 b5 hle
    rw [hr]
    exact ⟨fun _ h => by cases h; exact hc, fun _ => ⟨r, rfl⟩, fun _ => hle⟩

end Sys2Proof.Machine

/-! ## O47: a frame that arrives stands in RXBUF -/

namespace Sys2Proof.Machine

/-- Bytes that the host writes from offset 0 upward stand in RXBUF, at least one of them marks a breach while PAR
is busy, and nothing else changes (R30, R43). -/
theorem hostFill_zero_stands (s : State) {bs : List Byte} {n : Nat} (hlen : bs.length = n) (hpos : 0 < n) :
    ∃ t : State, (.next { s with par := s.par.hostFill 0 bs } : Host.Outcome State Fault Refusal) = .next t ∧
      t = { s with par := { s.par with RXBUF := t.par.RXBUF, p_torn := s.par.p_torn || s.par.p_busy } } ∧
      ∀ k, Memory.read t.par.RXBUF k = if k < n then bs[k]? else Memory.read s.par.RXBUF k := by
  refine ⟨_, rfl, ?_, fun k => ?_⟩
  · have hne : bs.isEmpty = false := by simpa [← List.length_pos_iff, hlen] using hpos
    simp [Par.hostFill, hne]
  · simp [Memory.read_writeList, hlen]

theorem decodeFrame_shortHdr (h : ShortHdr) : decodeFrame h.bytes = .ok (.frameShort h) := by
  rw [ShortHdr.bytes, decodeFrame_short _ _ _ _ _ (long_short_dest h.dest), h.ofHeaderWord_bytes]
  rfl

theorem decodeFrame_longHdr (h : LongHdr) {payload : List Byte} (hlen : payload.length = h.length.toNat) :
    decodeFrame (h.bytes ++ payload) = .ok (.frameLong h payload) := by
  refine (decodeFrame_long _ _ _ _ _ (long_long_dest h.dest) payload).trans ?_
  rw [h.ofHeaderWord_bytes, if_pos hlen]

section
variable {rest : List Byte} (hfit : bufferFits (Config.hdrLen + rest.length) = true) (headerOnly : Bool)
include hfit

theorem decodeParse_shortHdr (h : ShortHdr) :
    decodeParse headerOnly (h.bytes ++ rest) =
      .ok ((if headerOnly then Instr.unpackhShort else Instr.unpackShort) h rest) := by
  refine (decodeParse_short _ _ _ _ _ (long_short_dest h.dest) headerOnly rest).trans ?_
  rw [h.ofHeaderWord_bytes, if_pos hfit]

theorem decodeParse_longHdr (h : LongHdr) :
    decodeParse headerOnly (h.bytes ++ rest) =
      .ok ((if headerOnly then Instr.unpackhLong else Instr.unpackLong) h rest) := by
  refine (decodeParse_long _ _ _ _ _ (long_long_dest h.dest) headerOnly rest).trans ?_
  rw [h.ofHeaderWord_bytes, if_pos hfit]

end

/-- Settles O47: both rows are a write of the frame's bytes from offset 0 (R51, R35). -/
theorem arrivingFramesStandInRxbuf : Obligations.ArrivingFramesStandInRxbuf := fun s =>
  ⟨fun h => hostFill_zero_stands s h.bytes_length (by decide),
    fun h payload => hostFill_zero_stands s (List.length_append.trans (congrArg (· + payload.length) h.bytes_length))
      (Nat.add_pos_left (by decide) payload.length)⟩

end Sys2Proof.Machine

/-! ## O18, O19, O20: what CONSTRUCT refuses, and the message it builds (R75 to R80) -/

namespace Sys2Proof.Machine

theorem conflict_iff (r : RawRequest) :
    conflict r = true ↔ (r.param1 ≠ none ∨ r.param2 ≠ none) ∧ r.payload ≠ none := by
  simp [conflict, Option.isSome_iff_ne_none]

theorem inByte_iff (v : Int) : inByte v = true ↔ 0 ≤ v ∧ v ≤ 255 := by simp [inByte]

theorem inU16_iff (v : Int) : inU16 v = true ↔ 0 ≤ v ∧ v ≤ 65535 := by simp [inU16]

theorem optInByte_iff (o : Option Int) : optInByte o = true ↔ ∀ v, o = some v → 0 ≤ v ∧ v ≤ 255 := by
  cases o <;> simp [optInByte, inByte_iff]

/-- A request is in range when its opcode, every field supplied and every element of its payload are (R77). -/
theorem inRange_iff (r : RawRequest) :
    inRange r = true ↔
      (0 ≤ r.opcode ∧ r.opcode ≤ 65535) ∧
      (∀ v, (r.param1 = some v ∨ r.param2 = some v ∨ r.dest = some v ∨ r.src = some v) → 0 ≤ v ∧ v ≤ 255) ∧
      ∀ l, r.payload = some l → ∀ e ∈ l, 0 ≤ e ∧ e ≤ 255 := by
  have hfields : (∀ v, (r.param1 = some v ∨ r.param2 = some v ∨ r.dest = some v ∨ r.src = some v) →
      0 ≤ v ∧ v ≤ 255) ↔ optInByte r.param1 = true ∧ optInByte r.param2 = true ∧ optInByte r.dest = true ∧
        optInByte r.src = true := by
    simp only [optInByte_iff, ← inByte_iff, or_imp, forall_and]
  rw [hfields, ← inU16_iff, inRange]
  cases r.payload <;> simp [inByte_iff, and_assoc]

theorem construct_of_conflict {r : RawRequest} (h : conflict r = true) :
    Machine.construct r = .error .InvalidConstruction := if_pos h

theorem construct_of_not_inRange {r : RawRequest} (h : ¬ inRange r = true) :
    Machine.construct r = .error .InvalidConstruction := by
  simp [Machine.construct, h]

theorem construct_of_inRange {r : RawRequest} (hc : ¬ conflict r = true) (hr : inRange r = true) :
    Machine.construct r = .ok (messageOf r) := by
  simp [Machine.construct, hc, hr]

/-- CONSTRUCT hands its caller the error and changes nothing else. -/
theorem exec_construct_of_error {r : RawRequest} {e : Status} (h : Machine.construct r = .error e) (s : State) :
    exec (.construct r) s = .next { s with ret := .error e } := by
  rw [exec, execConstruct, h, returnMessage]

/-- CONSTRUCT hands its caller the message and changes nothing else. -/
theorem exec_construct_of_ok {r : RawRequest} {m : LogicalMessage} (h : Machine.construct r = .ok m) (s : State) :
    exec (.construct r) s = .next { s with ret := .message m } := by
  rw [exec, execConstruct, h, returnMessage]

/-- Settles O18: the request is a conflict, which CONSTRUCT tests first (R76). -/
theorem constructRefusesAParameterWithAPayload : Obligations.ConstructRefusesAParameterWithAPayload :=
  fun r s hparam hpld => exec_construct_of_error (construct_of_conflict ((conflict_iff r).2 ⟨hparam, hpld⟩)) s

/-- Settles O19: each of the three alternatives contradicts its part of the range test (R77). -/
theorem constructRefusesValuesOutOfRange : Obligations.ConstructRefusesValuesOutOfRange := by
  intro r s hout
  refine exec_construct_of_error (construct_of_not_inRange fun hr => ?_) s
  obtain ⟨hop, hfields, hpld⟩ := (inRange_iff r).1 hr
  obtain hop' | ⟨v, hv, hv'⟩ | ⟨l, hl, e, he, he'⟩ := hout
  · exact hop' hop
  · exact hv' (hfields v hv)
  · exact he' (hpld l hl e he)

/-- A value in the 8-bit range is kept, not reduced (R77). -/
theorem toNat_byteOfInt {v : Int} (h : 0 ≤ v ∧ v ≤ 255) : ((byteOfInt v).toNat : Int) = v := by
  rw [byteOfInt, BitVec.toNat_ofInt]
  omega

theorem map_toNat_byteOfInt {l : List Int} (h : ∀ e ∈ l, 0 ≤ e ∧ e ≤ 255) :
    (l.map byteOfInt).map (fun b => (b.toNat : Int)) = l := by
  rw [List.map_map]
  exact (List.map_congr_left fun e he => toNat_byteOfInt (h e he)).trans l.map_id

/-- A parameter in range is kept, and one left out is 0 (R79). -/
theorem toNat_byteOr_zero {o : Option Int} (h : ∀ v, o = some v → 0 ≤ v ∧ v ≤ 255) :
    ((byteOr o 0).toNat : Int) = o.getD 0 := by
  cases o with
  | none => rfl
  | some v => exact toNat_byteOfInt (h v rfl)

/-- Settles O20: the request passes both tests, and in range no value is reduced on its way into the message. -/
theorem constructBuildsTheMessage : Obligations.ConstructBuildsTheMessage := by
  intro r s hc hlo hhi hfields hpld
  have hr : inRange r = true := (inRange_iff r).2 ⟨⟨hlo, hhi⟩, hfields, hpld⟩
  have hok : Machine.construct r = .ok (messageOf r) := construct_of_inRange (mt (conflict_iff r).1 hc) hr
  refine ⟨messageOf r, exec_construct_of_ok hok s, ?opcode, ?dest, ?src, ?body⟩
  case opcode =>
    rw [messageOf, BitVec.toNat_ofInt]
    omega
  case dest =>
    simp only [messageOf]
    cases hd : r.dest with
    | none => rfl
    | some v => exact toNat_byteOfInt (hfields v (.inr (.inr (.inl hd))))
  case src =>
    simp only [messageOf]
    cases hs : r.src with
    | none => rfl
    | some v => exact toNat_byteOfInt (hfields v (.inr (.inr (.inr hs))))
  case body =>
    simp only [messageOf, bodyOf]
    cases hp : r.payload with
    | none =>
      exact ⟨rfl, toNat_byteOr_zero fun v hv => hfields v (.inl hv),
        toNat_byteOr_zero fun v hv => hfields v (.inr (.inl hv))⟩
    | some l => exact congrArg some (map_toNat_byteOfInt (hpld l hp)).symm

end Sys2Proof.Machine

/-! ## O42: a SER operation whose start is refused writes no frame -/

namespace Sys2Proof.Machine

/-- A list written from offset 0 stands there, and the bytes above it stay. -/
theorem Memory.read_writeList_zero (bs : List Byte) (m : Memory) (k : Nat) :
    Memory.read (Memory.writeList m 0 bs) k = if k < bs.length then bs[k]? else Memory.read m k := by
  simp [Memory.read_writeList]

/-- A whole operation whose start is refused ends there, with the payload in PIN (R94). -/
theorem Ser.operation_of_refusal {u : Ser} (h : u.s_busy = false) {d : SerDesc} {e : Status}
    (hr : refusal d = some e) (payload : List Byte) :
    u.operation d payload = ({ u with PIN := Memory.writeList u.PIN 0 payload } : Ser).refused d e := by
  have hs := Ser.start_eq (u := { u with PIN := Memory.writeList u.PIN 0 payload }) h d
  rw [hr, Option.elim_some] at hs
  rw [Ser.operation_of_refused h (by rw [hs]; rfl), hs]

/-- An instruction whose SER operation is refused at its start ends with that error; besides the response it
changes PIN, the latched descriptor and the mark of a breach (R94, R150). -/
theorem encodeOperation_of_refusal {s : State} (h : s.ser.s_busy = false) {d : SerDesc} {e : Status}
    (hr : refusal d = some e) (payload : List Byte) :
    ∃ t, encodeOperation d payload s = .next t ∧
      t = { s with ser := { s.ser with
        PIN := t.ser.PIN, s_desc := d, s_torn := false, s_status := e, s_txlen := 0, s_state := .S_DONE } } ∧
      ∀ k, Memory.read t.ser.PIN k = if k < payload.length then payload[k]? else Memory.read s.ser.PIN k := by
  rw [encodeOperation, Ser.operation_of_refusal h hr]
  exact ⟨_, rfl, rfl, Memory.read_writeList_zero payload s.ser.PIN⟩

/-- A payload with a parameter beside it is refused, whatever its declared length (R76, R153). -/
theorem refusal_payloadDesc {hasP1 hasP2 : Bool} (h : hasP1 = true ∨ hasP2 = true) (f : SerFields) :
    refusal (f.payloadDesc hasP1 hasP2) = some .InvalidConstruction := by
  simp [refusal, SerFields.payloadDesc, h]

/-- Settles O42: the descriptor of either row has a payload and the row's own parameter present (R61, R76). -/
theorem conflictRowsAreRefusedAtStart : Obligations.ConflictRowsAreRefusedAtStart := fun _ f payload _ hb =>
  ⟨encodeOperation_of_refusal hb (refusal_payloadDesc (.inl rfl) f) payload,
    encodeOperation_of_refusal hb (refusal_payloadDesc (.inr rfl) f) payload⟩

end Sys2Proof.Machine

/-! ## O22, O23, O24: what PACK gives for each body (R85 to R93) -/

namespace Sys2Proof.Machine

theorem pack_of_inline {m : LogicalMessage} {p1 p2 : Byte} (h : m.body = .inlineParams p1 p2) :
    pack m = packInline m p1 p2 := by
  rw [pack, h]

theorem pack_of_extended {m : LogicalMessage} {bytes : List Byte} (h : m.body = .extended bytes) :
    pack m = packExt m bytes := by
  rw [pack, h]

/-- Settles O22, by the one test of the Inline path (R86, R89). -/
theorem packOfAnInlineMessage : Obligations.PackOfAnInlineMessage := by
  intro m p1 p2 hm
  rw [pack_of_inline hm]
  exact ⟨fun (h : long m.dest = true) => by rw [packInline, if_pos h],
    fun (h : long m.dest = false) => by rw [packInline, if_neg (Bool.eq_false_iff.1 h)]⟩

/-- Settles O23: a length that fits the length field is its low byte and 256 times its high byte (R56, R87). -/
theorem packOfAnExtendedMessage : Obligations.PackOfAnExtendedMessage := by
  intro m bytes hm
  rw [pack_of_extended hm]
  refine ⟨packExt_of_gt m, fun h => ⟨_, _, ?_, packExt_of_le m h⟩⟩
  have hlen := length_field h
  rw [lo8_toNat, hi8_toNat, hlen]
  exact Nat.mod_add_div bytes.length 256

/-- PACK of an Extended message sets bit 7 of the destination itself, so it may stand there already (R92). -/
theorem packExt_setLong (op : U16) (d src : Byte) (body : Body) (bytes : List Byte) :
    packExt ⟨op, setLong d, src, body⟩ bytes = packExt ⟨op, d, src, body⟩ bytes := by
  simp only [packExt, setLong_setLong]

/-- The two paths give no frame in common: byte 4 of an Extended frame has bit 7, and of an Inline frame has it
not (R57, R93). -/
theorem packExt_ne_packInline (m m' : LogicalMessage) {bytes : List Byte} (h : bytes.length ≤ Config.lenMax)
    (p1 p2 : Byte) : packExt m bytes ≠ packInline m' p1 p2 := by
  rw [packExt_of_le m h]
  intro he
  obtain ⟨hd, hf⟩ := packInline_ok he.symm
  simp only [extFrame, List.cons_append, List.cons.injEq] at hf
  obtain ⟨-, -, -, -, hdest, -⟩ := hf
  rw [← hdest, long_setLong] at hd
  cases hd

/-- Settles O24, by byte 4 of the two frames. -/
theorem frameFlagTellsTheBodiesApart : Obligations.FrameFlagTellsTheBodiesApart := fun op d src bytes =>
  ⟨packExt_setLong op d src _ bytes, packExt_ne_packInline _ _ (Nat.zero_le _) 0 0⟩

end Sys2Proof.Machine

/-! ## O35, O39, O41: what SER's start step refuses, and the header it latches (R94) -/

namespace Sys2Proof.Machine

theorem exec_startSer (d : SerDesc) (s : State) : exec (.startSer d) s = .next { s with ser := s.ser.start d } := rfl

theorem exec_packInline (hasP1 hasP2 : Bool) (f : SerFields) (s : State) :
    exec (.packInline hasP1 hasP2 f) s = encodeOperation (f.inlineDesc hasP1 hasP2) [] s := rfl

theorem exec_packExt (f : SerFields) (payload : List Byte) (s : State) :
    exec (.packExt f payload) s = encodeOperation (f.payloadDesc false false) payload s := rfl

/-- A declared length is what the length field holds, if some value of the field is that length (R94). -/
theorem SerFields.plenLow_eq {f : SerFields} {n : U16} (h : n.toNat = f.d_plen) : f.plenLow = n := by
  rw [SerFields.plenLow, ← h, BitVec.ofNat_toNat, BitVec.setWidth_eq]

/-- Settles O35: the cases of the start step, in the order of the rule (R94). -/
theorem serStartStep : Obligations.SerStartStep := by
  intro d s hb
  refine ⟨fun hp hc => ?_, fun hp h1 h2 hl => ?_, fun hp hf => ?_, fun hp hf => ?_, fun hp h1 h2 n hn => ?_⟩ <;>
    rw [exec_startSer]
  · rw [Ser.start_conflict hb hp hc]
  · rw [Ser.start_tooLong hb hp h1 h2 hl]
  · rw [Ser.start_flag hb hp hf]
  · rw [Ser.start_inline hb hp hf]
    rfl
  · have hl : d.fields.d_plen ≤ Config.lenMax := by
      rw [← hn]
      exact Nat.le_of_lt_succ n.isLt
    rw [← SerFields.plenLow_eq hn, Ser.start_ext hb hp h1 h2 hl]
    rfl

/-- An Inline body is refused exactly for bit 7 of its destination (R89). -/
theorem refusal_inlineDesc (hasP1 hasP2 : Bool) (f : SerFields) :
    refusal (f.inlineDesc hasP1 hasP2) = if long f.destInForce then some .DestFlagViolation else none := rfl

/-- A payload alone is refused exactly for its length (R88). -/
theorem refusal_extDesc (f : SerFields) :
    refusal (f.payloadDesc false false) = if Config.lenMax < f.d_plen then some .PayloadTooLarge else none := rfl

/-- Settles O39: the start is refused, and there is no payload to put in PIN (R89, R94). -/
theorem packInlineRefusesTheFlag : Obligations.PackInlineRefusesTheFlag := by
  intro hasP1 hasP2 f s hb hf
  have hr : refusal (f.inlineDesc hasP1 hasP2) = some .DestFlagViolation :=
    (refusal_inlineDesc hasP1 hasP2 f).trans (if_pos hf)
  rw [exec_packInline, encodeOperation, Ser.operation_of_refusal hb hr]
  rfl

/-- Settles O41: the start is refused for the declared length (R88, R94). -/
theorem packExtRefusesTooLongAPayload : Obligations.PackExtRefusesTooLongAPayload := fun f payload _ hb _ hl =>
  encodeOperation_of_refusal hb ((refusal_extDesc f).trans (if_pos hl)) payload

end Sys2Proof.Machine

/-! ## O36, O37: a busy step of SER writes one byte (R95, R96) -/

namespace Sys2Proof.Machine

theorem Ser.tick_of_hdr {u : Ser} (hs : u.s_state = .S_HDR) (h : u.s_cnt.toNat < 6) : u.tick = u.headerStep h := by
  simp [Ser.tick, hs, h]

theorem Ser.tick_of_body {u : Ser} (hs : u.s_state = .S_BODY) (h6 : 6 ≤ u.s_cnt.toNat)
    (hlt : u.s_cnt.toNat < 6 + u.s_n.toNat) : u.tick = u.bodyStep := by
  simp [Ser.tick, hs, BitVec.lt_def, Ser.frameLen_toNat, h6, hlt]

/-- The offset in PIN of the byte that the body step copies (R96). -/
theorem Ser.pin_offset {u : Ser} (h : 6 ≤ u.s_cnt.toNat) : (u.s_cnt - 6).toNat = u.s_cnt.toNat - 6 :=
  BitVec.toNat_sub_of_le (BitVec.le_def.2 h)

/-- SER with one more byte of its frame written, and with the state and the response of `v`. -/
def Ser.wroteOnTo (u v : Ser) (b : Byte) : Ser :=
  { u.wrote b u.s_draws with s_state := v.s_state, s_status := v.s_status, s_txlen := v.s_txlen }

theorem Ser.headerStep_eq_wroteOnTo (u : Ser) (h : u.s_cnt.toNat < 6) :
    u.headerStep h = u.wroteOnTo (u.headerStep h) u.s_h[u.s_cnt.toNat] := by
  rw [Ser.headerStep_eq_wrote]
  split
  · split <;> rfl
  · rfl

theorem Ser.bodyStep_eq_wroteOnTo {u : Ser} (ht : u.s_torn = false) (h6 : 6 ≤ u.s_cnt.toNat) :
    u.bodyStep = u.wroteOnTo u.bodyStep (Memory.byte .PIN u.PIN (u.s_cnt.toNat - 6)) := by
  have hd : u.drawn = u.s_draws := by simp [Ser.drawn, ht]
  have hp : u.pinData (u.s_cnt - 6).toNat = Memory.byte .PIN u.PIN (u.s_cnt.toNat - 6) := by
    rw [Ser.pinData, if_neg (by simp [ht]), Ser.pin_offset h6]
  rw [Ser.bodyStep_eq_wrote, hd, hp]
  split <;> rfl

/-- A turn of a SER that writes one byte of its frame: where the byte goes, what stays, and the counter. -/
theorem step_ser_wrote {s : State} {rest : List Turn} (hin : s.inputs = .ser :: rest)
    (hlt : s.ser.s_cnt.toNat < 6 + s.ser.s_n.toNat) {b : Byte} {v : Ser} (htick : s.ser.tick = v)
    (hv : v = s.ser.wroteOnTo v b) :
    step s = .next { s with inputs := rest, ser := v } ∧
      (∀ k, Memory.read v.TXBUF k = if k = s.ser.s_cnt.toNat then some b else Memory.read s.ser.TXBUF k) ∧
      ({ s with inputs := rest, ser := v } : State) = { s with inputs := rest, ser := { s.ser with
        TXBUF := v.TXBUF, s_cnt := v.s_cnt, s_state := v.s_state, s_status := v.s_status, s_txlen := v.s_txlen } } ∧
      v.s_cnt.toNat = s.ser.s_cnt.toNat + 1 := by
  refine ⟨?_, ?_, ?_, ?_⟩
  · rw [step_of_inputs hin, ← htick]
    rfl
  · rw [hv]
    exact fun k => Memory.read_write s.ser.TXBUF s.ser.s_cnt.toNat k b
  · rw [hv]
    rfl
  · rw [hv]
    exact Ser.wrote_cnt_toNat hlt b s.ser.s_draws

/-- Settles O36: a header byte is written, and the counter tells which of the three ends the step has (R95). -/
theorem serHeaderStepWritesOneByte : Obligations.SerHeaderStepWritesOneByte := by
  intro s rest h hin hs
  obtain ⟨hstep, hread, hframe, hcnt⟩ :=
    step_ser_wrote hin (Nat.lt_add_right _ h) (Ser.tick_of_hdr hs h) (s.ser.headerStep_eq_wroteOnTo h)
  have hout := Ser.headerStep_eq s.ser _ h rfl
  refine ⟨_, hstep, hread, hframe, hcnt, fun hlt => ?_, fun h6 hx => ?_, fun h6 hx => ?_⟩
  · rw [hout, if_neg (Nat.ne_of_lt (hcnt.symm.trans_lt hlt))]
    exact ⟨hs, rfl, rfl⟩
  · rw [hout, if_pos (hcnt.symm.trans h6), if_pos hx]
    exact ⟨rfl, rfl, rfl⟩
  · rw [hout, if_pos (hcnt.symm.trans h6), if_neg hx]
    exact ⟨rfl, rfl, rfl⟩

/-- Settles O37: a payload byte is copied, and the step ends the operation at the frame's length (R96). -/
theorem serBodyStepCopiesOneByte : Obligations.SerBodyStepCopiesOneByte := by
  intro s rest hin hs ht h6 hlt
  obtain ⟨hstep, hread, hframe, hcnt⟩ :=
    step_ser_wrote hin hlt (Ser.tick_of_body hs h6 hlt) (Ser.bodyStep_eq_wroteOnTo ht h6)
  have hout := Ser.bodyStep_eq s.ser _ h6 hlt rfl ht
  refine ⟨_, hstep, hread, hframe, hcnt, fun hmore => ?_, fun hend => ?_⟩
  · rw [hout, if_neg (Nat.ne_of_lt (hcnt.symm.trans_lt hmore))]
    exact ⟨hs, rfl, rfl⟩
  · rw [hout, if_pos (hcnt.symm.trans hend)]
    exact ⟨rfl, rfl, s.ser.frameLen_toNat⟩

end Sys2Proof.Machine

/-! ## O44: how long SER is busy after an accepted start (R97) -/

namespace Sys2Proof.Machine

theorem Ser.progress_s_busy (u : Ser) (n : Nat) : (u.progress n).s_busy = decide (n < 6 + u.s_n.toNat) := by
  rw [Ser.progress]
  split
  · next h =>
    by_cases h6 : n < 6 <;> simp [Ser.s_busy, h, h6]
  · next h => simp [Ser.s_busy, h]

theorem Ser.progress_s_done (u : Ser) (n : Nat) : (u.progress n).s_done = decide (6 + u.s_n.toNat ≤ n) := by
  rw [Ser.progress]
  split
  · next h =>
    by_cases h6 : n < 6 <;> simp [Ser.s_done, Nat.not_le.2 h, h6]
  · next h => simp [Ser.s_done, Nat.not_lt.1 h]

/-- Settles O44: the state after `n` steps of an accepted start is known outright (R95, R96). -/
theorem serializerStepCount : Obligations.SerializerStepCount := by
  intro d u n hu hb
  obtain ⟨hs, -, -⟩ := Ser.started_of_busy hu hb
  rw [Ser.iterate_of_started hs]
  exact ⟨Ser.progress_s_busy _ n, Ser.progress_s_done _ n⟩

end Sys2Proof.Machine

/-! ## O38, O40: an accepted SER operation leaves its frame in TXBUF (R97, R176) -/

namespace Sys2Proof.Machine

/-- A whole operation whose start is accepted runs to its end, with the payload in PIN (R94 to R97). -/
theorem Ser.operation_of_acceptance {u : Ser} (h : u.s_busy = false) {d : SerDesc} (hr : refusal d = none)
    (payload : List Byte) :
    u.operation d payload = (({ u with PIN := Memory.writeList u.PIN 0 payload } : Ser).accepted d).ended := by
  have hs := Ser.start_eq (u := { u with PIN := Memory.writeList u.PIN 0 payload }) h d
  rw [hr, Option.elim_none] at hs
  rw [Ser.operation_of_started h (by rw [hs]; exact Ser.accepted_started _ d), hs]

/-- An instruction whose SER operation is accepted changes SER alone. -/
theorem encodeOperation_of_acceptance {s : State} (h : s.ser.s_busy = false) {d : SerDesc} (hr : refusal d = none)
    (payload : List Byte) :
    encodeOperation d payload s = .next { s with
      ser := (({ s.ser with PIN := Memory.writeList s.ser.PIN 0 payload } : Ser).accepted d).ended } := by
  rw [encodeOperation, Ser.operation_of_acceptance h hr]

/-- At the end of an operation its frame stands in TXBUF, and the bytes beyond it are as they were (R97). -/
theorem Ser.read_ended_TXBUF (u : Ser) (k : Nat) :
    Memory.read u.ended.TXBUF k = if k < u.frame.length then u.frame[k]? else Memory.read u.TXBUF k :=
  Memory.read_writeList_zero u.frame u.TXBUF k

/-- The host reads the frame at the end of an operation; beyond it a reset that abandoned an operation leaves
it nothing to rely on (R171, R176). -/
theorem Ser.hostTx_ended (u : Ser) (k : Nat) :
    u.ended.hostTx k =
      if k < u.frame.length then u.frame[k]? else if u.s_undef then none else Memory.read u.TXBUF k := by
  have hlen : u.ended.s_txlen.toNat = u.frame.length := u.frameLen_toNat.trans u.frame_length.symm
  have hview : u.ended.hostTx k =
      if u.s_undef && !decide (k < u.ended.s_txlen.toNat) then none else Memory.read u.ended.TXBUF k := rfl
  rw [hview, hlen, Ser.read_ended_TXBUF]
  by_cases hk : k < u.frame.length <;> simp [hk]

/-- Settles O38: the start is accepted with no payload, so the frame is the six header bytes (R86). -/
theorem packInlineWritesTheShortFrame : Obligations.PackInlineWritesTheShortFrame := by
  intro hasP1 hasP2 f s hb hf
  have hr : refusal (f.inlineDesc hasP1 hasP2) = none :=
    (refusal_inlineDesc hasP1 hasP2 f).trans (if_neg (Bool.eq_false_iff.1 hf))
  have hframe := Ser.accepted_frame hr { s.ser with PIN := Memory.writeList s.ser.PIN 0 [] }
  rw [exec_packInline]
  refine ⟨_, encodeOperation_of_acceptance hb hr [], rfl, rfl, fun k => ?_, fun k => ?_⟩
  · exact (Ser.read_ended_TXBUF _ k).trans (by rw [hframe]; rfl)
  · exact (Ser.hostTx_ended _ k).trans (by rw [hframe]; rfl)

/-- Settles O40: the start is accepted, and the frame is the header and the payload that the host put in PIN
(R87). -/
theorem packExtWritesTheLongFrame : Obligations.PackExtWritesTheLongFrame := by
  intro f payload s hb hlen hle
  have hr : refusal (f.payloadDesc false false) = none := (refusal_extDesc f).trans (if_neg (Nat.not_lt.2 hle))
  have hn : f.plenLow.toNat = payload.length := (SerFields.plenLow_toNat hle).trans hlen.symm
  have hframe : Ser.frame (({ s.ser with PIN := Memory.writeList s.ser.PIN 0 payload } : Ser).accepted
      (f.payloadDesc false false)) = f.extHeader.toList ++ payload := by
    have hbytes := Memory.bytes_writeList .PIN s.ser.PIN 0 payload
    rw [hlen] at hbytes
    exact (Ser.accepted_frame hr _).trans (congrArg (f.extHeader.toList ++ ·) hbytes)
  have hflen : (f.extHeader.toList ++ payload).length = 6 + payload.length := by simp
  rw [exec_packExt]
  refine ⟨_, encodeOperation_of_acceptance hb hr payload, rfl, hn, ?_, rfl, fun k => ?_, fun k => ?_,
    Memory.read_writeList_zero payload s.ser.PIN⟩
  · exact (Ser.frameLen_toNat _).trans (congrArg (6 + ·) hn)
  · rw [← hflen]
    exact (Ser.read_ended_TXBUF _ k).trans (by rw [hframe]; rfl)
  · rw [← hflen]
    exact (Ser.hostTx_ended _ k).trans (by rw [hframe]; rfl)

end Sys2Proof.Machine

/-! ## O25, O26: what UNPACK refuses (R100, R108) -/

namespace Sys2Proof.Machine

/-- With the header there, the one failure is a long frame cut short, in a full decode (R108, R116). -/
theorem unpack_error_iff (b0 b1 b2 b3 b4 b5 : Byte) (rest : List Byte) (headerOnly : Bool) (e : Status) :
    unpack (b0 :: b1 :: b2 :: b3 :: b4 :: b5 :: rest) headerOnly = .error e ↔
      e = .TruncatedPayload ∧ headerOnly = false ∧ long b4 = true ∧ rest.length < (le16 b2 b3).toNat := by
  cases hl : long b4
  · simp [unpack, hl]
  cases headerOnly
  · rcases Nat.lt_or_ge rest.length (le16 b2 b3).toNat with hlt | hge
    · simp [unpack, hl, hlt, eq_comm]
    · simp [unpack, hl, Nat.not_lt.2 hge]
  · simp [unpack, hl]

/-- Settles O26: the header's length field in its two bytes (R56). -/
theorem truncationIsTheOnlyOtherFailure : Obligations.TruncationIsTheOnlyOtherFailure := by
  intro b0 b1 b2 b3 b4 b5 rest headerOnly e
  rw [unpack_error_iff, le16_toNat]
  rfl

/-- Settles O25: a decode of six bytes or more fails with `TruncatedPayload` alone. -/
theorem unpackRefusesFewerThanSixBytes : Obligations.UnpackRefusesFewerThanSixBytes := by
  intro buf headerOnly
  refine ⟨fun h => ?_, fun hlt => unpack_of_lt_six hlt headerOnly⟩
  obtain ⟨b0, b1, b2, b3, b4, b5, rest, rfl⟩ | hlt := header_or_lt_six buf
  · obtain ⟨he, -⟩ := (unpack_error_iff b0 b1 b2 b3 b4 b5 rest headerOnly _).1 h
    cases he
  · exact hlt

end Sys2Proof.Machine

/-! ## O48: PAR's start step (R111) -/

namespace Sys2Proof.Machine

theorem exec_startPar (d : ParDesc) (s : State) : exec (.startPar d) s = .next { s with par := s.par.start d } := rfl

/-- Settles O48: the two cases of the start step. -/
theorem parStartStep : Obligations.ParStartStep := by
  intro d s hb
  rw [exec_startPar]
  exact ⟨fun hlt => by rw [Par.start_malformed hb hlt], fun hge => by rw [Par.start_accepted hb hge]⟩

end Sys2Proof.Machine

/-! ## O49, O50, O51: a busy step of PAR reads one byte (R112 to R114) -/

namespace Sys2Proof.Machine

theorem step_par {s : State} {rest : List Turn} (hin : s.inputs = .par :: rest) :
    step s = .next { s with inputs := rest, par := s.par.tick } := step_of_inputs hin

theorem Par.tick_of_hdr {u : Par} (hs : u.p_state = .P_HDR) (h : u.p_cnt.toNat < 6) : u.tick = u.headerStep h := by
  simp [Par.tick, hs, h]

theorem Par.tick_of_body {u : Par} (hs : u.p_state = .P_BODY) (h6 : 6 ≤ u.p_cnt.toNat)
    (hlt : u.p_cnt.toNat < 6 + u.L.toNat) : u.tick = u.bodyStep := by
  simp [Par.tick, hs, BitVec.lt_def, Par.frameLen_toNat, h6, hlt]

/-- Settles O49: below the last header byte the step does not dispatch (R112). -/
theorem parHeaderStepReadsOneByte : Obligations.ParHeaderStepReadsOneByte := by
  intro s rest h hin hs ht
  have h6 : s.par.p_cnt.toNat < 6 := Nat.lt_succ_of_lt h
  obtain ⟨-, hcnt⟩ := succ_cnt (n := 0) (c := s.par.p_cnt) rfl (by omega)
  rw [step_par hin, Par.tick_of_hdr hs h6, Par.headerStep_eq s.par _ h6 rfl ht h6,
    if_neg (Nat.ne_of_lt (Nat.succ_lt_succ h)), hcnt]

/-- PAR with header byte 5 read, and so the whole header held. -/
def Par.lastHeaderByteRead (u : Par) : Par :=
  { u with p_hdr := u.p_hdr.set 5 (Memory.byte .RXBUF u.RXBUF 5), p_cnt := 6 }

/-- The step that reads the last header byte dispatches on the header (R112, R113). -/
theorem Par.tick_of_last_header {u : Par} (hs : u.p_state = .P_HDR) (hc : u.p_cnt = 5) (ht : u.p_torn = false) :
    u.tick = u.lastHeaderByteRead.dispatch := by
  have h5 : u.p_cnt.toNat = 5 := by rw [hc]; rfl
  have h6 : u.p_cnt.toNat < 6 := by rw [h5]; exact Nat.lt_succ_self 5
  rw [Par.tick_of_hdr hs h6, Par.headerStep_eq u 5 (Nat.lt_succ_self 5) h5 ht h6, if_pos rfl]
  rfl

/-- Settles O50: the five outcomes of the dispatch, on the header with byte 5 in it (R113). -/
theorem parDispatchOnTheHeader : Obligations.ParDispatchOnTheHeader := by
  intro s rest hin hs hc ht hdr L ends
  have hL : s.par.lastHeaderByteRead.L.toNat = L := Par.L_toNat _
  rw [step_par hin, Par.tick_of_last_header hs hc ht, ← hL]
  refine ⟨fun hl => ?_, fun hl ho => ?_, fun hl ho ha => ?_, fun hl ho ha h0 => ?_, fun hl ho ha hpos => ?_⟩
  · rw [Par.dispatch_short (u := s.par.lastHeaderByteRead) hl]
    rfl
  · rw [Par.dispatch_header (u := s.par.lastHeaderByteRead) hl ho]
    rfl
  · rw [Par.dispatch_truncated (u := s.par.lastHeaderByteRead) hl ho ha]
    rfl
  · rw [Par.dispatch_empty (u := s.par.lastHeaderByteRead) hl ho ha h0]
    rfl
  · rw [Par.dispatch_body (u := s.par.lastHeaderByteRead) hl ho ha hpos]
    rfl

/-- Settles O51: the byte goes to its offset in POUT, and the step ends the operation at the frame's length
(R114). -/
theorem parBodyStepCopiesOneByte : Obligations.ParBodyStepCopiesOneByte := by
  intro s rest hin hs ht h6 hlt
  have hstep := step_par hin
  rw [Par.tick_of_body hs h6 hlt, Par.bodyStep_eq s.par _ h6 hlt rfl ht] at hstep
  have hread k := Memory.read_write s.par.POUT (s.par.p_cnt.toNat - 6) k
    (Memory.byte .RXBUF s.par.RXBUF s.par.p_cnt.toNat)
  have hmax := s.par.L.isLt
  by_cases hend : s.par.p_cnt.toNat + 1 = 6 + s.par.L.toNat
  · rw [if_pos hend] at hstep
    have hcnt := (Par.frameLen_toNat s.par).trans hend.symm
    exact ⟨_, hstep, hread, rfl, hcnt, fun hmore => absurd hmore (by dsimp only; omega),
      fun _ => ⟨rfl, rfl, rfl, s.par.frameLen_toNat⟩⟩
  · rw [if_neg hend] at hstep
    have hcnt : (BitVec.ofNat 17 (s.par.p_cnt.toNat + 1)).toNat = s.par.p_cnt.toNat + 1 := toNat_ofNat17 (by omega)
    exact ⟨_, hstep, hread, rfl, hcnt, fun _ => ⟨hs, rfl, rfl, rfl⟩,
      fun hlast => absurd (hcnt.symm.trans hlast) hend⟩

end Sys2Proof.Machine

/-! ## O58: how long PAR is busy after an accepted start (R115) -/

namespace Sys2Proof.Machine

/-- The dispatch begins the body or ends the operation (R113). -/
theorem Par.dispatch_p_state (u : Par) : u.dispatch.p_state = .P_BODY ∨ u.dispatch.p_state = .P_DONE := by
  unfold Par.dispatch
  split_ifs
  case neg => exact .inl rfl
  all_goals exact .inr rfl

theorem Par.bodyProgress_p_state {u : Par} (h : u.InBody) (n : Nat) :
    (u.bodyProgress n).p_state = if n < u.L.toNat then .P_BODY else .P_DONE := by
  rw [Par.bodyProgress]
  split
  · exact h.state
  · rfl

/-- How many steps an operation takes that PAR has just accepted: the header, and the body where the dispatch
begins one. -/
def Par.steps (u : Par) : Nat := if u.dispatched.p_state = .P_BODY then 6 + u.dispatched.L.toNat else 6

theorem Par.six_le_steps (u : Par) : 6 ≤ u.steps := by
  rw [Par.steps]
  split
  · exact Nat.le_add_right 6 _
  · exact Nat.le_refl 6

/-- The state of PAR after each step: the header, the body, and then the end. -/
theorem Par.iterate_p_state {u : Par} (h : u.Started) (n : Nat) :
    (Par.tick^[n] u).p_state = if n < 6 then .P_HDR else if n < u.steps then .P_BODY else .P_DONE := by
  rcases Nat.lt_or_ge n 6 with hlt | hge
  · rw [if_pos hlt, Par.iterate_header h n hlt]
    exact h.state
  obtain ⟨m, rfl⟩ := Nat.exists_eq_add_of_le' hge
  rw [if_neg (Nat.not_lt.2 hge), Function.iterate_add_apply, Par.iterate_six h, Par.steps]
  rcases Par.dispatched_cases h with hbody | hdone
  · rw [Par.iterate_body hbody, Par.bodyProgress_p_state hbody, if_pos hbody.state, Nat.add_comm m 6]
    simp only [Nat.add_lt_add_iff_left]
  · have hs := Par.not_body_of_not_busy hdone
    rw [Par.iterate_of_not_busy hdone, if_neg hs, if_neg (Nat.not_lt.2 hge)]
    exact (Par.dispatch_p_state _).resolve_left hs

/-- Settles O58: PAR is busy in the header and in the body, and done after them. -/
theorem parserStepCount : Obligations.ParserStepCount := by
  intro d u n hu ha v steps
  have h := Par.started (u := u) hu ha
  have hsteps : steps = (u.start d).steps := by
    simp only [steps, v, Par.iterate_six h]
    rfl
  have h6 := (u.start d).six_le_steps
  rw [hsteps, Par.p_busy, Par.p_done, Par.iterate_p_state h]
  rcases Nat.lt_or_ge n (u.start d).steps with hlt | hge
  · rw [decide_eq_true hlt, decide_eq_false (Nat.not_le.2 hlt), if_pos hlt]
    split <;> exact ⟨rfl, rfl⟩
  · rw [decide_eq_false (Nat.not_lt.2 hge), decide_eq_true hge, if_neg (Nat.not_lt.2 hge),
      if_neg (Nat.not_lt.2 (h6.trans hge))]
    exact ⟨rfl, rfl⟩

end Sys2Proof.Machine

/-! ## A PAR operation on a buffer that holds a header: where it ends, for each kind of header (R103 to R109) -/

namespace Sys2Proof

@[simp] theorem clearLong_long_dest (d : BitVec 7) : clearLong (1#1 ++ d) = (0#1 ++ d : Byte) := by
  revert d; decide

/-- The six bytes of a short frame, as PAR's holding registers keep them. -/
def ShortHdr.held (h : ShortHdr) : Vector Byte 6 := ⟨h.bytes.toArray, rfl⟩

/-- The six header bytes of a long frame, as PAR's holding registers keep them. -/
def LongHdr.held (h : LongHdr) : Vector Byte 6 := ⟨h.bytes.toArray, rfl⟩

end Sys2Proof

namespace Sys2Proof.Machine

/-- PAR with a header and the bytes behind it in RXBUF, and the header held, before the dispatch on it. -/
def Par.loaded (u : Par) (headerOnly : Bool) (hdr : Vector Byte 6) (rest : List Byte) : Par :=
  { u with
    RXBUF := Memory.writeList u.RXBUF 0 (hdr.toList ++ rest), p_state := .P_HDR, p_cnt := 6
    p_hdronly := headerOnly, p_avail := 6 + rest.length, p_hdr := hdr, p_torn := false }

/-- Where the dispatch on the header that PAR holds leads: the end, or the end of the body (R113, R114). -/
def Par.parsed (u : Par) : Par := if u.dispatch.p_state = .P_BODY then u.dispatch.copied else u.dispatch

/-- A header and the bytes behind it, written from offset 0, stand there, and the bytes above them stay. -/
theorem Memory.read_writeList_header (m : Memory) (hdr : Vector Byte 6) (rest : List Byte) (k : Nat) :
    Memory.read (Memory.writeList m 0 (hdr.toList ++ rest)) k =
      if k < 6 + rest.length then (hdr.toList ++ rest)[k]? else Memory.read m k := by
  have hlen : (hdr.toList ++ rest).length = 6 + rest.length := by simp
  rw [← hlen]
  exact Memory.read_writeList_zero _ m k

theorem Par.ended_eq_parsed (u : Par) : u.ended = Par.parsed { u with p_hdr := u.held 6, p_cnt := 6 } := rfl

/-- A header at the start of RXBUF is what PAR will hold of it. -/
theorem Par.held_of_RXBUF {u : Par} {m : Memory} {hdr : Vector Byte 6} {rest : List Byte}
    (h : u.RXBUF = Memory.writeList m 0 (hdr.toList ++ rest)) : u.held 6 = hdr := by
  have hlen : hdr.toList.length = 6 := hdr.length_toList
  have hbytes : Memory.bytes .RXBUF u.RXBUF 0 hdr.toList.length = hdr.toList := by
    refine Memory.bytes_eq _ _ _ _ fun j hj => ?_
    rw [h, Nat.zero_add, Memory.read_writeList_zero, if_pos (by simp; omega), List.getElem?_append_left hj]
  rw [hlen] at hbytes
  exact Vector.toList_inj.1 (u.held_six.trans hbytes)

/-- A whole operation on a buffer that holds a header ends where the dispatch on the header leads (R135). -/
theorem Par.operation_of_header {u : Par} (h : u.p_busy = false) (headerOnly : Bool) (hdr : Vector Byte 6)
    (rest : List Byte) : u.operation headerOnly (hdr.toList ++ rest) = (u.loaded headerOnly hdr rest).parsed := by
  have hlen : (hdr.toList ++ rest).length = 6 + rest.length := by simp
  have hge : 6 ≤ (hdr.toList ++ rest).length := hlen ▸ Nat.le_add_right 6 _
  rw [Par.operation_of_started h hge,
    Par.start_accepted (u := { u with RXBUF := Memory.writeList u.RXBUF 0 (hdr.toList ++ rest) }) h hge,
    Par.ended_eq_parsed, Par.held_of_RXBUF (hdr := hdr) rfl, hlen]
  rfl

/-- The payload is the first bytes behind the header, if enough of them are there. -/
theorem Par.payload_of_RXBUF {u : Par} {m : Memory} {hdr : Vector Byte 6} {rest : List Byte}
    (h : u.RXBUF = Memory.writeList m 0 (hdr.toList ++ rest)) (hle : u.L.toNat ≤ rest.length) :
    u.payload = rest.take u.L.toNat := by
  have hlen := List.length_take_of_le hle
  have hbytes : Memory.bytes .RXBUF u.RXBUF 6 (rest.take u.L.toNat).length = rest.take u.L.toNat := by
    refine Memory.bytes_eq _ _ _ _ fun j hj => ?_
    rw [h, Memory.read_writeList_header, if_pos (by omega), List.getElem?_append_right (by simp),
      List.getElem?_take_of_lt (hlen ▸ hj)]
    simp
  rw [hlen] at hbytes
  exact hbytes

section
variable {u : Par}

theorem Par.parsed_short (hl : u.long = false) : u.parsed = u.finish .SHORT 6 := by
  rw [Par.parsed, Par.dispatch_short hl]
  rfl

theorem Par.parsed_header (hl : u.long = true) (ho : u.p_hdronly = true) : u.parsed = u.finish .LONG_HDR 6 := by
  rw [Par.parsed, Par.dispatch_header hl ho]
  rfl

theorem Par.parsed_truncated (hl : u.long = true) (ho : u.p_hdronly = false) (ha : u.p_avail < 6 + u.L.toNat) :
    u.parsed = u.raise .TruncatedPayload := by
  rw [Par.parsed, Par.dispatch_truncated hl ho ha]
  rfl

/-- With its whole payload there, a long frame ends with the payload copied, an empty one at the dispatch. -/
theorem Par.parsed_full (hc : u.p_cnt = 6) (hl : u.long = true) (ho : u.p_hdronly = false)
    (ha : 6 + u.L.toNat ≤ u.p_avail) : u.parsed = u.copied := by
  rw [Par.parsed]
  rcases Nat.eq_zero_or_pos u.L.toNat with h0 | hpos
  · have hlen : u.frameLen = 6 := BitVec.eq_of_toNat_eq (by rw [Par.frameLen_toNat, h0]; rfl)
    have hpay : u.payload = [] := by rw [Par.payload, h0]; rfl
    rw [Par.dispatch_empty hl ho ha h0, if_neg nofun, Par.copied, hlen, hpay, ← hc]
    rfl
  · rw [Par.dispatch_body hl ho ha hpos]
    rfl

end

/-- At the end of the body the payload stands in POUT, and the bytes behind it are as they were (R115). -/
theorem Par.read_copied_POUT (u : Par) (k : Nat) :
    Memory.read u.copied.POUT k = if k < u.L.toNat then u.payload[k]? else Memory.read u.POUT k := by
  rw [← u.payload_length]
  exact Memory.read_writeList_zero u.payload u.POUT k

/-- The host reads the payload at the end of the body; behind it a reset that abandoned an operation leaves it
nothing to rely on (R171, R176). -/
theorem Par.hostPo_copied (u : Par) (k : Nat) :
    u.copied.hostPo k =
      if k < u.L.toNat then u.payload[k]? else if u.p_undef then none else Memory.read u.POUT k := by
  have hview : u.copied.hostPo k =
      if u.p_undef && !decide (k < u.L.toNat) then none else Memory.read u.copied.POUT k := rfl
  rw [hview, Par.read_copied_POUT]
  by_cases hk : k < u.L.toNat <;> simp [hk]

end Sys2Proof.Machine

/-! ## O52 to O56: the decode instructions -/

namespace Sys2Proof.Machine

theorem exec_unpackShort (h : ShortHdr) (rest : List Byte) (s : State) :
    exec (.unpackShort h rest) s = decodeOperation false (h.bytes ++ rest) s := rfl

theorem exec_unpackhShort (h : ShortHdr) (rest : List Byte) (s : State) :
    exec (.unpackhShort h rest) s = decodeOperation true (h.bytes ++ rest) s := rfl

theorem exec_unpackLong (h : LongHdr) (rest : List Byte) (s : State) :
    exec (.unpackLong h rest) s = decodeOperation false (h.bytes ++ rest) s := rfl

theorem exec_unpackhLong (h : LongHdr) (rest : List Byte) (s : State) :
    exec (.unpackhLong h rest) s = decodeOperation true (h.bytes ++ rest) s := rfl

theorem exec_unpackMalformed (headerOnly : Bool) (buf : List Byte) (s : State) :
    exec (.unpackMalformed headerOnly buf) s = decodeOperation headerOnly buf s := rfl

theorem Par.loaded_L (u : Par) (headerOnly : Bool) (h : LongHdr) (rest : List Byte) :
    (u.loaded headerOnly h.held rest).L = h.length := le16_lo8_hi8 h.length

theorem unpack_shortHdr (h : ShortHdr) (rest : List Byte) (headerOnly : Bool) :
    unpack (h.bytes ++ rest) headerOnly =
      .ok (.short ⟨h.opcode, 0#1 ++ h.dest, h.source, .inlineParams h.param1 h.param2⟩ 6) := by
  simp [unpack, ShortHdr.bytes]

theorem unpack_longHdr_headerOnly (h : LongHdr) (rest : List Byte) :
    unpack (h.bytes ++ rest) true = .ok (.longHeader h.opcode (1#1 ++ h.dest) h.source h.length 6) := by
  simp [unpack, LongHdr.bytes]

theorem unpack_longHdr_full (h : LongHdr) {rest : List Byte} (hle : h.length.toNat ≤ rest.length) :
    unpack (h.bytes ++ rest) false =
      .ok (.longFull ⟨h.opcode, 0#1 ++ h.dest, h.source, .extended (rest.take h.length.toNat)⟩
        (6 + h.length.toNat)) := by
  simp [unpack, LongHdr.bytes, Nat.not_lt.2 hle]

/-- An instruction that hands a header to a PAR that is not busy changes PAR alone, and PAR reports what `unpack`
gives for the header and the bytes behind it. -/
theorem decodeOperation_of_header {s : State} (hb : s.par.p_busy = false) (headerOnly : Bool) (hdr : Vector Byte 6)
    (rest : List Byte) {v : Par} (hv : (s.par.loaded headerOnly hdr rest).parsed = v) :
    decodeOperation headerOnly (hdr.toList ++ rest) s = .next { s with par := v } ∧
      v.response = some (unpack (hdr.toList ++ rest) headerOnly) := by
  rw [← hv, ← Par.operation_of_header hb]
  exact ⟨rfl, Par.operation_response hb headerOnly _⟩

/-- Settles O52: a short header ends the operation in both modes (R103, R106). -/
theorem unpackOfAShortFrame : Obligations.UnpackOfAShortFrame := by
  intro h rest s hb result
  have hboth (headerOnly : Bool) :
      ∃ t, decodeOperation headerOnly (h.bytes ++ rest) s = .next t ∧ result t headerOnly := by
    obtain ⟨hnext, hresp⟩ := decodeOperation_of_header hb headerOnly h.held rest
      (Par.parsed_short (long_short_dest h.dest))
    exact ⟨_, hnext, rfl, rfl, hresp.trans (congrArg some (unpack_shortHdr h rest headerOnly)),
      congrArg some (le16_lo8_hi8 h.opcode), rfl, rfl, rfl, rfl, rfl, Memory.read_writeList_header _ h.held rest⟩
  rw [exec_unpackShort, exec_unpackhShort]
  exact ⟨hboth false, hboth true⟩

/-- Settles O53: the dispatch finds the payload whole, and the body copies it to POUT (R113, R114). -/
theorem unpackOfALongFrame : Obligations.UnpackOfALongFrame := by
  intro h rest s hb hle
  have hL := s.par.loaded_L false h rest
  have havail : 6 + (s.par.loaded false h.held rest).L.toNat ≤ 6 + rest.length := by
    rw [hL]
    exact Nat.add_le_add_left hle 6
  have hpay := Par.payload_of_RXBUF (u := s.par.loaded false h.held rest) rfl (hL ▸ hle)
  rw [hL] at hpay
  have hbyte {k : Nat} (hk : k < h.length.toNat) : (rest.take h.length.toNat)[k]? = rest[k]? :=
    List.getElem?_take_of_lt hk
  obtain ⟨hnext, hresp⟩ := decodeOperation_of_header hb false h.held rest
    (Par.parsed_full rfl (long_long_dest h.dest) rfl havail)
  rw [exec_unpackLong]
  refine ⟨_, hnext, rfl, ?_, rfl, hresp.trans (congrArg some (unpack_longHdr_full h hle)),
    congrArg some (le16_lo8_hi8 h.opcode), rfl, rfl, congrArg some hL, congrArg some (clearLong_long_dest h.dest),
    rfl, fun k => ?_, fun k => ?_, Memory.read_writeList_header _ h.held rest⟩
  · exact (Par.frameLen_toNat _).trans (by rw [hL])
  · rw [Par.read_copied_POUT, hpay, hL]
    exact ite_congr rfl hbyte fun _ => rfl
  · rw [Par.hostPo_copied, hpay, hL]
    exact ite_congr rfl hbyte fun _ => rfl

/-- Settles O54: the dispatch refuses the operation before any byte of the payload (R108, R113). -/
theorem unpackRefusesATruncatedFrame : Obligations.UnpackRefusesATruncatedFrame := by
  intro h rest s hb hlt
  have havail : 6 + rest.length < 6 + (s.par.loaded false h.held rest).L.toNat := by
    rw [Par.loaded_L]
    exact Nat.add_lt_add_left hlt 6
  obtain ⟨hnext, -⟩ := decodeOperation_of_header hb false h.held rest
    (Par.parsed_truncated (long_long_dest h.dest) rfl havail)
  rw [exec_unpackLong]
  exact ⟨_, hnext, rfl, rfl, Memory.read_writeList_header _ h.held rest⟩

/-- Settles O55: the dispatch ends the operation, with the header as it stands (R107). -/
theorem headerOnlyOfALongFrame : Obligations.HeaderOnlyOfALongFrame := by
  intro h rest s hb
  obtain ⟨hnext, hresp⟩ := decodeOperation_of_header hb true h.held rest
    (Par.parsed_header (long_long_dest h.dest) rfl)
  rw [exec_unpackhLong]
  exact ⟨_, hnext, rfl, rfl, hresp.trans (congrArg some (unpack_longHdr_headerOnly h rest)),
    congrArg some (le16_lo8_hi8 h.opcode), rfl, rfl, congrArg some (s.par.loaded_L true h rest), rfl, rfl,
    Memory.read_writeList_header _ h.held rest⟩

/-- Settles O56: the start refuses the operation (R111). -/
theorem unpackOfFewerThanSixBytes : Obligations.UnpackOfFewerThanSixBytes := by
  intro headerOnly buf s hb hlt
  rw [exec_unpackMalformed, decodeOperation, Par.operation_of_malformed hb hlt]
  exact ⟨_, rfl, rfl, Memory.read_writeList_zero buf s.par.RXBUF⟩

end Sys2Proof.Machine

/-! ## O31, O32: MSGEQ compares the frames of its operands (R120, R121, R126) -/

namespace Sys2Proof.Machine

section
variable {m1 m2 : LogicalMessage} {f1 f2 : List Byte} {e : Status}

theorem messagesEqual_of_error_left (h1 : pack m1 = .error e) (m2 : LogicalMessage) :
    messagesEqual m1 m2 = .error e := by
  rw [messagesEqual, h1]

theorem messagesEqual_of_error_right (h1 : pack m1 = .ok f1) (h2 : pack m2 = .error e) :
    messagesEqual m1 m2 = .error e := by
  rw [messagesEqual, h1, h2]

theorem messagesEqual_of_ok (h1 : pack m1 = .ok f1) (h2 : pack m2 = .ok f2) :
    messagesEqual m1 m2 = .ok (f1 == f2) := by
  rw [messagesEqual, h1, h2]

/-- MSGEQ holds of two messages that PACK accepts exactly when their frames are the same (R120). -/
theorem messagesEqual_iff (h1 : pack m1 = .ok f1) (h2 : pack m2 = .ok f2) :
    messagesEqual m1 m2 = .ok true ↔ f1 = f2 := by
  rw [messagesEqual_of_ok h1 h2, Except.ok.injEq, beq_iff_eq]

end

theorem exec_msgeq (m1 m2 : LogicalMessage) (s : State) :
    exec (.msgeq m1 m2) s = .next { s with ret := returnTruth (messagesEqual m1 m2) } := rfl

/-- Settles O32, one outcome of MSGEQ after the other. -/
theorem msgeqComparesFrames : Obligations.MsgeqComparesFrames := by
  intro m1 m2 s
  rw [exec_msgeq]
  refine ⟨fun e h1 => ?_, fun f1 e h1 h2 => ?_, fun f1 f2 h1 h2 => ?_⟩
  · rw [messagesEqual_of_error_left h1, returnTruth]
  · rw [messagesEqual_of_error_right h1 h2, returnTruth]
  · rw [messagesEqual_of_ok h1 h2, returnTruth, beq_eq_decide]

/-- Settles O31: on these messages MSGEQ is equality of the frames. -/
theorem msgeqIsAnEquivalence : Obligations.MsgeqIsAnEquivalence := by
  intro m1 m2 m3 f1 f2 f3 h1 h2 h3
  rw [messagesEqual_iff h1 h1, messagesEqual_iff h1 h2, messagesEqual_iff h2 h1, messagesEqual_iff h2 h3,
    messagesEqual_iff h1 h3]
  exact ⟨rfl, Eq.symm, Eq.trans⟩

end Sys2Proof.Machine

/-! ## O33: the fields that the frames of two messages tell apart (R125) -/

namespace Sys2Proof

/-- A word is its two bytes (R55). -/
theorem lo8_hi8_inj {v w : U16} : lo8 v = lo8 w ∧ hi8 v = hi8 w ↔ v = w := by
  refine ⟨fun ⟨hlo, hhi⟩ => ?_, fun h => h ▸ ⟨rfl, rfl⟩⟩
  rw [← le16_lo8_hi8 v, hlo, hhi, le16_lo8_hi8]

/-- The destination byte of a long frame keeps the low seven bits and no more (R57). -/
theorem setLong_inj {a b : Byte} : setLong a = setLong b ↔ clearLong a = clearLong b := by
  constructor <;> intro h
  · rw [← clearLong_setLong a, h, clearLong_setLong]
  · rw [← setLong_clearLong a, h, setLong_clearLong]

end Sys2Proof

namespace Sys2Proof.Machine

/-- The frame of an Inline message (R86). -/
def inlineFrame (m : LogicalMessage) (p1 p2 : Byte) : List Byte :=
  [lo8 m.opcode, hi8 m.opcode, p1, p2, m.dest, m.src]

section
variable {m : LogicalMessage} {f : List Byte} (h : pack m = .ok f)
include h

theorem pack_inline_ok {p1 p2 : Byte} (hb : m.body = .inlineParams p1 p2) : f = inlineFrame m p1 p2 := by
  rw [pack_of_inline hb] at h
  obtain ⟨-, hf⟩ := packInline_ok h
  exact hf

theorem pack_extended_ok {bytes : List Byte} (hb : m.body = .extended bytes) :
    bytes.length ≤ Config.lenMax ∧ f = extFrame m bytes := by
  rw [pack_of_extended hb] at h
  exact packExt_ok h

end

section
variable {m1 m2 : LogicalMessage}

theorem inlineFrame_inj {a b c d : Byte} :
    inlineFrame m1 a b = inlineFrame m2 c d ↔
      m1.opcode = m2.opcode ∧ m1.src = m2.src ∧ m1.dest = m2.dest ∧ a = c ∧ b = d := by
  simp only [inlineFrame, List.cons.injEq, and_true, ← lo8_hi8_inj (v := m1.opcode)]
  tauto

/-- The one field an Extended frame does not keep is bit 7 of the destination. -/
theorem extFrame_inj {x y : List Byte} :
    extFrame m1 x = extFrame m2 y ↔
      m1.opcode = m2.opcode ∧ m1.src = m2.src ∧ clearLong m1.dest = clearLong m2.dest ∧ x = y := by
  simp only [extFrame, List.cons_append, List.nil_append, List.cons.injEq, ← lo8_hi8_inj (v := m1.opcode), setLong_inj]
  constructor
  · rintro ⟨hlo, hhi, -, -, hdest, hsrc, hbytes⟩
    exact ⟨⟨hlo, hhi⟩, hsrc, hdest, hbytes⟩
  · rintro ⟨⟨hlo, hhi⟩, hsrc, hdest, rfl⟩
    exact ⟨hlo, hhi, rfl, rfl, hdest, hsrc, rfl⟩

/-- Messages with bodies of the two variants have different frames (R93). -/
theorem frame_ne_of_variants_ne {a b : Byte} {y f1 f2 : List Byte} (hb1 : m1.body = .inlineParams a b)
    (hb2 : m2.body = .extended y) (h1 : pack m1 = .ok f1) (h2 : pack m2 = .ok f2) : f1 ≠ f2 := by
  rintro rfl
  obtain ⟨hle, -⟩ := pack_extended_ok h2 hb2
  rw [pack_of_inline hb1] at h1
  rw [pack_of_extended hb2] at h2
  exact packExt_ne_packInline m2 m1 hle a b (h2.trans h1.symm)

end

/-- A parameter left out passes the range test as a zero does (R77, R79). -/
theorem optInByte_some_getD (o : Option Int) : optInByte (some (o.getD 0)) = optInByte o := by
  cases o <;> rfl

/-- A parameter left out is a zero (R79). -/
theorem byteOr_some_getD (o : Option Int) : byteOr (some (o.getD 0)) 0 = byteOr o 0 := by
  cases o <;> rfl

/-- Without a payload, CONSTRUCT does not tell a parameter left out from one that is zero (R79, R125). -/
theorem construct_of_zero_params {r : RawRequest} (hp : r.payload = none) :
    Machine.construct { r with param1 := some (r.param1.getD 0), param2 := some (r.param2.getD 0) } =
      Machine.construct r := by
  simp only [Machine.construct, conflict, inRange, messageOf, bodyOf, hp, optInByte_some_getD, byteOr_some_getD,
    Option.isSome_none, Bool.and_false]

/-- Settles O33, by the variants of the two bodies. -/
theorem msgeqIsFieldEqualityUpToTheFlag : Obligations.MsgeqIsFieldEqualityUpToTheFlag := by
  refine ⟨fun m1 m2 f1 f2 h1 h2 => ?_, fun r => construct_of_zero_params⟩
  rw [messagesEqual_iff h1 h2]
  cases hb1 : m1.body with
  | inlineParams a b =>
    cases hb2 : m2.body with
    | inlineParams c d =>
      rw [pack_inline_ok h1 hb1, pack_inline_ok h2 hb2]
      exact inlineFrame_inj
    | extended y => exact iff_of_false (frame_ne_of_variants_ne hb1 hb2 h1 h2) (·.2.2)
  | extended x =>
    cases hb2 : m2.body with
    | inlineParams c d => exact iff_of_false (frame_ne_of_variants_ne hb2 hb1 h2 h1).symm (·.2.2)
    | extended y =>
      obtain ⟨-, rfl⟩ := pack_extended_ok h1 hb1
      obtain ⟨-, rfl⟩ := pack_extended_ok h2 hb2
      exact extFrame_inj

end Sys2Proof.Machine

/-! ## O27, O28: PACK and UNPACK undo each other (R123, R124) -/

namespace Sys2Proof.Machine

section
variable (b0 b1 b2 b3 b4 b5 : Byte) (rest : List Byte)

/-- A short header is decoded alike in both modes (R103, R106). -/
theorem unpack_of_short (hl : long b4 = false) (headerOnly : Bool) :
    unpack (b0 :: b1 :: b2 :: b3 :: b4 :: b5 :: rest) headerOnly =
      .ok (.short ⟨le16 b0 b1, b4, b5, .inlineParams b2 b3⟩ 6) := by
  simp [unpack, hl]

theorem unpack_headerOnly_of_long (hl : long b4 = true) :
    unpack (b0 :: b1 :: b2 :: b3 :: b4 :: b5 :: rest) true =
      .ok (.longHeader (le16 b0 b1) b4 b5 (le16 b2 b3) 6) := by
  simp [unpack, hl]

theorem unpack_full_of_long (hl : long b4 = true) (hle : (le16 b2 b3).toNat ≤ rest.length) :
    unpack (b0 :: b1 :: b2 :: b3 :: b4 :: b5 :: rest) false =
      .ok (.longFull ⟨le16 b0 b1, clearLong b4, b5, .extended (rest.take (le16 b2 b3).toNat)⟩
        (6 + (le16 b2 b3).toNat)) := by
  simp [unpack, hl, Nat.not_lt.2 hle]

end

section
variable (m : LogicalMessage) (t : List Byte)

theorem unpack_inlineFrame {p1 p2 : Byte} (hb : m.body = .inlineParams p1 p2) (hl : long m.dest = false)
    (headerOnly : Bool) : unpack (inlineFrame m p1 p2 ++ t) headerOnly = .ok (.short m 6) := by
  rw [inlineFrame, List.cons_append]
  refine (unpack_of_short _ _ _ _ _ _ _ hl headerOnly).trans ?_
  rw [le16_lo8_hi8, ← hb]

theorem unpack_headerOnly_extFrame (bytes : List Byte) :
    unpack (extFrame m bytes ++ t) true =
      .ok (.longHeader m.opcode (setLong m.dest) m.src (BitVec.ofNat 16 bytes.length) 6) := by
  refine (unpack_headerOnly_of_long _ _ _ _ _ _ _ (long_setLong m.dest)).trans ?_
  rw [le16_lo8_hi8, le16_lo8_hi8]

theorem unpack_full_extFrame {bytes : List Byte} (hb : m.body = .extended bytes) (hle : bytes.length ≤ Config.lenMax) :
    unpack (extFrame m bytes ++ t) false =
      .ok (.longFull { m with dest := clearLong m.dest } (6 + bytes.length)) := by
  have hL : (le16 (lo8 (BitVec.ofNat 16 bytes.length)) (hi8 (BitVec.ofNat 16 bytes.length))).toNat = bytes.length := by
    rw [le16_lo8_hi8, length_field hle]
  refine (unpack_full_of_long _ _ _ _ _ _ _ (long_setLong m.dest) ?_).trans ?_
  · rw [hL]
    exact bytes.length_append.symm ▸ Nat.le_add_right _ _
  · rw [hL]
    simp [hb]

/-- Bit 7 of the destination of an Extended message does not reach its frame (R92). -/
theorem pack_clearLong {bytes : List Byte} (hb : m.body = .extended bytes) :
    pack { m with dest := clearLong m.dest } = pack m := by
  rw [pack_of_extended hb, pack_of_extended (m := { m with dest := clearLong m.dest }) hb]
  simp only [packExt, setLong_clearLong]

end

/-- Settles O27, by the variant of the body. -/
theorem unpackOfPackGivesTheMessageBack : Obligations.UnpackOfPackGivesTheMessageBack := by
  intro ⟨op, dest, src, body⟩ f t h
  cases body with
  | inlineParams p1 p2 =>
    obtain ⟨hl, rfl⟩ := packInline_ok h
    exact ⟨unpack_inlineFrame _ t rfl hl false, unpack_inlineFrame _ t rfl hl true, (messagesEqual_iff h h).2 rfl⟩
  | extended bytes =>
    obtain ⟨hle, rfl⟩ := packExt_ok h
    exact ⟨⟨_, length_field hle, unpack_headerOnly_extFrame _ t bytes⟩, unpack_full_extFrame _ t rfl hle,
      (messagesEqual_iff ((pack_clearLong _ rfl).trans h) h).2 rfl,
      fun hd => congrArg (LogicalMessage.mk op · src (.extended bytes)) (clearLong_of_not_long hd)⟩

section
variable (b0 b1 b2 b3 b4 b5 : Byte) (rest : List Byte)

/-- PACK of what a short header decodes to is the header. -/
theorem pack_of_short (hl : long b4 = false) :
    pack ⟨le16 b0 b1, b4, b5, .inlineParams b2 b3⟩ = .ok [b0, b1, b2, b3, b4, b5] := by
  simp [pack, packInline, hl]

/-- PACK of what a long frame decodes to is the frame. -/
theorem pack_of_long (hl : long b4 = true) (hle : (le16 b2 b3).toNat ≤ rest.length) :
    pack ⟨le16 b0 b1, clearLong b4, b5, .extended (rest.take (le16 b2 b3).toNat)⟩ =
      .ok (b0 :: b1 :: b2 :: b3 :: b4 :: b5 :: rest.take (le16 b2 b3).toNat) := by
  have hlen : (rest.take (le16 b2 b3).toNat).length = (le16 b2 b3).toNat := List.length_take_of_le hle
  have hmax : (le16 b2 b3).toNat ≤ Config.lenMax := Nat.le_of_lt_succ (le16 b2 b3).isLt
  rw [pack_of_extended rfl, packExt_of_le _ (hlen.trans_le hmax), extFrame, hlen, BitVec.ofNat_toNat, BitVec.setWidth_eq]
  simp [setLong_of_long hl]

end

/-- Settles O28: the decode succeeded, so the bytes are a short header or a whole long frame. -/
theorem packOfUnpackGivesTheBytesBack : Obligations.PackOfUnpackGivesTheBytesBack := by
  intro buf m c h
  obtain ⟨b0, b1, b2, b3, b4, b5, rest, rfl⟩ | hlt := header_or_lt_six buf
  · cases hl : long b4
    · rw [unpack_of_short _ _ _ _ _ _ _ hl] at h
      obtain h | h := h <;> cases h
      exact pack_of_short b0 b1 b2 b3 b4 b5 hl
    · rcases Nat.lt_or_ge rest.length (le16 b2 b3).toNat with hlt | hle
      · rw [(unpack_error_iff b0 b1 b2 b3 b4 b5 rest false .TruncatedPayload).2 ⟨rfl, rfl, hl, hlt⟩] at h
        obtain h | h := h <;> cases h
      · rw [unpack_full_of_long _ _ _ _ _ _ _ hl hle] at h
        obtain h | h := h <;> cases h
        rw [pack_of_long _ _ _ _ _ _ _ hl hle, Nat.add_comm]
        rfl
  · rw [unpack_of_lt_six hlt] at h
    obtain h | h := h <;> cases h

end Sys2Proof.Machine

/-! ## O34: MSGEQ by two runs of SER (R127) -/

namespace Sys2Proof.Machine

theorem messageDesc_payload_declared (m : LogicalMessage) (hp : (messageDesc m).d_has_pld = true) :
    (messagePayload m).length = (messageDesc m).fields.d_plen := by
  obtain ⟨op, dest, src, _ | bytes⟩ := m
  · cases hp
  · rfl

/-- The request that a message's descriptor and payload stand for constructs the message (R81). -/
theorem construct_messageDesc (m : LogicalMessage) :
    Machine.construct (requestOf (messageDesc m) (messagePayload m)) = .ok m := by
  rw [construct_requestOf]
  obtain ⟨op, dest, src, _ | bytes⟩ := m <;> rfl

/-- SER, handed a message, reports what PACK gives for it (R134). -/
theorem Ser.operation_message_response {u : Ser} (h : u.s_busy = false) (m : LogicalMessage) :
    (u.operation (messageDesc m) (messagePayload m)).response = some (pack m) := by
  rw [Ser.operation_response h (messageDesc_payload_declared m), send, construct_messageDesc]

/-- A SER that has a response is not busy (R133). -/
theorem Ser.not_busy_of_response {u : Ser} {r : Except Status (List Byte)} (h : u.response = some r) :
    u.s_busy = false := by
  cases hs : u.s_state <;> simp_all [Ser.response, Ser.s_done, Ser.s_busy]

/-- Settles O34: each run reports what PACK gives for its message, the second because the first has ended. -/
theorem msgeqByTwoSerializerRuns : Obligations.MsgeqByTwoSerializerRuns := by
  intro u m1 m2 hu v w
  have hv : v.response = some (pack m1) := Ser.operation_message_response hu m1
  have hw : w.response = some (pack m2) := Ser.operation_message_response (Ser.not_busy_of_response hv) m2
  rw [hv, hw]
  cases h1 : pack m1 with
  | error e => exact messagesEqual_of_error_left h1 m2
  | ok f1 =>
    cases h2 : pack m2 with
    | error e => exact messagesEqual_of_error_right h1 h2
    | ok f2 => exact messagesEqual_of_ok h1 h2

end Sys2Proof.Machine

/-! ## O8, O9, O17: what a step does with the next move (R130, R131, R132, R179) -/

namespace Sys2Proof.Machine

/-- A move taken out of the queue leaves truthful lengths truthful. -/
theorem lengthTruthful_inputs (i : Instr) (s : State) (rest : List Turn) :
    lengthTruthful i { s with inputs := rest } = lengthTruthful i s := by
  cases i <;> rfl

theorem present_of_decode {w : Presented} {i : Instr} (h : decode w = .ok i) (s : State) :
    present w s = if lengthTruthful i s then exec i s else .refused .untruthfulLength := by
  rw [present, h]

theorem present_of_decode_error {w : Presented} {e : DecodeError} (h : decode w = .error e) (s : State) :
    present w s = .refused (.undecodable e) := by
  rw [present, h]

theorem step_of_present {s : State} {w : Presented} {rest : List Turn} (hin : s.inputs = .present w :: rest) :
    step s = present w { s with inputs := rest } := step_of_inputs hin

/-- Fewer than `n` bytes are placed exactly when one of the first `n` has not been written (R179). -/
theorem Memory.placed_lt_iff {m : Memory} (hw : Memory.wf m) (n : Nat) :
    m.placed < n ↔ ∃ k, k < n ∧ Memory.read m k = none := by
  rw [← Nat.not_le, Memory.le_placed_iff hw]
  simp

/-- Settles O8: the next move is decoded, held against the placed bytes, and run. -/
theorem stepRunsThePresentedInstruction : Obligations.StepRunsThePresentedInstruction := by
  intro s w rest hin
  rw [step_of_present hin]
  refine ⟨fun i hd ht => ?_, fun i hd ht => ?_, fun d hw => ?_, fun d hw => ?_, fun i hser hpar => ?_, fun e he => ?_⟩
  · rw [present_of_decode hd, lengthTruthful_inputs, if_pos ht]
  · rw [present_of_decode hd, lengthTruthful_inputs, if_neg (Bool.eq_false_iff.1 ht)]
  · rw [← Memory.placed_lt_iff hw]
    simp [lengthTruthful, and_assoc]
  · rw [← Memory.placed_lt_iff hw]
    simp [lengthTruthful]
  · cases i with
    | startSer d => exact absurd rfl (hser d)
    | startPar d => exact absurd rfl (hpar d)
    | _ => rfl
  · exact present_of_decode_error he _

/-- Settles O9: each move is one step of a unit or one write of the host, and what it writes is read back. -/
theorem stepTakesTheNextMove : Obligations.StepTakesTheNextMove := by
  intro s rest
  refine ⟨step_of_inputs, step_of_inputs, step_of_no_inputs, fun k bs hin => ?_, fun k bs hin => ?_⟩
  · exact ⟨_, step_of_inputs hin, rfl, Memory.read_writeList bs s.par.RXBUF k⟩
  · exact ⟨_, step_of_inputs hin, rfl, Memory.read_writeList bs s.ser.PIN k⟩

theorem encodeOperation_of_busy {s : State} (h : s.ser.s_busy = true) (d : SerDesc) (payload : List Byte) :
    encodeOperation d payload s = .next s := by
  rw [encodeOperation, Ser.operation, if_pos h]

theorem decodeOperation_of_busy {s : State} (h : s.par.p_busy = true) (headerOnly : Bool) (buf : List Byte) :
    decodeOperation headerOnly buf s = .next s := by
  rw [decodeOperation, Par.operation, if_pos h]

/-- What presents a start to a busy SER changes nothing (R132). -/
theorem exec_of_ser_busy {i : Instr} {s : State} (hi : startsSer i = true) (h : s.ser.s_busy = true) :
    exec i s = .next s := by
  cases i with
  | packInline hasP1 hasP2 f => exact encodeOperation_of_busy h _ _
  | packExt f payload => exact encodeOperation_of_busy h _ _
  | constructConflictP1 hasP2 f payload => exact encodeOperation_of_busy h _ _
  | constructConflictP2 hasP1 f payload => exact encodeOperation_of_busy h _ _
  | startSer d => rw [exec_startSer, Ser.start_of_busy h]
  | _ => cases hi

/-- What presents a start to a busy PAR changes nothing (R132). -/
theorem exec_of_par_busy {i : Instr} {s : State} (hi : startsPar i = true) (h : s.par.p_busy = true) :
    exec i s = .next s := by
  cases i with
  | unpackShort hdr rest => exact decodeOperation_of_busy h _ _
  | unpackLong hdr rest => exact decodeOperation_of_busy h _ _
  | unpackhShort hdr rest => exact decodeOperation_of_busy h _ _
  | unpackhLong hdr rest => exact decodeOperation_of_busy h _ _
  | unpackMalformed headerOnly buf => exact decodeOperation_of_busy h _ _
  | startPar d => rw [exec_startPar, Par.start_of_busy h]
  | _ => cases hi

/-- Settles O17, one unit after the other. -/
theorem startToABusyUnitIsIgnored : Obligations.StartToABusyUnitIsIgnored :=
  fun _ _ => ⟨exec_of_ser_busy, exec_of_par_busy⟩

end Sys2Proof.Machine

/-! ## O12: a step stops exactly at a move that the host is not given (R141) -/

namespace Sys2Proof.Machine

/-- A move is made exactly when the spec gives it to the host. -/
theorem Turn.legal_iff (m : Turn) (s : State) : m.legal s = true ↔ ∃ t, turn m s = .next t := by
  cases m with
  | present w =>
    rw [Turn.legal, turn]
    cases hd : decode w with
    | error e => rw [present_of_decode_error hd]; simp
    | ok i =>
      obtain ⟨t, ht, -⟩ := exec_next i s
      rw [present_of_decode hd, ht]
      cases ht : lengthTruthful i s <;> simp [ht]
  | fillRx k bs => exact iff_of_true rfl ⟨_, rfl⟩
  | fillPin k bs => exact iff_of_true rfl ⟨_, rfl⟩
  | ser => exact iff_of_true rfl ⟨_, rfl⟩
  | par => exact iff_of_true rfl ⟨_, rfl⟩

theorem State.nextLegal_iff (s : State) : s.nextLegal = true ↔ ∃ t, step s = .next t := by
  cases hin : s.inputs with
  | nil =>
    rw [step_of_no_inputs hin, State.nextLegal, hin]
    exact iff_of_true rfl ⟨_, rfl⟩
  | cons m rest =>
    rw [step_of_inputs hin, State.nextLegal, hin]
    exact m.legal_iff _

/-- Settles O12, by induction on the number of steps. -/
theorem legalRunsNeverStop : Obligations.LegalRunsNeverStop := by
  refine ⟨State.nextLegal_iff, fun n => ?_⟩
  induction n with
  | zero => exact fun s _ => ⟨s, run_zero s⟩
  | succ n ih =>
    intro s hlegal
    obtain ⟨t, hstep⟩ := s.nextLegal_iff.1 (hlegal 0 s n.succ_pos (run_zero s))
    rw [run_succ hstep]
    exact ih t fun m v hm hv => hlegal (m + 1) v (Nat.succ_lt_succ hm) ((run_succ hstep).trans hv)

end Sys2Proof.Machine

/-! ## O14: a busy step counts one byte and ends a unit with its frame (R136) -/

namespace Sys2Proof.Machine

/-- A busy step of SER writes one byte of the frame; it goes on to the next, or ends with the frame's last byte
(R95, R96). -/
theorem Ser.Inv.tick_cases {u : Ser} (hi : u.Inv) (hb : u.s_busy = true) :
    ∃ b draws, (u.tick = { u.wrote b draws with s_state := u.tick.s_state } ∧ u.tick.s_busy = true) ∨
      (u.tick = (u.wrote b draws).finish u.frameLen ∧ (u.wrote b draws).s_cnt = u.frameLen) := by
  cases hs : u.s_state with
  | S_IDLE => simp [Ser.s_busy, hs] at hb
  | S_HDR =>
    refine ⟨u.s_h[u.s_cnt.toNat]'(hi.header hs), u.s_draws, ?_⟩
    rw [Ser.tick_of_hdr hs (hi.header hs), Ser.headerStep_eq_wrote]
    split
    case isTrue h6 =>
      split
      case isTrue => exact .inl ⟨rfl, rfl⟩
      case isFalse hx =>
        have hlen : u.frameLen = 6 :=
          BitVec.eq_of_toNat_eq (by rw [Ser.frameLen_toNat, (hi.writing hb).s_n_eq_zero hx]; rfl)
        rw [hlen]
        exact .inr ⟨rfl, h6⟩
    case isFalse => exact .inl ⟨rfl, hb⟩
  | S_BODY =>
    obtain ⟨-, -, h6, hlt⟩ := hi.body hs
    refine ⟨u.pinData (u.s_cnt - 6).toNat, u.drawn, ?_⟩
    rw [Ser.tick_of_body hs h6 hlt, Ser.bodyStep_eq_wrote]
    split
    case isTrue hend => exact .inr ⟨rfl, hend⟩
    case isFalse => exact .inl ⟨rfl, hb⟩
  | S_DONE => simp [Ser.s_busy, hs] at hb

section
variable {u : Ser} (hi : u.Inv) (hb : u.s_busy = true)
include hi hb

theorem Ser.Inv.tick_s_n : u.tick.s_n = u.s_n := by
  obtain ⟨b, draws, ⟨htick, -⟩ | ⟨htick, -⟩⟩ := hi.tick_cases hb <;> rw [htick] <;> rfl

/-- A busy step of SER counts one byte (R136). -/
theorem Ser.Inv.tick_cnt : u.tick.s_cnt.toNat = u.s_cnt.toNat + 1 := by
  obtain ⟨b, draws, ⟨htick, -⟩ | ⟨htick, -⟩⟩ := hi.tick_cases hb <;> rw [htick] <;>
    exact Ser.wrote_cnt_toNat (hi.cnt_lt hb) b draws

/-- SER ends exactly with the last byte of its frame (R96, R97). -/
theorem Ser.Inv.tick_ends_iff : u.tick.s_busy = false ↔ u.tick.s_cnt.toNat = 6 + u.s_n.toNat := by
  constructor
  · intro hidle
    obtain ⟨b, draws, ⟨-, hbusy⟩ | ⟨htick, hcnt⟩⟩ := hi.tick_cases hb
    · rw [hbusy] at hidle; cases hidle
    · rw [htick, Ser.finish_s_cnt, hcnt, Ser.frameLen_toNat]
  · intro hend
    refine Bool.eq_false_iff.2 fun hbusy => ?_
    have hlt := hi.tick.cnt_lt hbusy
    rw [hi.tick_s_n hb] at hlt
    exact absurd hend (Nat.ne_of_lt hlt)

end

theorem Par.dispatch_p_cnt (u : Par) : u.dispatch.p_cnt = u.p_cnt := by
  unfold Par.dispatch
  split_ifs <;> rfl

/-- A step of PAR in P_HDR counts one byte; it stays there, or has read the whole header and dispatches on it
(R112, R113). -/
theorem Par.Inv.counts_of_hdr {u : Par} (hi : u.Inv) (hs : u.p_state = .P_HDR) :
    u.tick.p_cnt.toNat = u.p_cnt.toNat + 1 ∧
      (u.tick.p_state = .P_HDR ∨
        (u.tick.p_state = .P_BODY ∨ u.tick.p_state = .P_DONE) ∧ u.tick.p_cnt.toNat = 6) := by
  obtain ⟨h6, -⟩ := hi.header hs
  have hc : (u.p_cnt + 1).toNat = u.p_cnt.toNat + 1 := toNat_cnt_succ (Nat.lt_trans h6 (by decide))
  rw [Par.tick_of_hdr hs h6, Par.headerStep]
  split
  case isTrue hend =>
    rw [Par.dispatch_p_cnt]
    exact ⟨hc, .inr ⟨Par.dispatch_p_state _, congrArg BitVec.toNat hend⟩⟩
  case isFalse => exact ⟨hc, .inl hs⟩

/-- A step of PAR in P_BODY counts one byte; it stays there, or has copied the whole payload and ends (R114). -/
theorem Par.Inv.counts_of_body {u : Par} (hi : u.Inv) (hs : u.p_state = .P_BODY) :
    u.tick.p_cnt.toNat = u.p_cnt.toNat + 1 ∧ u.tick.L = u.L ∧
      (u.tick.p_state = .P_BODY ∨ u.tick.p_state = .P_DONE ∧ u.tick.p_cnt.toNat = 6 + u.L.toNat) := by
  obtain ⟨-, -, -, -, h6, hlt⟩ := hi.body hs
  have hmax : 6 + u.L.toNat ≤ Config.frameMax := Nat.add_le_add_left (Nat.le_of_lt_succ u.L.isLt) 6
  have hc : (u.p_cnt + 1).toNat = u.p_cnt.toNat + 1 := toNat_cnt_succ (Nat.lt_of_lt_of_le hlt hmax)
  rw [Par.tick_of_body hs h6 hlt, Par.bodyStep]
  split
  case isTrue hend => exact ⟨hc, rfl, .inr ⟨rfl, (congrArg BitVec.toNat hend).trans u.frameLen_toNat⟩⟩
  case isFalse => exact ⟨hc, rfl, .inl hs⟩

/-- A busy step of PAR counts one byte, and PAR is busy after it or done (R133, R136). -/
theorem Par.Inv.tick_cnt {u : Par} (hi : u.Inv) (hb : u.p_busy = true) :
    u.tick.p_cnt.toNat = u.p_cnt.toNat + 1 ∧ (u.tick.p_busy = false → u.tick.p_done = true) := by
  cases hs : u.p_state with
  | P_IDLE => simp [Par.p_busy, hs] at hb
  | P_HDR =>
    obtain ⟨hc, h | ⟨h | h, -⟩⟩ := hi.counts_of_hdr hs <;> exact ⟨hc, by simp [Par.p_busy, Par.p_done, h]⟩
  | P_BODY =>
    obtain ⟨hc, -, h | ⟨h, -⟩⟩ := hi.counts_of_body hs <;> exact ⟨hc, by simp [Par.p_busy, Par.p_done, h]⟩
  | P_DONE => simp [Par.p_busy, hs] at hb

/-- PAR leaves P_HDR exactly with the last header byte (R112, R113). -/
theorem Par.Inv.tick_leaves_hdr_iff {u : Par} (hi : u.Inv) (hs : u.p_state = .P_HDR) :
    u.tick.p_state ≠ .P_HDR ↔ u.tick.p_cnt.toNat = 6 := by
  obtain ⟨-, hstay | ⟨hleave, h6⟩⟩ := hi.counts_of_hdr hs
  · obtain ⟨hlt, -⟩ := hi.tick.header hstay
    exact iff_of_false (not_not_intro hstay) (Nat.ne_of_lt hlt)
  · refine iff_of_true (fun hstay => ?_) h6
    rw [hstay] at hleave
    simp at hleave

/-- A PAR that copies a payload ends exactly with the last byte of its frame (R114, R115). -/
theorem Par.Inv.tick_ends_iff {u : Par} (hi : u.Inv) (hs : u.p_state = .P_BODY) :
    u.tick.p_busy = false ↔ u.tick.p_cnt.toNat = 6 + u.L.toNat := by
  obtain ⟨-, hL, hstay | ⟨hdone, hend⟩⟩ := hi.counts_of_body hs
  · obtain ⟨-, -, -, -, -, hlt⟩ := hi.tick.body hstay
    rw [hL] at hlt
    exact iff_of_false (by simp [Par.busy_of_body hstay]) (Nat.ne_of_lt hlt)
  · exact iff_of_true (by simp [Par.p_busy, hdone]) hend

/-- Settles O14: the counter moves on by one within the frame, and a unit that is still busy is short of its end. -/
theorem busyStepsCountOneByte : Obligations.BusyStepsCountOneByte := by
  intro s ⟨hser, hpar⟩
  refine ⟨fun hb => ⟨hser.tick_cnt hb, ?_, hser.tick_ends_iff hb⟩, fun hb => ?_⟩
  · rw [hser.tick_cnt hb]
    exact hser.cnt_lt hb
  obtain ⟨hcnt, hdone⟩ := hpar.tick_cnt hb
  refine ⟨hcnt, hdone, fun hs => ⟨?_, hpar.tick_leaves_hdr_iff hs⟩, fun hs => ⟨?_, hpar.tick_ends_iff hs⟩⟩
  · obtain ⟨hlt, -⟩ := hpar.header hs
    exact hcnt.trans_le hlt
  · obtain ⟨-, -, -, -, -, hlt⟩ := hpar.body hs
    exact hcnt.trans_le hlt

end Sys2Proof.Machine

/-! ## O13: with no move to come, both units end within the longest frame (R136) -/

namespace Sys2Proof.Machine

/-- A unit that counts one byte in each busy step, and is busy only below a bound, is not busy once as many
steps have been taken as are left to the bound. -/
theorem not_busy_of_counting {α : Type} {Inv : α → Prop} {busy : α → Bool} {tick : α → α} {cnt : α → Nat} {bound : Nat}
    (hkeep : ∀ u, Inv u → Inv (tick u)) (hidle : ∀ u n, busy u = false → tick^[n] u = u)
    (hcount : ∀ u, Inv u → busy u = true → cnt (tick u) = cnt u + 1)
    (hbound : ∀ u, Inv u → busy u = true → cnt u < bound) {u : α} (hu : Inv u) {n : Nat} (hn : bound ≤ cnt u + n) :
    busy (tick^[n] u) = false := by
  induction n generalizing u with
  | zero => exact Bool.eq_false_iff.2 fun hb => absurd (hbound u hu hb) (Nat.not_lt.2 hn)
  | succ n ih =>
    cases hb : busy u
    · rw [hidle u _ hb, hb]
    · rw [Function.iterate_succ_apply]
      refine ih (hkeep u hu) ?_
      rw [hcount u hu hb]
      omega

theorem Ser.Inv.not_busy_after_frameMax {u : Ser} (hi : u.Inv) {n : Nat} (hn : Config.frameMax ≤ n) :
    (Ser.tick^[n] u).s_busy = false :=
  not_busy_of_counting (fun _ h => h.tick) (fun _ n h => Ser.iterate_of_not_busy h n) (fun _ h => h.tick_cnt)
    (fun u h hb => (h.cnt_lt hb).trans_le (Nat.add_le_add_left (Nat.le_of_lt_succ u.s_n.isLt) 6)) hi
    (Nat.le_add_left_of_le hn)

/-- A legal busy PAR is within the longest frame (R135). -/
theorem Par.Inv.cnt_lt_frameMax {u : Par} (hi : u.Inv) (hb : u.p_busy = true) : u.p_cnt.toNat < Config.frameMax := by
  cases hs : u.p_state with
  | P_IDLE => simp [Par.p_busy, hs] at hb
  | P_HDR =>
    obtain ⟨hlt, -⟩ := hi.header hs
    exact Nat.lt_trans hlt (by decide)
  | P_BODY =>
    obtain ⟨-, -, -, -, -, hlt⟩ := hi.body hs
    exact hlt.trans_le (Nat.add_le_add_left (Nat.le_of_lt_succ u.L.isLt) 6)
  | P_DONE => simp [Par.p_busy, hs] at hb

theorem Par.Inv.not_busy_after_frameMax {u : Par} (hi : u.Inv) {n : Nat} (hn : Config.frameMax ≤ n) :
    (Par.tick^[n] u).p_busy = false :=
  not_busy_of_counting (fun _ h => h.tick) (fun _ n h => Par.iterate_of_not_busy h n)
    (fun _ h hb => (h.tick_cnt hb).1) (fun _ h => h.cnt_lt_frameMax) hi
    (Nat.le_add_left_of_le hn)

/-- With no move to come, each step is one step of both units. -/
theorem run_of_no_inputs {s : State} (hin : s.inputs = []) (n : Nat) :
    Sys2Proof.core.run n s = .next { s with ser := Ser.tick^[n] s.ser, par := Par.tick^[n] s.par } := by
  induction n generalizing s with
  | zero => exact run_zero s
  | succ n ih =>
    rw [run_succ (step_of_no_inputs hin)]
    exact ih (s := s.clock) hin

/-- A legal run with no move to come is over once it has taken as many steps as the longest frame has bytes. -/
theorem State.Inv.over_after_frameMax {s : State} (hs : s.Inv) (hin : s.inputs = []) {n : Nat}
    (hn : Config.frameMax ≤ n) : ∃ t : State, Sys2Proof.core.run n s = .next t ∧ t.over = true := by
  refine ⟨_, run_of_no_inputs hin n, (State.over_iff _).2 ⟨?_, ?_, ?_⟩⟩
  · exact hs.ser.not_busy_after_frameMax hn
  · exact hs.par.not_busy_after_frameMax hn
  · simp [hin]

/-- Settles O13: 65541 is the longest frame (R8). -/
theorem quietRunsAreOverWithinTheLongestFrame : Obligations.QuietRunsAreOverWithinTheLongestFrame :=
  fun _ hs hin => hs.over_after_frameMax hin (by decide)

end Sys2Proof.Machine

/-! ## O16: a unit that is done keeps its response (R133) -/

namespace Sys2Proof.Machine

theorem Ser.not_busy_of_done {u : Ser} (h : u.s_done = true) : u.s_busy = false := by
  have hs : u.s_state = .S_DONE := beq_iff_eq.1 h
  simp [Ser.s_busy, hs]

theorem Par.not_busy_of_done {u : Par} (h : u.p_done = true) : u.p_busy = false := by
  have hs : u.p_state = .P_DONE := beq_iff_eq.1 h
  simp [Par.p_busy, hs]

/-- The host's write to the input buffer of a unit that is not busy is no breach (R43). -/
theorem Ser.hostFill_of_not_busy {u : Ser} (h : u.s_busy = false) (k : Nat) (bs : List Byte) :
    u.hostFill k bs = { u with PIN := Memory.writeList u.PIN k bs } := by
  simp [Ser.hostFill, h]

theorem Par.hostFill_of_not_busy {u : Par} (h : u.p_busy = false) (k : Nat) (bs : List Byte) :
    u.hostFill k bs = { u with RXBUF := Memory.writeList u.RXBUF k bs } := by
  simp [Par.hostFill, h]

/-- Only a start to SER and a reset touch SER (R34, R38). -/
theorem exec_keeps_ser {i : Instr} {s t : State} (h : exec i s = .next t) (hi : startsSer i = false ∧ i ≠ .reset) :
    t.ser = s.ser := by
  obtain ⟨hstart, hreset⟩ := hi
  cases i with
  | packInline _ _ _ => cases hstart
  | packExt _ _ => cases hstart
  | constructConflictP1 _ _ _ => cases hstart
  | constructConflictP2 _ _ _ => cases hstart
  | startSer _ => cases hstart
  | reset => exact absurd rfl hreset
  | _ => cases h; rfl

/-- Only a start to PAR and a reset touch more of a PAR that is not busy than RXBUF, in which frames arrive
(R34, R38). -/
theorem exec_keeps_par {i : Instr} {s t : State} (h : exec i s = .next t) (hi : startsPar i = false ∧ i ≠ .reset)
    (hb : s.par.p_busy = false) : t.par = { s.par with RXBUF := t.par.RXBUF } := by
  obtain ⟨hstart, hreset⟩ := hi
  cases i with
  | frameShort hdr => cases h; exact Par.hostFill_of_not_busy hb 0 _
  | frameLong hdr payload => cases h; exact Par.hostFill_of_not_busy hb 0 _
  | unpackShort _ _ => cases hstart
  | unpackLong _ _ => cases hstart
  | unpackhShort _ _ => cases hstart
  | unpackhLong _ _ => cases hstart
  | unpackMalformed _ _ => cases hstart
  | startPar _ => cases hstart
  | reset => exact absurd rfl hreset
  | _ => cases h; rfl

/-- A presentation that is made is an instruction, run. -/
theorem exec_of_present_next {w : Presented} {s t : State} (h : present w s = .next t) :
    ∃ i, decode w = .ok i ∧ exec i s = .next t := by
  cases hd : decode w with
  | error e => rw [present_of_decode_error hd] at h; cases h
  | ok i =>
    rw [present_of_decode hd] at h
    split at h
    · exact ⟨i, rfl, h⟩
    · cases h

section
variable {s t : State} (h : step s = .next t)
include h

/-- A step in which nothing is started in SER and nothing is reset leaves a SER that is not busy as it is, but
for PIN. -/
theorem step_keeps_ser (hb : s.ser.s_busy = false)
    (hnext : ∀ w rest i, s.inputs = .present w :: rest → decode w = .ok i → startsSer i = false ∧ i ≠ .reset) :
    t.ser = { s.ser with PIN := t.ser.PIN } := by
  have htick : s.ser.tick = { s.ser with PIN := s.ser.tick.PIN } := by rw [Ser.tick_of_not_busy hb]
  cases hin : s.inputs with
  | nil => rw [step_of_no_inputs hin] at h; cases h; exact htick
  | cons m rest =>
    rw [step_of_inputs hin] at h
    cases m with
    | present w =>
      obtain ⟨i, hd, hexec⟩ := exec_of_present_next h
      rw [exec_keeps_ser hexec (hnext w rest i hin hd)]
    | fillRx k bs => cases h; rfl
    | fillPin k bs => cases h; exact Ser.hostFill_of_not_busy hb k bs
    | ser => cases h; exact htick
    | par => cases h; rfl

/-- A step in which nothing is started in PAR and nothing is reset leaves a PAR that is not busy as it is, but
for RXBUF. -/
theorem step_keeps_par (hb : s.par.p_busy = false)
    (hnext : ∀ w rest i, s.inputs = .present w :: rest → decode w = .ok i → startsPar i = false ∧ i ≠ .reset) :
    t.par = { s.par with RXBUF := t.par.RXBUF } := by
  have htick : s.par.tick = { s.par with RXBUF := s.par.tick.RXBUF } := by rw [Par.tick_of_not_busy hb]
  cases hin : s.inputs with
  | nil => rw [step_of_no_inputs hin] at h; cases h; exact htick
  | cons m rest =>
    rw [step_of_inputs hin] at h
    cases m with
    | present w =>
      obtain ⟨i, hd, hexec⟩ := exec_of_present_next h
      exact exec_keeps_par (s := { s with inputs := rest }) hexec (hnext w rest i hin hd) hb
    | fillRx k bs => cases h; exact Par.hostFill_of_not_busy hb k bs
    | fillPin k bs => cases h; rfl
    | ser => cases h; rfl
    | par => cases h; exact htick

end

/-- Settles O16: a unit that is done is not busy, and its response does not read its input buffer. -/
theorem responseIsHeldUntilTheNextStart : Obligations.ResponseIsHeldUntilTheNextStart := by
  refine fun s t h => ⟨fun hdone hnext => ?_, fun hdone hnext => ?_⟩
  · have hkeep := step_keeps_ser h (Ser.not_busy_of_done hdone) hnext
    exact ⟨by rw [hkeep]; exact hdone, by rw [hkeep]; rfl, hkeep⟩
  · have hkeep := step_keeps_par h (Par.not_busy_of_done hdone) hnext
    exact ⟨by rw [hkeep]; exact hdone, by rw [hkeep]; rfl, hkeep⟩

end Sys2Proof.Machine

/-! ## O43: SER refines PACK of CONSTRUCT (R138) -/

namespace Sys2Proof.Machine

/-- A SER that is done after an accepted start is at the end of its operation (R96, R97). -/
theorem Ser.iterate_eq_ended {u : Ser} (h : u.Started) {n : Nat} (hdone : (Ser.tick^[n] u).s_done = true) :
    Ser.tick^[n] u = u.ended := by
  rw [Ser.iterate_of_started h] at hdone ⊢
  rw [Ser.progress_s_done, decide_eq_true_eq] at hdone
  exact u.progress_end hdone

/-- Settles O43: in the interleaving SER takes its own steps alone; a refused start is what `send` refuses, and
an accepted one ends with the frame that `send` gives (R38, R81, R94). -/
theorem serializerRefinesPackOfConstruct : Obligations.SerializerRefinesPackOfConstruct := by
  intro d s t v ts hb hexec hts hrun hdone
  cases hexec
  rw [unitsStepIndependently _ ts hts rfl] at hrun
  cases hrun
  rw [send_requestOf fun _ => Memory.bytes_length _ _ _ _]
  have hstart := Ser.start_eq hb d
  cases hr : refusal d with
  | some e =>
    rw [hr, Option.elim_some] at hstart
    rw [hstart, Ser.iterate_of_not_busy rfl]
    exact ⟨rfl, rfl, fun _ => rfl⟩
  | none =>
    rw [hr, Option.elim_none] at hstart
    rw [hstart] at hdone ⊢
    rw [Ser.iterate_eq_ended (s.ser.accepted_started d) hdone, Option.elim_none, ← Ser.accepted_frame hr]
    exact ⟨rfl, (Ser.frameLen_toNat _).trans (Ser.frame_length _).symm, Ser.read_ended_TXBUF _⟩

end Sys2Proof.Machine

/-! ## O57: PAR refines UNPACK and UNPACKH (R138) -/

namespace Sys2Proof.Machine

/-- The bytes of a decode's result that PAR puts in POUT: the payload of a full decode (R70). -/
def poutBytes : DecodeResult → List Byte
  | .longFull ⟨_, _, _, .extended bytes⟩ _ => bytes
  | .longFull ⟨_, _, _, .inlineParams _ _⟩ _ => []
  | .short _ _ => []
  | .longHeader _ _ _ _ _ => []

/-- A PAR that is done after an accepted start is at the end of its operation (R115). -/
theorem Par.iterate_eq_ended {u : Par} (h : u.Started) {n : Nat} (hdone : (Par.tick^[n] u).p_done = true) :
    Par.tick^[n] u = u.ended := by
  refine Par.iterate_end h ?_
  change u.steps ≤ n
  have hs : (Par.tick^[n] u).p_state = .P_DONE := beq_iff_eq.1 hdone
  rw [Par.iterate_p_state h] at hs
  by_contra hlt
  rw [if_pos (Nat.not_le.1 hlt)] at hs
  split at hs <;> cases hs

/-- Where the dispatch leads: a result without a payload, the one error, or the payload copied (R113, R114). -/
theorem Par.parsed_cases {u : Par} (hc : u.p_cnt = 6) :
    u.parsed = u.finish .SHORT 6 ∨ u.parsed = u.finish .LONG_HDR 6 ∨ u.parsed = u.raise .TruncatedPayload ∨
      u.parsed = u.copied := by
  cases hl : u.long
  · exact .inl (Par.parsed_short hl)
  cases ho : u.p_hdronly
  · rcases Nat.lt_or_ge u.p_avail (6 + u.L.toNat) with ha | ha
    · exact .inr (.inr (.inl (Par.parsed_truncated hl ho ha)))
    · exact .inr (.inr (.inr (Par.parsed_full hc hl ho ha)))
  · exact .inr (.inl (Par.parsed_header hl ho))

section
variable {u : Par}

/-- An error that PAR reports at the end stands in its status, without a result, and POUT is as it was (R150). -/
theorem Par.ended_of_error {e : Status} (h : u.ended.response = some (.error e)) :
    u.ended.p_status = e ∧ u.ended.p_kind = .NONE ∧ u.ended.p_consumed = 0 ∧ u.ended.POUT = u.POUT := by
  rw [Par.ended_eq_parsed] at h ⊢
  obtain hp | hp | hp | hp := Par.parsed_cases (u := { u with p_hdr := u.held 6, p_cnt := 6 }) rfl <;> rw [hp] at h ⊢
  · cases h
  · cases h
  · cases h
    exact ⟨rfl, rfl, rfl, rfl⟩
  · rw [Par.response_of_copied] at h
    cases h

/-- A result that PAR reports at the end comes with its payload in POUT (R113, R114). -/
theorem Par.ended_of_ok {r : DecodeResult} (h : u.ended.response = some (.ok r)) :
    u.ended.p_status = .OK ∧ u.ended.POUT = Memory.writeList u.POUT 0 (poutBytes r) := by
  rw [Par.ended_eq_parsed] at h ⊢
  obtain hp | hp | hp | hp := Par.parsed_cases (u := { u with p_hdr := u.held 6, p_cnt := 6 }) rfl <;> rw [hp] at h ⊢
  · cases h
    exact ⟨rfl, rfl⟩
  · cases h
    exact ⟨rfl, rfl⟩
  · cases h
  · rw [Par.response_of_copied] at h
    cases h
    exact ⟨rfl, rfl⟩

end

/-- Settles O57: in the interleaving PAR takes its own steps alone; a start on fewer than six bytes is refused,
and every other one ends with what `unpack` gives (R38, R100, R111). -/
theorem parserRefinesUnpack : Obligations.ParserRefinesUnpack := by
  intro d s t v ts hb hexec hts hrun hdone
  cases hexec
  rw [unitsStepIndependently _ ts hts rfl] at hrun
  cases hrun
  rcases Nat.lt_or_ge d.p_avail_in 6 with hlt | hge
  · rw [unpack_of_lt_six (by rw [Memory.bytes_length]; exact hlt), Par.start_malformed hb hlt,
      Par.iterate_of_not_busy rfl]
    exact ⟨rfl, rfl, rfl, fun _ => rfl⟩
  rw [Par.iterate_eq_ended (Par.started hb hge) hdone, Par.start_accepted hb hge]
  have hresp := Par.ended_response { s.par with
    p_hdronly := d.p_hdronly_in, p_avail := d.p_avail_in, p_torn := false, p_cnt := 0, p_state := .P_HDR } hge
  cases hu : unpack (Memory.bytes .RXBUF s.par.RXBUF 0 d.p_avail_in) d.p_hdronly_in with
  | error e =>
    obtain ⟨hstatus, hkind, hconsumed, hpout⟩ := Par.ended_of_error (hresp.trans (congrArg some hu))
    exact ⟨hstatus, hkind, hconsumed, fun k => congrArg (Memory.read · k) hpout⟩
  | ok r =>
    have hok := hresp.trans (congrArg some hu)
    obtain ⟨hstatus, hpout⟩ := Par.ended_of_ok hok
    refine ⟨hstatus, hok, fun k => ?_⟩
    rw [hpout, Memory.read_writeList_zero]
    obtain ⟨m, c⟩ | ⟨⟨op, dest, src, p1, p2 | bytes⟩, c⟩ | ⟨op, dest, src, n, c⟩ := r <;> rfl

end Sys2Proof.Machine

/-! ## O29: the header first, then the whole frame (R72, R178) -/

namespace Sys2Proof.Machine

section
variable (b0 b1 b2 b3 b4 b5 : Byte) (rest : List Byte)

/-- A full decode looks at no byte after the frame that its header tells (R58). -/
theorem unpack_full_take_length (hl : long b4 = true) :
    unpack (b0 :: b1 :: b2 :: b3 :: b4 :: b5 :: rest.take (le16 b2 b3).toNat) false =
      unpack (b0 :: b1 :: b2 :: b3 :: b4 :: b5 :: rest) false := by
  rcases Nat.le_total rest.length (le16 b2 b3).toNat with hshort | hfull
  · rw [List.take_of_length_le hshort]
  · rw [unpack_full_of_long _ _ _ _ _ _ _ hl hfull,
      unpack_full_of_long _ _ _ _ _ _ _ hl (List.length_take_of_le hfull).ge, List.take_take, Nat.min_self]

/-- After a short header RECV is done (R72). -/
theorem recv_of_short (hl : long b4 = false) :
    recv (b0 :: b1 :: b2 :: b3 :: b4 :: b5 :: rest) =
      .ok (.short ⟨le16 b0 b1, b4, b5, .inlineParams b2 b3⟩ 6) := by
  have hheader := unpack_of_short b0 b1 b2 b3 b4 b5 [] hl true
  simp [recv, hheader]

/-- After a long header RECV decodes the header and as many bytes as its length field tells (R72). -/
theorem recv_of_long (hl : long b4 = true) :
    recv (b0 :: b1 :: b2 :: b3 :: b4 :: b5 :: rest) =
      unpack (b0 :: b1 :: b2 :: b3 :: b4 :: b5 :: rest.take (le16 b2 b3).toNat) false := by
  have hheader := unpack_headerOnly_of_long b0 b1 b2 b3 b4 b5 [] hl
  simp [recv, hheader, Nat.add_comm 6]

end

/-- Without six bytes RECV has no header to decode (R100). -/
theorem recv_of_lt_six {stream : List Byte} (h : stream.length < 6) : recv stream = .error .MalformedHeader := by
  rw [recv, List.take_of_length_le h.le, unpack_of_lt_six h]

/-- Settles O29: the header tells the frame's length, and a full decode looks at nothing beyond it. -/
theorem headerFirstThenWholeFrame : Obligations.HeaderFirstThenWholeFrame := by
  intro stream
  obtain ⟨b0, b1, b2, b3, b4, b5, rest, rfl⟩ | hlt := header_or_lt_six stream
  · cases hl : long b4
    · rw [recv_of_short _ _ _ _ _ _ _ hl, unpack_of_short _ _ _ _ _ _ _ hl]
    · rw [recv_of_long _ _ _ _ _ _ _ hl, unpack_full_take_length _ _ _ _ _ _ _ hl]
  · rw [recv_of_lt_six hlt, unpack_of_lt_six hlt]

end Sys2Proof.Machine

/-! ## O2, O3: RESET (R170, R171) -/

namespace Sys2Proof.Machine

theorem exec_reset (s : State) :
    exec .reset s = .next { s with ser := s.ser.resetStep, par := s.par.resetStep } := rfl

section
variable (u : Ser)

@[simp] theorem Ser.resetStep_s_busy : u.resetStep.s_busy = false := rfl

@[simp] theorem Ser.resetStep_s_done : u.resetStep.s_done = false := rfl

@[simp] theorem Ser.resetStep_response : u.resetStep.response = none := rfl

end

/-- The mark of an abandoned operation hides every byte of TXBUF from the host (R171, R176). -/
theorem Ser.hostTx_resetStep_of_busy {u : Ser} (h : u.s_busy = true) (k : Nat) : u.resetStep.hostTx k = none := by
  simp [Ser.hostTx, h]

section
variable (u : Par)

@[simp] theorem Par.resetStep_p_busy : u.resetStep.p_busy = false := rfl

@[simp] theorem Par.resetStep_p_done : u.resetStep.p_done = false := rfl

@[simp] theorem Par.resetStep_hasResult : u.resetStep.hasResult = false := rfl

@[simp] theorem Par.resetStep_response : u.resetStep.response = none := rfl

end

/-- The mark of an abandoned operation hides every byte of POUT from the host (R171, R176). -/
theorem Par.hostPo_resetStep_of_busy {u : Par} (h : u.p_busy = true) (k : Nat) : u.resetStep.hostPo k = none := by
  simp [Par.hostPo, h]

/-- Settles O2: the two units' reset steps give the values of R21 and write no buffer (R170). -/
theorem resetStepIdlesBothUnits : Obligations.ResetStepIdlesBothUnits := by
  intro s
  refine ⟨_, exec_reset s, ?_⟩
  simp

/-- Settles O3: a busy unit's reset step marks its output buffer, whose bytes stay. -/
theorem resetAbandonsTheOperation : Obligations.ResetAbandonsTheOperation := by
  intro s t hexec
  rw [exec_reset] at hexec
  cases hexec
  refine ⟨fun hser => ?_, fun hpar => ?_⟩
  · exact ⟨s.ser.resetStep_s_state, s.ser.resetStep_response, fun k => by rw [Ser.resetStep_TXBUF],
      Ser.hostTx_resetStep_of_busy hser⟩
  · exact ⟨s.par.resetStep_p_state, s.par.resetStep_response, fun k => by rw [Par.resetStep_POUT],
      Par.hostPo_resetStep_of_busy hpar⟩

end Sys2Proof.Machine
